-- ==== Sys2Proof/Word.lean ====
section
/-! DEFINITION. The word types of the Huffman tree engine (spec/00_scope.md R6, R10). All numbers are unsigned. -/

namespace Sys2Proof

/-- A symbol, 8 bits: "an integer in [0,255] identifying a byte value" (R6 `SYMW`, R61). -/
abbrev Sym8 := BitVec 8

/-- A frequency count, `CW` = 32 bits (R6, R21). -/
abbrev Count := BitVec 32

/-- A node weight, `WW` = 40 bits (R6, R22). -/
abbrev Weight := BitVec 40

/-- A node index, `IDXW` = 9 bits (R6, R23). -/
abbrev Idx := BitVec 9

/-- A command word, `CMDW` = 48 bits (R6, R80). -/
abbrev CmdWord := BitVec 48

/-- A field of code bits, `LMAX` = 255 bits, the first branch at bit 0 (R6, R25). -/
abbrev CodeBits := BitVec 255

end Sys2Proof
end

