-- ==== Sys2Proof/Syntax.lean ====
section
/-! DEFINITION. The ten commands of the engine (spec/30_encoding.md R84), one constructor per row of spec/opcode_table.json. -/

namespace Sys2Proof

/-- A command with its operands (R82, R83). -/
inductive Instr
  /-- `CLR`: clear the frequency table (R111). -/
  | clr
  /-- `LDF sym, cnt`: load one frequency count (R112). -/
  | ldf (sym : Sym8) (cnt : Count)
  /-- `RDF sym`: read one frequency count (R113). -/
  | rdf (sym : Sym8)
  /-- `RDS`: read the status word (R114). -/
  | rds
  /-- `BUILD`: build the tree from the frequency table (R140). -/
  | build
  /-- `GEN`: derive the code table from the tree (R161). -/
  | gen
  /-- `LKUP sym`: read the code of one symbol (R163). -/
  | lkup (sym : Sym8)
  /-- `DSTART`: put the decoder into its start state (R211). -/
  | dstart
  /-- `DBIT tok`: feed one payload token (R212). -/
  | dbit (tok : BitVec 8)
  /-- `DEND`: the payload is exhausted (R213). -/
  | dend
deriving DecidableEq, Repr

end Sys2Proof
end

