-- ==== Sys2Proof/WellFormed.lean ====
section
/-! DEFINITION. Operation names, command formats and the well-formedness of a written command (spec/30_encoding.md R82, R83, R94).

A command of `Instr` carries its operands as 8 and 32 bit fields, and R61 and R83 make every value of them legal. What can be
ill-formed is a command as a host writes it, a mnemonic with numbers after it (R94): the wrong number of operands, a symbol or a
token above 255, a count of 2^32 or more (R112, R190). -/

namespace Sys2Proof

/-- The ten mnemonics (R84). -/
inductive Op
  | clr | ldf | rdf | rds | build | gen | lkup | dstart | dbit | dend
deriving DecidableEq, Repr

/-- The four formats (R82): no operand, symbol, token, symbol and count. -/
inductive Format
  | z | s | t | sc
deriving DecidableEq, Repr

/-- The format column of R84. -/
def Op.format : Op → Format
  | .clr => .z
  | .ldf => .sc
  | .rdf => .s
  | .rds => .z
  | .build => .z
  | .gen => .z
  | .lkup => .s
  | .dstart => .z
  | .dbit => .t
  | .dend => .z

/-- The mnemonic of a command. -/
def Instr.op : Instr → Op
  | .clr => .clr
  | .ldf _ _ => .ldf
  | .rdf _ => .rdf
  | .rds => .rds
  | .build => .build
  | .gen => .gen
  | .lkup _ => .lkup
  | .dstart => .dstart
  | .dbit _ => .dbit
  | .dend => .dend

/-- A command as it is written: the mnemonic and its operands as numbers, in the order of R82 and R94. -/
structure Line where
  op : Op
  args : List Nat
deriving DecidableEq, Repr

/-- The operands a line may carry (R82, R83): none; a symbol or a token below 256; a symbol below 256 and a count below 2^32. -/
def Line.wellFormed (l : Line) : Bool :=
  match l.op.format, l.args with
  | .z, [] => true
  | .s, [sym] => decide (sym < 2 ^ 8)
  | .t, [tok] => decide (tok < 2 ^ 8)
  | .sc, [sym, cnt] => decide (sym < 2 ^ 8) && decide (cnt < 2 ^ 32)
  | _, _ => false

/-- The line that writes a command. -/
def Instr.toLine : Instr → Line
  | .clr => ⟨.clr, []⟩
  | .ldf sym cnt => ⟨.ldf, [sym.toNat, cnt.toNat]⟩
  | .rdf sym => ⟨.rdf, [sym.toNat]⟩
  | .rds => ⟨.rds, []⟩
  | .build => ⟨.build, []⟩
  | .gen => ⟨.gen, []⟩
  | .lkup sym => ⟨.lkup, [sym.toNat]⟩
  | .dstart => ⟨.dstart, []⟩
  | .dbit tok => ⟨.dbit, [tok.toNat]⟩
  | .dend => ⟨.dend, []⟩

/-- A command is well-formed when the line that writes it is. Every command is (Laws/Decode.lean, `wellFormed_all`), because
its fields are 8 and 32 unsigned bits (R83, R112). -/
def Instr.wellFormed (i : Instr) : Bool := i.toLine.wellFormed

end Sys2Proof
end

