-- ==== Sys2Proof/Decode.lean ====
section
/-! DEFINITION. Decoding and encoding of the 48-bit command word (spec/30_encoding.md R80 to R88). A command is ONE word of 48 bits
and has no byte order (spec/20_memory.md R62), so the decoder reads a word, not bytes (log 15). -/

namespace Sys2Proof

/-- `opc`, bits [47:40] (R81). -/
def opcOf (w : CmdWord) : BitVec 8 := w.extractLsb' 40 8

/-- `a8`, bits [39:32] (R81). -/
def a8Of (w : CmdWord) : BitVec 8 := w.extractLsb' 32 8

/-- `a32`, bits [31:0] (R81). -/
def a32Of (w : CmdWord) : BitVec 32 := w.extractLsb' 0 32

/-- The word with the three fields of R81: `{opc, a8, a32}`. -/
def packWord (opc a8 : BitVec 8) (a32 : BitVec 32) : CmdWord := opc ++ a8 ++ a32

/-- The opcode column of R84. -/
def Op.opcode : Op → BitVec 8
  | .clr => 0x01
  | .ldf => 0x02
  | .rdf => 0x03
  | .rds => 0x04
  | .build => 0x10
  | .gen => 0x20
  | .lkup => 0x21
  | .dstart => 0x30
  | .dbit => 0x31
  | .dend => 0x32

/-- The `match` column of R84 and of spec/opcode_table.json. -/
def Op.matchBits : Op → CmdWord
  | .clr => 0x010000000000
  | .ldf => 0x020000000000
  | .rdf => 0x030000000000
  | .rds => 0x040000000000
  | .build => 0x100000000000
  | .gen => 0x200000000000
  | .lkup => 0x210000000000
  | .dstart => 0x300000000000
  | .dbit => 0x310000000000
  | .dend => 0x320000000000

/-- The `mask` column of R84 and of spec/opcode_table.json. -/
def Op.maskBits : Op → CmdWord
  | .clr => 0xFFFFFFFFFFFF
  | .ldf => 0xFF0000000000
  | .rdf => 0xFF00FFFFFFFF
  | .rds => 0xFFFFFFFFFFFF
  | .build => 0xFFFFFFFFFFFF
  | .gen => 0xFFFFFFFFFFFF
  | .lkup => 0xFF00FFFFFFFF
  | .dstart => 0xFFFFFFFFFFFF
  | .dbit => 0xFF00FFFFFFFF
  | .dend => 0xFFFFFFFFFFFF

/-- The ten rows of R84. -/
def opcodeMap : List Op := [.clr, .ldf, .rdf, .rds, .build, .gen, .lkup, .dstart, .dbit, .dend]

/-- The row with the given opcode, if it is one of the ten (R84, R86). -/
def opOfOpcode (opc : BitVec 8) : Option Op := opcodeMap.find? (fun o => o.opcode == opc)

/-- The must-be-zero fields of a format are zero (R82, R85). -/
def unusedZero (f : Format) (a8 : BitVec 8) (a32 : BitVec 32) : Bool :=
  match f with
  | .z => a8 == 0 && a32 == 0
  | .s => a32 == 0
  | .t => a32 == 0
  | .sc => true

/-- The command of a row with its operands taken from `a8` and `a32` (R83, R88). -/
def mkInstr (o : Op) (a8 : BitVec 8) (a32 : BitVec 32) : Instr :=
  match o with
  | .clr => .clr
  | .ldf => .ldf a8 a32
  | .rdf => .rdf a8
  | .rds => .rds
  | .build => .build
  | .gen => .gen
  | .lkup => .lkup a8
  | .dstart => .dstart
  | .dbit => .dbit a8
  | .dend => .dend

/-- Why a word is illegal: a reserved opcode (R86), or a nonzero bit in a must-be-zero field of the row (R85). -/
inductive DecodeError
  | reservedOpcode (opc : BitVec 8)
  | nonzeroUnusedField (op : Op)
deriving DecidableEq, Repr

/-- Decoding, total, in the order of R88: the opcode, then the must-be-zero fields, then the operands. -/
def decode (w : CmdWord) : Except DecodeError Instr :=
  match opOfOpcode (opcOf w) with
  | none => .error (.reservedOpcode (opcOf w))
  | some o =>
    if unusedZero o.format (a8Of w) (a32Of w) then .ok (mkInstr o (a8Of w) (a32Of w))
    else .error (.nonzeroUnusedField o)

/-- The `a8` field of a command, zero where its format does not use it (R82). -/
def a8Field : Instr → BitVec 8
  | .ldf sym _ => sym
  | .rdf sym => sym
  | .lkup sym => sym
  | .dbit tok => tok
  | .clr | .rds | .build | .gen | .dstart | .dend => 0

/-- The `a32` field of a command, zero where its format does not use it (R82). -/
def a32Field : Instr → BitVec 32
  | .ldf _ cnt => cnt
  | .clr | .rdf _ | .rds | .build | .gen | .lkup _ | .dstart | .dbit _ | .dend => 0

/-- The word of a command (R81, R82, R84). -/
def encode (i : Instr) : CmdWord := packWord i.op.opcode (a8Field i) (a32Field i)

/-- A well-formed line as a command (R94): the operands become the 8 and 32 bit fields. -/
def assemble (l : Line) : Option Instr :=
  if l.wellFormed then
    some (mkInstr l.op (BitVec.ofNat 8 (l.args.headD 0)) (BitVec.ofNat 32 (l.args.tail.headD 0)))
  else none

/-- The command word whose low `nbits` bits are those of `w`, the bits above zero. -/
def commandWord (nbits w : Nat) : CmdWord := BitVec.ofNat 48 (w % 2 ^ nbits)

/-- The command the decoder reads from the `nbits` low bits of `w`, numbered as spec/opcode_table.json numbers them; `none` where it
refuses the word, or where more bits are given than a command has. -/
def decodeTableWord (nbits w : Nat) : Option Instr :=
  if nbits ≤ 48 then (decode (commandWord nbits w)).toOption else none

end Sys2Proof
end

