-- ==== Sys2Proof/Config.lean ====
section
/-! DEFINITION. The parameters of the engine (spec/00_scope.md R6) and the model's free values
(spec/93_implementation_defined.md U1, U2: treatment `any value`). -/

namespace Sys2Proof.Config

/-- `NSYM`: the number of symbols (R6). -/
abbrev nsym : Nat := 256

/-- `NNODE`: the entries of the node memory (R6, R22). -/
abbrev nnode : Nat := 511

/-- `LMAX`: the greatest code length in bits (R6, R166). -/
abbrev lmax : Nat := 255

/-- `TOK0`: the payload token that means bit 0 (R6, R214). -/
abbrev tok0 : BitVec 8 := 0x30

/-- `TOK1`: the payload token that means bit 1 (R6, R214). -/
abbrev tok1 : BitVec 8 := 0x31

/-- DESIGN CHOICE (log 1). The value of `ROOT`, `CUR` and `PQN` after reset, which R39 leaves unspecified and "never zero":
the 9-bit value that names no entry of `NODE` (0..510) and is no count of `PQ` (0..256). -/
abbrev resetIndex : Idx := 0x1FF

/-- FREE VALUE (log 2). The 68 bits an entry of `NODE` holds that nothing has written since reset number `era`: unspecified by
R39 and U1, so a constant with no body, which no proof can see into. -/
opaque freeNodeBits : (era : Nat) → (index : Nat) → BitVec 68

/-- FREE VALUE (log 2). The 264 bits an entry of `CODE` holds that nothing has written since reset number `era` (R39, U1). -/
opaque freeCodeBits : (era : Nat) → (symbol : Nat) → BitVec 264

/-- FREE VALUE (log 2). The 9 bits a position of `PQ` holds that is not in use (R39, U1, U2). -/
opaque freePqBits : (era : Nat) → (position : Nat) → Idx

end Sys2Proof.Config
end

