-- ==== Sys2Proof/Machine/State.lean ====
section
/-! DEFINITION. The state of one engine (spec/10_state.md R20 to R35), its records, its responses (spec/30_encoding.md R90, R91), its
reset value (R39), and the reasons a step can stop. -/

namespace Sys2Proof.Machine

/-- One memory of the engine, indexed by whole entry (spec/20_memory.md R60, R62, R64): the entries that hold something other than
what an unlisted index reads as, by strictly rising index. -/
abbrev Memory (α : Type) := List (Nat × α)

/-- A record of `NODE`, 68 bits (R22). -/
structure Node where
  /-- `lv` [67]: the node has a left child. -/
  lv : Bool
  /-- `rv` [66]: the node has a right child. -/
  rv : Bool
  /-- `l` [65:57]: index of the left child, 0 when there is none. -/
  l : Idx
  /-- `r` [56:48]: index of the right child, 0 when there is none. -/
  r : Idx
  /-- `rs` [47:40]: the representative symbol, for a leaf its own symbol. -/
  rs : Sym8
  /-- `w` [39:0]: the weight. -/
  w : Weight
deriving DecidableEq, Repr

/-- A record of `CODE`, 264 bits (R25). -/
structure CodeEntry where
  /-- `v` [263]: the symbol has an entry. -/
  v : Bool
  /-- `len` [262:255]: the length of the code. -/
  len : BitVec 8
  /-- `bits` [254:0]: bit `i` is the i-th bit of the code string. -/
  bits : CodeBits
deriving DecidableEq, Repr

/-- `TS`, the tree state (R30). -/
inductive TreeState
  | none | empty | single | multi
deriving DecidableEq, Repr

/-- `DST`, the decoder state (R32). -/
inductive DecState
  | idle | run | done | halt
deriving DecidableEq, Repr

/-- The result codes of R91 and R241. Codes 8 to 15 are never produced (U15). -/
inductive ResultCode
  | ok | malformedHeader | unknownSymbol | invalidBit | truncatedStream | emptyTree | badSequence | illegalCommand
deriving DecidableEq, Repr

/-- The response record (R90). A field a command does not set is zero (R92). -/
structure Resp where
  rc : ResultCode := .ok
  emit : Bool := false
  sym : Sym8 := 0
  n : BitVec 32 := 0
  len : BitVec 8 := 0
  code : CodeBits := 0
deriving DecidableEq, Repr

/-- What the host gives the engine: a command word, or an assertion of the reset input (R7, R270). -/
inductive HostInput
  | command (w : CmdWord)
  | reset
deriving DecidableEq, Repr

/-- Reasons a meaning stops the machine. Both can only happen in states that no run from reset reaches (R37, R61). -/
inductive Fault
  /-- Raised by GEN, DSTART and DBIT when an index they follow is 511: `NODE` has entries 0..510 only (R22). Safe: the
  model stops where the spec has no entry to read (log 5). -/
  | noSuchNode
  /-- Raised by GEN when the traversal goes deeper than `LMAX` = 255 branches: a path that `bits` cannot hold (R25, R166).
  Safe: the model stops where the spec gives no effect (log 6). -/
  | codeTooLong
deriving DecidableEq, Repr

/-- Reasons an instruction is refused. -/
inductive Refusal
  /-- Raised by `exec` for an instruction without a meaning. Safe. No arm uses it. -/
  | notModelled (mnemonic : String)
deriving DecidableEq, Repr

/-- The whole state of one engine (R20), and the two ports of the model. -/
structure State where
  /-- `FREQ` (R21): the counts; an unlisted symbol has count 0. -/
  freq : Memory Count
  /-- `NODE` (R22): the node memory; an unlisted entry is unspecified (log 2). -/
  node : Memory Node
  /-- `PQ` (R24): the working collection; a position not in use is unspecified (log 2). -/
  pq : Memory Idx
  /-- `PQN` (R24). -/
  pqn : BitVec 9
  /-- `CODE` (R25): the code table; an unlisted entry is unspecified (log 2). -/
  code : Memory CodeEntry
  /-- `ROOT` (R26). -/
  root : Idx
  /-- `CUR` (R26). -/
  cur : Idx
  /-- `NLEAF` (R26). -/
  nleaf : BitVec 9
  /-- `TS` (R30). -/
  ts : TreeState
  /-- `CS` (R31). -/
  cs : Bool
  /-- `DST` (R32). -/
  dst : DecState
  /-- `DERR` (R33). -/
  derr : BitVec 4
  /-- The model's own: the number of resets before this one; selects the free values of Config (log 2). -/
  era : Nat
  /-- The model's own: what the host has yet to give, in order; a step takes the first (R68, R70, log 3). -/
  pending : List HostInput
  /-- The model's own: the responses since reset, oldest first: all a host can observe (R9, log 4). -/
  resps : List Resp
deriving DecidableEq, Repr

/-- The state after reset (R39, spec/70_reset_and_hazards.md R270). -/
def State.reset : State where
  freq := []
  node := []
  pq := []
  pqn := Config.resetIndex
  code := []
  root := Config.resetIndex
  cur := Config.resetIndex
  nleaf := 0
  ts := .none
  cs := false
  dst := .idle
  derr := 0
  era := 0
  pending := []
  resps := []

end Sys2Proof.Machine
end

