-- ==== Sys2Proof/Machine/Flags.lean ====
section
/-! DEFINITION. The status fields, their codes and the `STATUS` word (spec/10_state.md R30 to R35, R38), the result codes
(spec/30_encoding.md R91) and the packed response (R90). The engine has no other flags (R35). -/

namespace Sys2Proof.Machine

/-- The value column of R30. -/
def tsCode : TreeState → BitVec 2
  | .none => 0
  | .empty => 1
  | .single => 2
  | .multi => 3

/-- The value column of R32. -/
def dstCode : DecState → BitVec 2
  | .idle => 0
  | .run => 1
  | .done => 2
  | .halt => 3

/-- The numbers of R91 and R241. -/
def rcCode : ResultCode → BitVec 4
  | .ok => 0
  | .malformedHeader => 1
  | .unknownSymbol => 2
  | .invalidBit => 3
  | .truncatedStream => 4
  | .emptyTree => 5
  | .badSequence => 6
  | .illegalCommand => 7

/-- `STATUS` (R34, R114): `{0[6:0], NLEAF[8:0], 0[3:0], DERR[3:0], 0[1:0], DST[1:0], 0, CS, TS[1:0]}`. -/
def statusWord (s : State) : BitVec 32 :=
  0#7 ++ s.nleaf ++ 0#4 ++ s.derr ++ 0#2 ++ dstCode s.dst ++ 0#1 ++ BitVec.ofBool s.cs ++ tsCode s.ts

/-- A response packed as `{rc, emit, sym, n, len, code}`, 308 bits (R90). -/
def respBits (r : Resp) : BitVec 308 :=
  rcCode r.rc ++ BitVec.ofBool r.emit ++ r.sym ++ r.n ++ r.len ++ r.code

/-- `invalidate()` (R38): `TS <- NONE; CS <- 0; DST <- IDLE; DERR <- 0; NLEAF <- 0`. -/
def invalidate (s : State) : State :=
  { s with ts := .none, cs := false, dst := .idle, derr := 0, nleaf := 0 }

/-- What BUILD does first (R140): `CS <- 0; DST <- IDLE; DERR <- 0`. -/
def dropDerived (s : State) : State :=
  { s with cs := false, dst := .idle, derr := 0 }

/-- The decoder moves to `d` with no error latched (R33: `DERR` is 0 whenever `DST ≠ HALT`). -/
def setDecoder (d : DecState) (s : State) : State :=
  { s with dst := d, derr := 0 }

/-- The decoder halts on the error `e` (R32, R33, R250): `DST <- HALT; DERR <- code(e)`. -/
def haltDecoder (e : ResultCode) (s : State) : State :=
  { s with dst := .halt, derr := rcCode e }

end Sys2Proof.Machine
end

