-- ==== Sys2Proof/Machine/Operands.lean ====
section
/-! DEFINITION. Operand forms: the symbol, the count and the token (spec/30_encoding.md R83), and the packed layouts of the node and
code records (spec/10_state.md R22, R25). -/

namespace Sys2Proof.Machine

/-- A symbol operand selects an entry of `FREQ` or `CODE` as it stands (R83). -/
def symKey (sym : Sym8) : Nat := sym.toNat

/-- A node index selects an entry of `NODE` (R23). -/
def idxKey (i : Idx) : Nat := i.toNat

/-- A count becomes a weight by zero extension to 40 bits (R83, R134). -/
def zext40 (cnt : Count) : Weight := cnt.setWidth 40

/-- The bit a payload token stands for (R214): `0x30` is 0, `0x31` is 1, no other value is a bit. -/
def tokenBit (tok : BitVec 8) : Option Bool :=
  if tok = Config.tok0 then some false
  else if tok = Config.tok1 then some true
  else none

/-- The 68 bits of a node record (R22). -/
def nodeBits (n : Node) : BitVec 68 :=
  BitVec.ofBool n.lv ++ BitVec.ofBool n.rv ++ n.l ++ n.r ++ n.rs ++ n.w

/-- The node record of 68 bits (R22). -/
def nodeOfBits (b : BitVec 68) : Node where
  lv := b.getLsbD 67
  rv := b.getLsbD 66
  l := b.extractLsb' 57 9
  r := b.extractLsb' 48 9
  rs := b.extractLsb' 40 8
  w := b.extractLsb' 0 40

/-- The 264 bits of a code record (R25). -/
def codeEntryBits (e : CodeEntry) : BitVec 264 :=
  BitVec.ofBool e.v ++ e.len ++ e.bits

/-- The code record of 264 bits (R25). -/
def codeEntryOfBits (b : BitVec 264) : CodeEntry where
  v := b.getLsbD 263
  len := b.extractLsb' 255 8
  bits := b.extractLsb' 0 255

end Sys2Proof.Machine
end

