-- ==== Sys2Proof/Machine/Ops.lean ====
section
/-! DEFINITION. The shared operations: the memories (spec/20_memory.md R60, R65), answering a command (spec/30_encoding.md R90), raising
an error (spec/60_exceptions.md R240, R251), reset (spec/70_reset_and_hazards.md R270) and the host port (R68, R70). -/

namespace Sys2Proof.Machine

/-! ### Memories -/

/-- The value listed at index `k`, if one is. -/
def memLookup {α : Type} : Memory α → Nat → Option α
  | [], _ => none
  | (j, v) :: m, k => if j = k then some v else memLookup m k

/-- List the value `v` at index `k`, in the place that keeps the indices rising. -/
def memInsert {α : Type} (k : Nat) (v : α) : Memory α → Memory α
  | [] => [(k, v)]
  | (j, u) :: m =>
    if k < j then (k, v) :: (j, u) :: m
    else if k = j then (k, v) :: m
    else (j, u) :: memInsert k v m

/-- List nothing at index `k`. -/
def memErase {α : Type} (k : Nat) (m : Memory α) : Memory α := m.filter fun c => c.1 != k

/-- The canonical form of a memory of `size` entries: indices strictly rising and below `size`, and no entry equal to the value
`dflt` that an unlisted index holds (`none` where that value is unspecified). -/
abbrev Memory.wf {α : Type} (size : Nat) (dflt : Option α) (m : Memory α) : Prop :=
  m.Pairwise (fun a b => a.1 < b.1) ∧ ∀ c ∈ m, c.1 < size ∧ some c.2 ≠ dflt

/-- The count in entry `k` of a frequency table: 0 where nothing is listed (R39). -/
def countAt (f : Memory Count) (k : Nat) : Count := (memLookup f k).getD 0

/-- `MemRead(FREQ, sym)` (R21). -/
def readFreq (s : State) (sym : Sym8) : Count := countAt s.freq (symKey sym)

/-- `FREQ` with `cnt` in entry `k`: a zero count is not listed. -/
def setCount (k : Nat) (cnt : Count) (f : Memory Count) : Memory Count :=
  if cnt = 0 then memErase k f else memInsert k cnt f

/-- `MemWrite(FREQ, sym, cnt)` (R21, R65). -/
def writeFreq (sym : Sym8) (cnt : Count) (s : State) : State :=
  { s with freq := setCount (symKey sym) cnt s.freq }

/-- `FREQ[s] <- 0` for every `s` (R111). -/
def clearFreq (s : State) : State := { s with freq := [] }

/-- Entry `i` of a node memory; `none` for index 511, which names no entry (R22, log 5). An entry nothing has written holds
a free value (R39, log 2). -/
def nodeEntry (era : Nat) (m : Memory Node) (i : Idx) : Option Node :=
  if idxKey i < Config.nnode then
    some ((memLookup m (idxKey i)).getD (nodeOfBits (Config.freeNodeBits era (idxKey i))))
  else none

/-- `MemRead(NODE, i)` (R22). -/
def readNode (s : State) (i : Idx) : Option Node := nodeEntry s.era s.node i

/-- `isLeaf`: both children absent (R28, R282). -/
def isLeaf (n : Node) : Bool := !n.lv && !n.rv

/-- `MemRead(CODE, sym)` (R25). An entry nothing has written holds a free value (R39, log 2). -/
def readCode (s : State) (sym : Sym8) : CodeEntry :=
  (memLookup s.code (symKey sym)).getD (codeEntryOfBits (Config.freeCodeBits s.era (symKey sym)))

/-- `MemRead(PQ, p)` (R24). A position not in use holds a free value (R39, U2, log 2). -/
def readPq (s : State) (p : Nat) : Idx := (memLookup s.pq p).getD (Config.freePqBits s.era p)

/-! ### Answers and errors -/

/-- The command ends with the response `r` (R12, R90). -/
def respond (r : Resp) (s : State) : State := { s with resps := s.resps ++ [r] }

/-- The command ends well: the next state is `s` with the response `r` given. -/
def answer (r : Resp) (s : State) : Host.Outcome State Fault Refusal := .next (respond r s)

/-- `raise e` (R12, R240, R251): the one way an error is taken. The response is `{rc = code(e)}`, every other field zero (R92);
nothing is saved, no mode changes and control goes nowhere. The state is `s`: what the rule wrote before the `raise`. -/
def raise (e : ResultCode) (s : State) : Host.Outcome State Fault Refusal := answer { rc := e } s

/-- A decoder error (R244, R245, R250): `DST <- HALT; DERR <- code(e); raise e`. -/
def raiseHalt (e : ResultCode) (s : State) : Host.Outcome State Fault Refusal := raise e (haltDecoder e s)

/-- The answer to an illegal word (R87, R248): `raise IllegalCommand`, no state changed. -/
def illegalCommand (s : State) : Host.Outcome State Fault Refusal := raise .illegalCommand s

/-! ### Host port and reset -/

/-- The host is to give `x` next. -/
def pushInput (x : HostInput) (s : State) : State := { s with pending := x :: s.pending }

/-- What the host gives next, and the state with it taken (R68). -/
def takeInput (s : State) : Option (HostInput × State) :=
  match s.pending with
  | [] => none
  | x :: rest => some (x, { s with pending := rest })

/-- The reset input is asserted (R39, R270): the reset state, with no response. What the host has yet to give stays, the
observation starts anew (R9), and the unspecified contents are new ones (log 2). -/
def assertReset (s : State) : State := { State.reset with era := s.era + 1, pending := s.pending }

end Sys2Proof.Machine
end

