-- ==== Sys2Proof/Machine/Builder.lean ====
section
/-! DEFINITION. The tree builder and BUILD (spec/41_tree_builder.md R130 to R140). The working collection holds each node's index with the
record BUILD wrote at it (R24, R142, log 7). -/

namespace Sys2Proof.Machine

/-- `comesBefore(a, b)` (R131): less weight, or equal weight and a smaller representative symbol. -/
def comesBefore (a b : Node) : Bool :=
  decide (a.w < b.w) || (decide (a.w = b.w) && decide (a.rs < b.rs))

/-- A node of the working collection: its index and its record. -/
abbrev Item := Idx × Node

/-- The leaf of symbol `sym` with count `cnt` (R134). -/
def leafNode (sym : Sym8) (cnt : Count) : Node :=
  { lv := false, rv := false, l := 0, r := 0, rs := sym, w := zext40 cnt }

/-- The smaller of two symbols. -/
def minSym (a b : Sym8) : Sym8 := if a < b then a else b

/-- The node that merges `a`, the lowest, and `b`, the second lowest (R136): `a` becomes the left child. -/
def mergeNode (a b : Item) : Node :=
  { lv := true, rv := true, l := a.1, r := b.1, rs := minSym a.2.rs b.2.rs, w := a.2.w + b.2.w }

/-- `insert(i)` (R140): the place in the working collection that keeps it sorted by `comesBefore` (R135). -/
def insertItem (x : Item) : List Item → List Item
  | [] => [x]
  | y :: q => if comesBefore x.2 y.2 then x :: y :: q else y :: insertItem x q

/-- Step 1 (R134): one leaf at index `s` for each symbol `s` with a nonzero count, in symbol order. -/
def builtLeaves (f : Memory Count) : List Item :=
  (List.range Config.nsym).filterMap fun k =>
    if countAt f k = 0 then none else some (BitVec.ofNat 9 k, leafNode (BitVec.ofNat 8 k) (countAt f k))

/-- Step 2 (R135): the leaves in the order of `comesBefore`. -/
def orderItems (xs : List Item) : List Item := xs.foldl (fun q x => insertItem x q) []

/-- Step 3 (R136): the merges, from merge number `k` on, at most `fuel` of them. The nodes made, in the order of the merges, and what
is left of the working collection. -/
def mergeLoop : (fuel : Nat) → (k : Nat) → List Item → List Item × List Item
  | fuel + 1, k, a :: b :: q =>
    let x : Item := (BitVec.ofNat 9 (256 + k), mergeNode a b)
    let rest := mergeLoop fuel (k + 1) (insertItem x q)
    (x :: rest.1, rest.2)
  | _, _, q => ([], q)

/-- The merges of a whole build: each takes two nodes out and puts one in, so as many as there are leaves always suffice (R137). -/
def mergeRun (f : Memory Count) : List Item × List Item :=
  mergeLoop (builtLeaves f).length 0 (orderItems (builtLeaves f))

/-- The entries of `NODE` a build allocates (R23): the leaves, then the merged nodes. -/
def builtItems (f : Memory Count) : List Item := builtLeaves f ++ (mergeRun f).1

/-- The root a build leaves: the one node left in the working collection, none for a table of zeros (R137, R138). -/
def builtRoot (f : Memory Count) : Option Idx := (mergeRun f).2.head?.map Prod.fst

/-- `MemWrite(NODE, i, record)` for each of the items; the other entries keep what they held (R23). -/
def writeItems (xs : List Item) (m : Memory Node) : Memory Node :=
  xs.foldl (fun m x => memInsert (idxKey x.1) x.2 m) m

/-- The tree state of a build of `n` leaves (R30, R138). -/
def builtTs (n : Nat) : TreeState := if n = 0 then .empty else if n = 1 then .single else .multi

/-- `BUILD` (R140). After it `PQN` is 1 and `PQ[0]` the root, or 0 for an empty table (R24). -/
def execBuild (s : State) : Host.Outcome State Fault Refusal :=
  let n := (builtLeaves s.freq).length
  let s' := { dropDerived s with nleaf := BitVec.ofNat 9 n, ts := builtTs n }
  match builtRoot s.freq with
  | none => answer {} { s' with pqn := 0 }
  | some root => answer {} { s' with node := writeItems (builtItems s.freq) s.node, pq := [(0, root)], pqn := 1, root := root }

end Sys2Proof.Machine
end

