-- ==== Sys2Proof/Machine/CodeTable.lean ====
section
/-! DEFINITION. The abstract tree (spec/10_state.md R29), the code-table generator GEN and its lookup port LKUP
(spec/42_code_table.md R160 to R163). -/

namespace Sys2Proof.Machine

/-- The source's TreeNode (R14, R29). -/
inductive CodeTree
  | leaf (symbol : Sym8) (weight : Weight)
  | internal (weight : Weight) (left right : CodeTree)
deriving DecidableEq, Repr

/-- `Tree(i)` (R29), read from a node memory, at most `fuel` branches deep. -/
def treeFrom (era : Nat) (m : Memory Node) : (fuel : Nat) → Idx → Except Fault CodeTree
  | 0, i =>
    match nodeEntry era m i with
    | none => .error .noSuchNode
    | some n => if isLeaf n then .ok (.leaf n.rs n.w) else .error .codeTooLong
  | fuel + 1, i =>
    match nodeEntry era m i with
    | none => .error .noSuchNode
    | some n =>
      if isLeaf n then .ok (.leaf n.rs n.w)
      else
        match treeFrom era m fuel n.l, treeFrom era m fuel n.r with
        | .ok left, .ok right => .ok (.internal n.w left right)
        | .error e, _ => .error e
        | .ok _, .error e => .error e

/-- The tree at index `i` of the engine, at most `LMAX` branches deep (R29, R166). -/
def treeAt (s : State) (i : Idx) : Except Fault CodeTree := treeFrom s.era s.node Config.lmax i

/-- `codes(t, p)` (R160): bit 0 (`false`) for each step to a left child, bit 1 (`true`) for each step to a right child. -/
def codes : CodeTree → List Bool → List (Sym8 × List Bool)
  | .leaf sym _, p => [(sym, p)]
  | .internal _ left right, p => codes left (p ++ [false]) ++ codes right (p ++ [true])

/-- `deriveCodes(root)` (R160). -/
def deriveCodes (t : CodeTree) : List (Sym8 × List Bool) := codes t []

/-- The traversal with an explicit stack of R162, at most `fuel` pops: the symbols and paths in the order the leaves are popped;
`none` when nodes are left or an index names no entry. -/
def stackCodes (s : State) : (fuel : Nat) → List (Idx × List Bool) → Option (List (Sym8 × List Bool))
  | _, [] => some []
  | 0, _ :: _ => none
  | fuel + 1, (i, p) :: stack =>
    match readNode s i with
    | none => none
    | some n =>
      if isLeaf n then (stackCodes s fuel stack).map (fun cs => (n.rs, p) :: cs)
      else stackCodes s fuel ((n.l, p ++ [false]) :: (n.r, p ++ [true]) :: stack)

/-- The number whose bit `i` is the i-th element. -/
def natOfBits : List Bool → Nat
  | [] => 0
  | b :: p => b.toNat + 2 * natOfBits p

/-- `pack(c)` (R161): `pack(c)[i] = c[i]` for `i < |c|`, else 0. -/
def packBits (p : List Bool) : CodeBits := BitVec.ofNat 255 (natOfBits p)

/-- The entry of a symbol with the code `p` (R161). -/
def presentEntry (p : List Bool) : CodeEntry := { v := true, len := BitVec.ofNat 8 p.length, bits := packBits p }

/-- The entry of a symbol with no code (R161). -/
def absentEntry : CodeEntry := { v := false, len := 0, bits := 0 }

/-- All 256 entries absent (R161). -/
def clearedTable : Memory CodeEntry := (List.range Config.nsym).map fun k => (k, absentEntry)

/-- The table GEN writes for a list of codes (R161): every entry absent, then one entry for each code. -/
def codeTable (cs : List (Sym8 × List Bool)) : Memory CodeEntry :=
  cs.foldl (fun m c => memInsert (symKey c.1) (presentEntry c.2) m) clearedTable

/-- `GEN` (R161, R165). -/
def execGen (s : State) : Host.Outcome State Fault Refusal :=
  match s.ts with
  | .none => raise .badSequence s
  | .empty => answer {} { s with code := codeTable [], cs := true }
  | .single | .multi =>
    match treeAt s s.root with
    | .error e => .fault e
    | .ok t => answer {} { s with code := codeTable (deriveCodes t), cs := true }

/-- `LKUP sym` (R163). -/
def execLkup (sym : Sym8) (s : State) : Host.Outcome State Fault Refusal :=
  if s.cs then
    let e := readCode s sym
    if e.v then answer { len := e.len, code := e.bits } s else raise .unknownSymbol s
  else raise .badSequence s

end Sys2Proof.Machine
end

