-- ==== Sys2Proof/Machine/Decoder.lean ====
section
/-! DEFINITION. The bit-serial decoder DSTART, DBIT, DEND (spec/44_decoder.md R210 to R217). -/

namespace Sys2Proof.Machine

/-- The child of a node the payload bit selects (R212): 0 the left, 1 the right. -/
def childOf (n : Node) (bit : Bool) : Idx := if bit then n.r else n.l

/-- `DSTART` (R211, R215, R216). -/
def execDstart (s : State) : Host.Outcome State Fault Refusal :=
  match s.ts with
  | .none => raise .badSequence s
  | .empty => raise .emptyTree (setDecoder .idle s)
  | .single =>
    match readNode s s.root with
    | none => .fault .noSuchNode
    | some n => answer { emit := true, sym := n.rs, n := n.w.extractLsb' 0 32 } (setDecoder .done s)
  | .multi => answer {} (setDecoder .run { s with cur := s.root })

/-- The move of a good token (R212): one branch down; at a leaf the symbol is emitted and the decoder is back at the root. -/
def walkBit (bit : Bool) (s : State) : Host.Outcome State Fault Refusal :=
  match readNode s s.cur with
  | none => .fault .noSuchNode
  | some n =>
    match readNode s (childOf n bit) with
    | none => .fault .noSuchNode
    | some c =>
      if isLeaf c then answer { emit := true, sym := c.rs, n := 1 } { s with cur := s.root }
      else answer {} { s with cur := childOf n bit }

/-- `DBIT tok` (R212, R214). -/
def execDbit (tok : BitVec 8) (s : State) : Host.Outcome State Fault Refusal :=
  if s.dst = .run then
    match tokenBit tok with
    | none => raiseHalt .invalidBit s
    | some bit => walkBit bit s
  else raise .badSequence s

/-- `DEND` (R213). -/
def execDend (s : State) : Host.Outcome State Fault Refusal :=
  match s.dst with
  | .idle | .halt => raise .badSequence s
  | .done => answer {} { s with dst := .idle }
  | .run => if s.cur = s.root then answer {} { s with dst := .idle } else raiseHalt .truncatedStream s

end Sys2Proof.Machine
end

