-- ==== Sys2Proof/Machine/Table.lean ====
section
/-! DEFINITION. The table and status commands CLR, LDF, RDF, RDS (spec/40_table_commands.md R111 to R114). -/

namespace Sys2Proof.Machine

/-- `CLR` (R111). -/
def execClr (s : State) : Host.Outcome State Fault Refusal := answer {} (invalidate (clearFreq s))

/-- `LDF sym, cnt` (R112). -/
def execLdf (sym : Sym8) (cnt : Count) (s : State) : Host.Outcome State Fault Refusal :=
  answer {} (invalidate (writeFreq sym cnt s))

/-- `RDF sym` (R113). -/
def execRdf (sym : Sym8) (s : State) : Host.Outcome State Fault Refusal := answer { n := readFreq s sym } s

/-- `RDS` (R114). -/
def execRds (s : State) : Host.Outcome State Fault Refusal := answer { n := statusWord s } s

end Sys2Proof.Machine
end

