-- ==== Sys2Proof/Machine/Dispatch.lean ====
section
/-! DEFINITION. Every command and its meaning (spec/30_encoding.md R84). -/

namespace Sys2Proof.Machine

def exec (i : Instr) (s : State) : Host.Outcome State Fault Refusal :=
  match i with
  | .clr => Sys2Proof.Machine.execClr s
  | .ldf sym cnt => Sys2Proof.Machine.execLdf sym cnt s
  | .rdf sym => Sys2Proof.Machine.execRdf sym s
  | .rds => Sys2Proof.Machine.execRds s
  | .build => Sys2Proof.Machine.execBuild s
  | .gen => Sys2Proof.Machine.execGen s
  | .lkup sym => Sys2Proof.Machine.execLkup sym s
  | .dstart => Sys2Proof.Machine.execDstart s
  | .dbit tok => Sys2Proof.Machine.execDbit tok s
  | .dend => Sys2Proof.Machine.execDend s

end Sys2Proof.Machine
end

