-- ==== Sys2Proof/Machine/Step.lean ====
section
/-! DEFINITION. One step of the machine: the engine takes what the host gives next (spec/20_memory.md R68, spec/00_scope.md R7). -/

namespace Sys2Proof.Machine

/-- One step. With nothing pending the engine holds its state (spec/60_exceptions.md R255). A legal word runs its command, an illegal one
is answered `IllegalCommand` (spec/30_encoding.md R87, R88). -/
def step (s : State) : Host.Outcome State Fault Refusal :=
  match takeInput s with
  | none => .next s
  | some (.reset, s') => .next (assertReset s')
  | some (.command w, s') =>
    match decode w with
    | .ok i => exec i s'
    | .error _ => illegalCommand s'

/-- `s` with the host to give, next, the command word whose low `nbits` bits are those of `w` (log 3). -/
def State.withFetchWord (s : State) (nbits w : Nat) : State := pushInput (.command (commandWord nbits w)) s

end Sys2Proof.Machine
end

