-- ==== Sys2Proof/Machine/HostSide.lean ====
section
/-! DEFINITION. The host reference functions of spec/43_host_functions.md (R180 to R195), the pseudo-commands of spec/30_encoding.md R95,
and the decoder as a function of the whole payload (spec/44_decoder.md R218). They own no hardware state (spec/00_scope.md R4);
a host drives the engine through `step` alone. -/

namespace Sys2Proof.Machine

/-- How a host's job ends without its result: `MalformedHeader` (R184); a count the engine cannot hold (R190); an error response of
the engine (R186, R189); the machine stopped, or gave no response. -/
inductive HostError
  | malformedHeader
  | countTooLarge
  | engine (rc : ResultCode)
  | stopped
deriving DecidableEq, Repr

/-! ### Frequency scan and header codec -/

/-- `freq(b)` (R180): how often each symbol occurs. -/
def freqScan (b : List Sym8) (sym : Sym8) : Nat := b.count sym

/-- `header(f)` (R181): the pairs of every symbol with a nonzero count, in ascending symbol order. -/
def headerOf (f : Sym8 → Nat) : List (Sym8 × Nat) :=
  (List.range Config.nsym).filterMap fun k =>
    if f (BitVec.ofNat 8 k) = 0 then none else some (BitVec.ofNat 8 k, f (BitVec.ofNat 8 k))

/-- The character of a decimal digit. -/
def digitChar (d : Nat) : Char := Char.ofNat (48 + d)

/-- The decimal digits of `n` before `acc`, at most `fuel` of them. -/
def decimalAux : (fuel : Nat) → Nat → List Char → List Char
  | 0, _, acc => acc
  | fuel + 1, n, acc =>
    if n < 10 then digitChar n :: acc else decimalAux fuel (n / 10) (digitChar (n % 10) :: acc)

/-- A decimal integer (R182). -/
def decimal (n : Nat) : List Char := decimalAux (n + 1) n []

/-- The header as text (R182): decimal integers separated by single spaces, nothing after the last. -/
def headerText (h : List (Sym8 × Nat)) : List Char :=
  List.intercalate [' '] (h.flatMap fun p => [decimal p.1.toNat, decimal p.2])

/-- The pieces of a text between its space characters. -/
def splitSpaces : List Char → List (List Char)
  | [] => [[]]
  | c :: cs =>
    if c = ' ' then [] :: splitSpaces cs
    else
      match splitSpaces cs with
      | [] => [[c]]
      | t :: ts => (c :: t) :: ts

/-- The tokens of a header (R183). DESIGN CHOICE (log 11): one or more spaces separate two tokens. -/
def headerTokens (text : List Char) : List (List Char) := (splitSpaces text).filter (fun t => !t.isEmpty)

/-- The value of a decimal digit. -/
def digitValue (c : Char) : Option Nat := if 48 ≤ c.toNat ∧ c.toNat ≤ 57 then some (c.toNat - 48) else none

/-- The number `acc` goes on with the digits of a text. -/
def parseDigits : Nat → List Char → Option Nat
  | acc, [] => some acc
  | acc, c :: cs =>
    match digitValue c with
    | none => none
    | some d => parseDigits (10 * acc + d) cs

/-- A token as a non-negative integer (R184). DESIGN CHOICE (log 11): digits only, leading zeros accepted. -/
def parseNumber (t : List Char) : Option Nat := if t.isEmpty then none else parseDigits 0 t

/-- All tokens as numbers, or none if one is not a non-negative integer (R184). -/
def parseNumbers : List (List Char) → Option (List Nat)
  | [] => some []
  | t :: ts =>
    match parseNumber t, parseNumbers ts with
    | some n, some ns => some (n :: ns)
    | _, _ => none

/-- Numbers as (symbol, count) pairs (R183): `MalformedHeader` for an odd number of them or a symbol outside [0,255] (R184). -/
def pairUp : List Nat → Except HostError (List (Sym8 × Nat))
  | [] => .ok []
  | [_] => .error .malformedHeader
  | sym :: cnt :: rest =>
    if sym < Config.nsym then
      match pairUp rest with
      | .ok ps => .ok ((BitVec.ofNat 8 sym, cnt) :: ps)
      | .error e => .error e
    else .error .malformedHeader

/-- `parseHeader(text)` (R183, R184): the pairs in the order of the text. -/
def parseHeader (text : List Char) : Except HostError (List (Sym8 × Nat)) :=
  match parseNumbers (headerTokens text) with
  | none => .error .malformedHeader
  | some ns => pairUp ns

/-- The table a list of pairs stands for (R183, R194): zero where a symbol is not mentioned, the later pair wins. -/
def tableOf (h : List (Sym8 × Nat)) : Sym8 → Nat :=
  h.foldl (fun f p => fun sym => if sym = p.1 then p.2 else f sym) (fun _ => 0)

/-! ### Pseudo-commands (R95) -/

/-- `LOADHDR` (R95): `CLR`, then one `LDF` per pair in the order of the text; the host refuses the job when a count is 2^32 or more
(R190). -/
def loadHeader (h : List (Sym8 × Nat)) : Except HostError (List Instr) :=
  if h.all (fun p => decide (p.2 < 2 ^ 32)) then
    .ok (.clr :: h.map fun p => .ldf p.1 (BitVec.ofNat 32 p.2))
  else .error .countTooLarge

/-- The token of a payload bit, `0x30 + x` (R187). -/
def tokenOf (bit : Bool) : BitVec 8 := if bit then Config.tok1 else Config.tok0

/-- `DBITS` (R95), for a sequence of tokens. -/
def feedTokens (toks : List (BitVec 8)) : List Instr := toks.map Instr.dbit

/-- `DECODE` (R95). -/
def decodeCommands (toks : List (BitVec 8)) : List Instr := .dstart :: (feedTokens toks ++ [.dend])

/-- `CODEBOOK` (R95): `GEN`, then `LKUP s` for every symbol in order. -/
def codebook : List Instr := .gen :: (List.range Config.nsym).map fun k => .lkup (BitVec.ofNat 8 k)

/-! ### Driving the engine -/

/-- The host issues one command and takes its response (R70). -/
def issue (i : Instr) (s : State) : Option (Resp × State) :=
  match step (pushInput (.command (encode i)) s) with
  | .next s' => s'.resps.getLast?.map (fun r => (r, s'))
  | .fault _ => none
  | .refused _ => none

/-- The host issues the commands of an expansion (R95). It stops at the first response with `rc ≠ 0`, but goes on where `past` holds of
the result code. The responses, the code it stopped at (`OK` at the end of the commands), and the state; none when the machine
stopped. -/
def runExpansion (past : ResultCode → Bool) : List Instr → State → Option (List Resp × ResultCode × State)
  | [], s => some ([], .ok, s)
  | i :: is, s =>
    match issue i s with
    | none => none
    | some (r, s') =>
      if r.rc = .ok ∨ past r.rc = true then
        match runExpansion past is s' with
        | none => none
        | some (rs, rc, s'') => some (r :: rs, rc, s'')
      else some ([r], r.rc, s')

/-- The host issues commands up to the first response with `rc ≠ 0` (R95, R189). -/
def runUntilError (is : List Instr) (s : State) : Option (List Resp × ResultCode × State) :=
  runExpansion (fun _ => false) is s

/-- `CODEBOOK` goes on past `UnknownSymbol`: that is how it finds which symbols have no code (R95). -/
def runCodebook (s : State) : Option (List Resp × ResultCode × State) :=
  runExpansion (fun rc => decide (rc = .unknownSymbol)) codebook s

/-- The decoded output of a sequence of responses (R9): `n` copies of `sym` for each emission. -/
def decodedOutput (rs : List Resp) : List Sym8 :=
  rs.flatMap fun r => if r.emit then List.replicate r.n.toNat r.sym else []

/-- The code string of a `LKUP` response (R185): `code[0]`, …, `code[len-1]`. -/
def codeString (r : Resp) : List Bool := (List.range r.len.toNat).map fun i => r.code.getLsbD i

/-! ### Encoder and whole-file contracts -/

/-- The code of a symbol in a list of codes. -/
def codeOf (cs : List (Sym8 × List Bool)) (sym : Sym8) : Option (List Bool) :=
  (cs.find? fun c => c.1 == sym).map Prod.snd

/-- `encode(b, T)` (R185, R186): the concatenation of the codes; `UnknownSymbol` when a lookup finds no entry. -/
def encodePayload (code : Sym8 → Option (List Bool)) : List Sym8 → Except HostError (List Bool)
  | [] => .ok []
  | x :: b =>
    match code x with
    | none => .error (.engine .unknownSymbol)
    | some c =>
      match encodePayload code b with
      | .ok p => .ok (c ++ p)
      | .error e => .error e

/-- The encoder with the engine's table (R185): one `LKUP` per byte, the codes appended in order. -/
def lookupPayload : List Sym8 → State → Except HostError (List Bool)
  | [], _ => .ok []
  | x :: b, s =>
    match issue (.lkup x) s with
    | none => .error .stopped
    | some (r, s') =>
      if r.rc = .ok then
        match lookupPayload b s' with
        | .ok p => .ok (codeString r ++ p)
        | .error e => .error e
      else .error (.engine r.rc)

/-- Encoding a byte sequence with the engine (R188): the header and the payload bits. -/
def encodeFile (b : List Sym8) (s : State) : Except HostError (List Char × List Bool) :=
  match loadHeader (headerOf (freqScan b)) with
  | .error e => .error e
  | .ok load =>
    match runUntilError (load ++ [.build, .gen]) s with
    | none => .error .stopped
    | some (_, rc, s') =>
      if rc = .ok then
        match lookupPayload b s' with
        | .ok p => .ok (headerText (headerOf (freqScan b)), p)
        | .error e => .error e
      else .error (.engine rc)

/-- Decoding a header text and a payload with the engine (R189): the output, or the first error; `EmptyTree` on an empty header is
the expected end of an empty file, with empty output. A header of pairs that are all zero is not empty: its `EmptyTree` is reported
(log 11). -/
def decodeFile (text : List Char) (toks : List (BitVec 8)) (s : State) : Except HostError (List Sym8) :=
  match parseHeader text with
  | .error e => .error e
  | .ok h =>
    match loadHeader h with
    | .error e => .error e
    | .ok load =>
      match runUntilError (load ++ .build :: decodeCommands toks) s with
      | none => .error .stopped
      | some (rs, rc, _) =>
        match rc with
        | .ok => .ok (decodedOutput rs)
        | .emptyTree => if h.isEmpty then .ok [] else .error (.engine .emptyTree)
        | e => .error (.engine e)

/-! ### The file (R182, R187, spec/90_conflicts.md C4) -/

/-- PRESUMED (log 18). The byte that ends a line of text. -/
def newlineByte : Sym8 := 0x0A

/-- The bytes of a text of byte characters. -/
def textBytes (text : List Char) : List Sym8 := text.map fun c => BitVec.ofNat 8 c.toNat

/-- The text that bytes stand for. -/
def bytesText (bs : List Sym8) : List Char := bs.map fun x => Char.ofNat x.toNat

/-- The header line of a file (R182): the header string, and the newline written after it. -/
def headerLine (text : List Char) : List Sym8 := textBytes text ++ [newlineByte]

/-- A file's header line, its newline removed before parsing (C4), and what follows it. DESIGN CHOICE (log 18): a file with no newline
is a header line alone. -/
def splitLine : List Sym8 → List Sym8 × List Sym8
  | [] => ([], [])
  | x :: bs => if x = newlineByte then ([], bs) else (x :: (splitLine bs).1, (splitLine bs).2)

/-- Encoding a byte sequence to the bytes of a file (R182, R187, R188): the header line, then one token for each payload bit. -/
def encodeToFile (b : List Sym8) (s : State) : Except HostError (List Sym8) :=
  match encodeFile b s with
  | .ok (text, p) => .ok (headerLine text ++ p.map tokenOf)
  | .error e => .error e

/-- Decoding the bytes of a file (R182, R187, R189): each byte after the header line is passed to `DBIT` unchanged. -/
def decodeFromFile (file : List Sym8) (s : State) : Except HostError (List Sym8) :=
  decodeFile (bytesText (splitLine file).1) (splitLine file).2 s

/-- The header pairs a host reads from the engine (R181): `RDF 0` to `RDF 255`, keeping the nonzero counts. -/
def readHeader (s : State) : Option (List (Sym8 × Nat)) :=
  match runUntilError ((List.range Config.nsym).map fun k => .rdf (BitVec.ofNat 8 k)) s with
  | none => none
  | some (rs, _, _) => some (headerOf fun sym => ((rs[sym.toNat]?).map fun r => r.n.toNat).getD 0)

/-- `walk(cur, i, out)` of R218, on abstract trees: the output still to come and the result. The last case is a root with no branches,
which R218 does not ask about (it is the BadSequence of R212). -/
def walkTree (root : CodeTree) : CodeTree → List (BitVec 8) → List Sym8 × ResultCode
  | cur, [] => ([], if cur = root then .ok else .truncatedStream)
  | .internal _ left right, t :: ts =>
    match tokenBit t with
    | none => ([], .invalidBit)
    | some bit =>
      match if bit then right else left with
      | .leaf sym _ =>
        let rest := walkTree root root ts
        (sym :: rest.1, rest.2)
      | .internal w l r => walkTree root (.internal w l r) ts
  | .leaf _ _, _ :: _ => ([], .badSequence)

/-- `decodeMulti(r, t)` (R218). -/
def decodeMulti (root : CodeTree) (toks : List (BitVec 8)) : List Sym8 × ResultCode := walkTree root root toks

end Sys2Proof.Machine
end

