-- ==== Sys2Proof/Machine/Notation.lean ====
section
/-! DEFINITION. The command notation of spec/30_encoding.md R94 and the printed form of a command word (R96): a convention of the spec's
text. A host writes a command as a mnemonic in capitals and its operands, separated by a comma. -/

namespace Sys2Proof.Machine

/-- The mnemonic in capitals (R84, R94). -/
def mnemonicChars : Op → List Char
  | .clr => ['C', 'L', 'R']
  | .ldf => ['L', 'D', 'F']
  | .rdf => ['R', 'D', 'F']
  | .rds => ['R', 'D', 'S']
  | .build => ['B', 'U', 'I', 'L', 'D']
  | .gen => ['G', 'E', 'N']
  | .lkup => ['L', 'K', 'U', 'P']
  | .dstart => ['D', 'S', 'T', 'A', 'R', 'T']
  | .dbit => ['D', 'B', 'I', 'T']
  | .dend => ['D', 'E', 'N', 'D']

/-- A line without its comment (R94: `;` to the end of the line). DESIGN CHOICE (log 12): a `;` in quotes is a character literal. -/
def stripComment : List Char → List Char
  | '\'' :: c :: '\'' :: cs => '\'' :: c :: '\'' :: stripComment cs
  | ';' :: _ => []
  | c :: cs => c :: stripComment cs
  | [] => []

/-- The operands of a line: the text between commas. A comma in quotes is a character literal (log 12). -/
def splitCommas : List Char → List (List Char)
  | '\'' :: c :: '\'' :: cs =>
    match splitCommas cs with
    | [] => [['\'', c, '\'']]
    | t :: ts => ('\'' :: c :: '\'' :: t) :: ts
  | ',' :: cs => [] :: splitCommas cs
  | c :: cs =>
    match splitCommas cs with
    | [] => [[c]]
    | t :: ts => (c :: t) :: ts
  | [] => [[]]

/-- A text without the spaces at its ends. -/
def trimSpaces (t : List Char) : List Char :=
  ((t.dropWhile (· == ' ')).reverse.dropWhile (· == ' ')).reverse

/-- The value of a hexadecimal digit. -/
def hexValue (c : Char) : Option Nat :=
  if 48 ≤ c.toNat ∧ c.toNat ≤ 57 then some (c.toNat - 48)
  else if 65 ≤ c.toNat ∧ c.toNat ≤ 70 then some (c.toNat - 55)
  else if 97 ≤ c.toNat ∧ c.toNat ≤ 102 then some (c.toNat - 87)
  else none

/-- The number `acc` goes on with the hexadecimal digits of a text. -/
def parseHex : Nat → List Char → Option Nat
  | acc, [] => some acc
  | acc, c :: cs =>
    match hexValue c with
    | none => none
    | some d => parseHex (16 * acc + d) cs

/-- An operand (R94): `0x..`, a character literal in single quotes, or a decimal number. -/
def parseOperand : List Char → Option Nat
  | '0' :: 'x' :: d :: ds => parseHex 0 (d :: ds)
  | ['\'', c, '\''] => some c.toNat
  | t => parseNumber t

/-- All operands of a line, or none if one cannot be read. -/
def parseOperands : List (List Char) → Option (List Nat)
  | [] => some []
  | t :: ts =>
    match parseOperand (trimSpaces t), parseOperands ts with
    | some n, some ns => some (n :: ns)
    | _, _ => none

/-- A written line (R94): the mnemonic up to the first space, then the operands. -/
def parseLine (text : List Char) : Option Line :=
  let t := trimSpaces (stripComment text)
  let args := trimSpaces (t.dropWhile (· != ' '))
  match opcodeMap.find? (fun o => mnemonicChars o == t.takeWhile (· != ' ')) with
  | none => none
  | some o => (if args.isEmpty then some [] else parseOperands (splitCommas args)).map fun ns => ⟨o, ns⟩

/-- The command a written line stands for (R94). -/
def assembleText (text : List Char) : Option Instr :=
  match parseLine text with
  | none => none
  | some l => assemble l

/-- The character of a hexadecimal digit. -/
def hexChar (d : Nat) : Char := if d < 10 then Char.ofNat (48 + d) else Char.ofNat (55 + d)

/-- A command word as 12 hexadecimal digits, bit 47 first (R62, R96). -/
def printWord (w : CmdWord) : List Char := (List.range 12).map fun k => hexChar (w.toNat / 16 ^ (11 - k) % 16)

end Sys2Proof.Machine
end

