-- ==== Sys2Proof/Safety.lean ====
section
/-! DEFINITION. What holds at every command boundary, and what a safe step is, in the terms the statements use. -/

namespace Sys2Proof.Machine

/-- The number of symbols with a nonzero count (R26 `NLEAF`, R134). -/
abbrev leafCount (f : Memory Count) : Nat := (builtLeaves f).length

/-- The four memories have their canonical form (R21, R22, R24, R25). -/
abbrev MemoriesOk (s : State) : Prop :=
  Memory.wf Config.nsym (some 0) s.freq ∧ Memory.wf Config.nnode none s.node ∧
    Memory.wf 256 none s.pq ∧ Memory.wf Config.nsym none s.code

/-- The combinations of the status fields that can occur (R33, R34). -/
abbrev StatusOk (s : State) : Prop :=
  (s.cs = true → s.ts ≠ .none) ∧
  (s.dst ≠ .idle → s.ts ≠ .none) ∧
  (s.dst = .run → s.ts = .multi) ∧
  (s.dst = .done → s.ts = .single) ∧
  (s.dst = .halt → s.ts = .multi) ∧
  (s.derr = 0 ∨ s.derr = 3 ∨ s.derr = 4) ∧
  (s.derr ≠ 0 ↔ s.dst = .halt) ∧
  ((s.ts = .none ∨ s.ts = .empty) → s.nleaf = 0) ∧
  (s.ts = .single → s.nleaf = 1) ∧
  (s.ts = .multi → 2 ≤ s.nleaf.toNat) ∧
  s.nleaf.toNat ≤ 256

/-- The tree is the one built from the present contents of `FREQ` (R38, R71). -/
abbrev TreeOk (s : State) : Prop :=
  s.ts ≠ .none →
    s.ts = builtTs (leafCount s.freq) ∧ s.nleaf.toNat = leafCount s.freq ∧
    (s.ts ≠ .empty → builtRoot s.freq = some s.root ∧
      ∀ x ∈ builtItems s.freq, memLookup s.node (idxKey x.1) = some x.2)

/-- The codes GEN derives from the tree the engine holds (R160, R161): none for an empty tree. -/
def currentCodes (s : State) : Except Fault (List (Sym8 × List Bool)) :=
  match s.ts with
  | .none | .empty => .ok []
  | .single | .multi =>
    match treeAt s s.root with
    | .ok t => .ok (deriveCodes t)
    | .error e => .error e

/-- The code table is the one derived from the present tree (R31, R71). -/
abbrev CodeOk (s : State) : Prop :=
  s.cs = true → ∃ cs, currentCodes s = .ok cs ∧ s.code = codeTable cs

/-- While a decode runs `CUR` is an internal node of the tree (R212, R23: the internal nodes are 256 .. 256 + n - 2). -/
abbrev DecoderOk (s : State) : Prop :=
  s.dst = .run → 256 ≤ s.cur.toNat ∧ s.cur.toNat + 1 < 256 + s.nleaf.toNat

/-- What holds at every command boundary (R34, R36, R37, R38, R71, R212). -/
abbrev EngineOk (s : State) : Prop := MemoriesOk s ∧ StatusOk s ∧ TreeOk s ∧ CodeOk s ∧ DecoderOk s

/-- The machine goes on: the next step is neither a fault nor a refusal (R240: "The engine never stops accepting commands"). -/
def SafeStep (s : State) : Prop := ∃ t, step s = .next t

/-- The command's *Legal when* condition (R247): when it is false the command raises `BadSequence`. -/
def legalWhen : Instr → State → Bool
  | .gen, s => decide (s.ts ≠ .none)
  | .lkup _, s => s.cs
  | .dstart, s => decide (s.ts ≠ .none)
  | .dbit _, s => decide (s.dst = .run)
  | .dend, s => decide (s.dst = .run ∨ s.dst = .done)
  | .clr, _ => true
  | .ldf _ _, _ => true
  | .rdf _, _ => true
  | .rds, _ => true
  | .build, _ => true

/-- Every entry of the four memories reads the same in two states (no store). -/
def SameMemories (s t : State) : Prop :=
  (∀ sym, readFreq t sym = readFreq s sym) ∧ (∀ i, readNode t i = readNode s i) ∧
    (∀ p, readPq t p = readPq s p) ∧ (∀ sym, readCode t sym = readCode s sym)

/-- The working registers `ROOT`, `CUR`, `PQN` are the same in two states. -/
def SameRegisters (s t : State) : Prop := t.root = s.root ∧ t.cur = s.cur ∧ t.pqn = s.pqn

/-- The status fields `TS`, `CS`, `DST`, `DERR`, `NLEAF` are the same in two states. -/
def SameStatus (s t : State) : Prop :=
  t.ts = s.ts ∧ t.cs = s.cs ∧ t.dst = s.dst ∧ t.derr = s.derr ∧ t.nleaf = s.nleaf

/-- The command answered with the response `r`: one more response, no other input taken, no reset (R90). -/
def Answered (s t : State) (r : Resp) : Prop := t.resps = s.resps ++ [r] ∧ t.pending = s.pending ∧ t.era = s.era

/-! ### The terms of the statements about a built tree -/

/-- The number of symbols with a nonzero count: `n` of R134, R37. -/
def presentCount (s : State) : Nat := ((List.range Config.nsym).filter fun k => decide (countAt s.freq k ≠ 0)).length

/-- The sum of all 256 counts, as an integer (R37 item 6, R139). -/
def countSum (s : State) : Nat := ((List.range Config.nsym).map fun k => (countAt s.freq k).toNat).sum

/-- The index of the leaf of a symbol (R23). -/
def leafIdx (sym : Sym8) : Idx := sym.setWidth 9

/-- The index of the internal node made by merge `k` (R23). -/
def mergeIdx (k : Nat) : Idx := BitVec.ofNat 9 (256 + k)

/-- Index `i` was allocated before merge `k` of the build of the present table (R23): a leaf, or an earlier merge. -/
def AllocatedBefore (s : State) (k : Nat) (i : Idx) : Prop :=
  (∃ sym, readFreq s sym ≠ 0 ∧ i = leafIdx sym) ∨ ∃ j, j < k ∧ i = mergeIdx j

/-- Index `i` is allocated by the build of the present table (R23, R37): a leaf, or one of the n - 1 internal nodes. -/
def Allocated (s : State) (i : Idx) : Prop := AllocatedBefore s (presentCount s - 1) i

/-- Index `i` is in the working collection at merge `k` (R24, R136): allocated before it, and the child of no earlier merge. -/
def Unmerged (s : State) (k : Nat) (i : Idx) : Prop :=
  AllocatedBefore s k i ∧ ∀ j, j < k → ∀ n, readNode s (mergeIdx j) = some n → n.l ≠ i ∧ n.r ≠ i

/-- The symbol and weight of every leaf of a tree, left to right. -/
def treeLeaves : CodeTree → List (Sym8 × Weight)
  | .leaf sym w => [(sym, w)]
  | .internal _ left right => treeLeaves left ++ treeLeaves right

/-- The subtree a bit string leads to from the root: 0 (`false`) to the left, 1 (`true`) to the right (R11, R160). -/
def follow : CodeTree → List Bool → Option CodeTree
  | t, [] => some t
  | .leaf _ _, _ :: _ => none
  | .internal _ left right, b :: p => follow (if b then right else left) p

/-- The node index a bit string leads to from an index, one child for each bit; none past a leaf (R28, R160). -/
def followIdx (s : State) : Idx → List Bool → Option Idx
  | i, [] => some i
  | i, b :: p =>
    match readNode s i with
    | none => none
    | some n => if isLeaf n then none else followIdx s (childOf n b) p

/-- The code string of an entry of `CODE` (R25): `c[i] = bits[i]` for `i < len`. -/
def entryString (e : CodeEntry) : List Bool := (List.range e.len.toNat).map fun i => e.bits.getLsbD i

/-- What a command writes besides the decoder (`DST`, `DERR`, `CUR`) is nothing: the frame of DSTART, DBIT and DEND. -/
def DecoderFrame (s t : State) : Prop :=
  SameMemories s t ∧ t.root = s.root ∧ t.pqn = s.pqn ∧ t.ts = s.ts ∧ t.cs = s.cs ∧ t.nleaf = s.nleaf

/-- The error a command raises of its own (R241, R252). -/
def ownError : Instr → Option ResultCode
  | .lkup _ => some .unknownSymbol
  | .dstart => some .emptyTree
  | .dbit _ => some .invalidBit
  | .dend => some .truncatedStream
  | .clr => none
  | .ldf _ _ => none
  | .rdf _ => none
  | .rds => none
  | .build => none
  | .gen => none

end Sys2Proof.Machine
end

