-- ==== Sys2Proof/Certificates/Slice0/Obligations.lean ====
section
/-! DEFINITION. The statements for the provers: what the rules of spec/ say the commands and the machine do. -/

open Sys2Proof Sys2Proof.Machine

/-! ### Encoding -/

/-- (derived from 30_encoding.md R81, 30_encoding.md R82, 30_encoding.md R84, 30_encoding.md R88) For every command, with
every operand at every value its field admits, the command is well-formed and decoding its encoding answers it. -/
def Obligations.DecodeOfEncodeIsTheCommand : Prop :=
  ∀ i : Instr, i.wellFormed = true ∧ decode (encode i) = .ok i

/-- (derived from 30_encoding.md R81, 30_encoding.md R85, 30_encoding.md R87) For every 48-bit word, if it decodes to a
command then encoding that command gives the word: no bit of a legal word is dropped. -/
def Obligations.EncodeOfDecodeIsTheWord : Prop :=
  ∀ (w : CmdWord) (i : Instr), decode w = .ok i → encode i = w

/-- (derived from 30_encoding.md R84, opcode_table.json) For every word and every row of the opcode map, the word decodes to
a command with the row's mnemonic if and only if (word and mask) = match; and two rows that match one word are the same row.
-/
def Obligations.LegalWordsAreTheRowsOfTheOpcodeMap : Prop :=
  (∀ (w : CmdWord) (o : Op), (∃ i, decode w = .ok i ∧ i.op = o) ↔ w &&& o.maskBits = o.matchBits) ∧
  (∀ (w : CmdWord) (o p : Op), w &&& o.maskBits = o.matchBits → w &&& p.maskBits = p.matchBits → o = p)

/-- (states R85, R86) For every word: an opcode of 0x00, 0x05 to 0x0F, 0x11 to 0x1F, 0x22 to 0x2F or 0x33 to 0xFF is refused
as reserved; with one of the ten opcodes, a nonzero bit of [39:0] in format Z, or of [31:0] in formats S and T, is refused
by name. -/
def Obligations.ReservedOpcodesAndNonzeroFieldsAreIllegal : Prop :=
  ∀ w : CmdWord,
    (let n := (opcOf w).toNat
     (n = 0 ∨ (0x05 ≤ n ∧ n ≤ 0x0F) ∨ (0x11 ≤ n ∧ n ≤ 0x1F) ∨ (0x22 ≤ n ∧ n ≤ 0x2F) ∨ 0x33 ≤ n) ↔
       decode w = .error (.reservedOpcode (opcOf w))) ∧
    (∀ o : Op, opcOf w = o.opcode → o.format = .z → w.extractLsb' 0 40 ≠ 0 → decode w = .error (.nonzeroUnusedField o)) ∧
    (∀ o : Op, opcOf w = o.opcode → (o.format = .s ∨ o.format = .t) → w.extractLsb' 0 32 ≠ 0 →
      decode w = .error (.nonzeroUnusedField o))

/-- (states R87) In every state, for the command word the host gives next: either it matches exactly one row of the opcode
map and decodes to a command, or it matches none and the step answers IllegalCommand and changes nothing but the response
given. -/
def Obligations.IllegalWordIsAnsweredAndChangesNothing : Prop :=
  ∀ (s : State) (w : CmdWord) (rest : List HostInput), s.pending = .command w :: rest →
    ((∃! o : Op, w &&& o.maskBits = o.matchBits) ∧ ∃ i, decode w = .ok i) ∨
    ((∀ o : Op, w &&& o.maskBits ≠ o.matchBits) ∧
      step s = .next { s with pending := rest, resps := s.resps ++ [{ rc := .illegalCommand }] })

/-- (states R96) Every word prints as 12 characters, character k the hexadecimal digit of bits [47-4k:44-4k]; the digits are
0 to 9 and A to F; the eleven worked words decode to the commands the spec gives them and are their encodings; the word of
LDF 97, 3 prints as 026100000003. -/
def Obligations.WorkedEncodingsDecodeAndPrint : Prop :=
  (∀ w : CmdWord, (printWord w).length = 12 ∧
    ∀ k, k < 12 → (printWord w)[k]? = some (hexChar (w.extractLsb' (44 - 4 * k) 4).toNat)) ∧
  (List.range 16).map hexChar =
    ['0', '1', '2', '3', '4', '5', '6', '7', '8', '9', 'A', 'B', 'C', 'D', 'E', 'F'] ∧
  (decode 0x010000000000 = .ok .clr ∧ decode 0x026100000003 = .ok (.ldf 97 3) ∧ decode 0x036200000000 = .ok (.rdf 98) ∧
   decode 0x040000000000 = .ok .rds ∧ decode 0x100000000000 = .ok .build ∧ decode 0x200000000000 = .ok .gen ∧
   decode 0x216300000000 = .ok (.lkup 99) ∧ decode 0x300000000000 = .ok .dstart ∧ decode 0x313000000000 = .ok (.dbit 0x30) ∧
   decode 0x313100000000 = .ok (.dbit 0x31) ∧ decode 0x320000000000 = .ok .dend) ∧
  (encode .clr = 0x010000000000 ∧ encode (.ldf 97 3) = 0x026100000003 ∧ encode (.rdf 98) = 0x036200000000 ∧
   encode .rds = 0x040000000000 ∧ encode .build = 0x100000000000 ∧ encode .gen = 0x200000000000 ∧
   encode (.lkup 99) = 0x216300000000 ∧ encode .dstart = 0x300000000000 ∧ encode (.dbit 0x30) = 0x313000000000 ∧
   encode (.dbit 0x31) = 0x313100000000 ∧ encode .dend = 0x320000000000) ∧
  printWord (encode (.ldf 97 3)) = ['0', '2', '6', '1', '0', '0', '0', '0', '0', '0', '0', '3']

/-- (derived from 30_encoding.md R82, 30_encoding.md R83, 30_encoding.md R94, 40_table_commands.md R112,
43_host_functions.md R190) For every command, assembling its line gives the command, and a line that assembles to a command
is that command's line. A line assembles if and only if it has no operand in format Z, one below 256 in formats S and T, and
in format SC two, the first below 256 and the second below 2^32. A line that is not well-formed assembles to nothing. -/
def Obligations.WrittenLinesAssemble : Prop :=
  (∀ i : Instr, assemble i.toLine = some i) ∧ (∀ (l : Line) (i : Instr), assemble l = some i → i.toLine = l) ∧
  (∀ l : Line, (∃ i, assemble l = some i) ↔
    (l.op.format = .z ∧ l.args = []) ∨
    ((l.op.format = .s ∨ l.op.format = .t) ∧ ∃ x, l.args = [x] ∧ x < 256) ∨
    (l.op.format = .sc ∧ ∃ x c, l.args = [x, c] ∧ x < 256 ∧ c < 2 ^ 32)) ∧
  (∀ l : Line, l.wellFormed = false → assemble l = none)

/-- (derived from 10_state.md R22, 10_state.md R25, 30_encoding.md R90, 30_encoding.md R91) Every field of a node record, a
code record and a response stands at the bits the spec gives it in the packed word, and unpacking the 68 bits of a node or
the 264 bits of a code record inverts packing in both directions. The result codes are the numbers 0 to 7 of R91. -/
def Obligations.RecordsAndResponsesHaveThePackedLayout : Prop :=
  (∀ n : Node, (nodeBits n).getLsbD 67 = n.lv ∧ (nodeBits n).getLsbD 66 = n.rv ∧ (nodeBits n).extractLsb' 57 9 = n.l ∧
    (nodeBits n).extractLsb' 48 9 = n.r ∧ (nodeBits n).extractLsb' 40 8 = n.rs ∧ (nodeBits n).extractLsb' 0 40 = n.w ∧
    nodeOfBits (nodeBits n) = n) ∧
  (∀ b : BitVec 68, nodeBits (nodeOfBits b) = b) ∧
  (∀ e : CodeEntry, (codeEntryBits e).getLsbD 263 = e.v ∧ (codeEntryBits e).extractLsb' 255 8 = e.len ∧
    (codeEntryBits e).extractLsb' 0 255 = e.bits ∧ codeEntryOfBits (codeEntryBits e) = e) ∧
  (∀ b : BitVec 264, codeEntryBits (codeEntryOfBits b) = b) ∧
  (∀ r : Resp, (respBits r).extractLsb' 304 4 = rcCode r.rc ∧ (respBits r).getLsbD 303 = r.emit ∧
    (respBits r).extractLsb' 295 8 = r.sym ∧ (respBits r).extractLsb' 263 32 = r.n ∧
    (respBits r).extractLsb' 255 8 = r.len ∧ (respBits r).extractLsb' 0 255 = r.code) ∧
  (rcCode .ok = 0 ∧ rcCode .malformedHeader = 1 ∧ rcCode .unknownSymbol = 2 ∧ rcCode .invalidBit = 3 ∧
    rcCode .truncatedStream = 4 ∧ rcCode .emptyTree = 5 ∧ rcCode .badSequence = 6 ∧ rcCode .illegalCommand = 7)

/-! ### Step and reset -/

/-- (derived from 00_scope.md R7, 20_memory.md R68, 60_exceptions.md R255) When the host gives a word that decodes to a
command, the step is exec of that command with the word taken; with nothing pending the step changes nothing; with the word
of a command placed by withFetchWord the very next step runs it. (That the commands come from the model's field `pending` is
log 3.) -/
def Obligations.StepRunsTheDecodedCommand : Prop :=
  (∀ (s : State) (w : CmdWord) (rest : List HostInput) (i : Instr),
    s.pending = .command w :: rest → decode w = .ok i → step s = exec i { s with pending := rest }) ∧
  (∀ s : State, s.pending = [] → step s = .next s) ∧
  (∀ (s : State) (i : Instr), step (s.withFetchWord 48 (encode i).toNat) = exec i s)

/-- (derived from 30_encoding.md R90, 20_memory.md R70) In every state, when the host gives a command word and the step
answers a next state, that state has one more response than before, the host's other inputs are untouched and no reset is
counted. -/
def Obligations.EveryCommandReturnsExactlyOneResponse : Prop :=
  ∀ (s t : State) (w : CmdWord) (rest : List HostInput), s.pending = .command w :: rest → step s = .next t →
    ∃ r, t.resps = s.resps ++ [r] ∧ t.pending = rest ∧ t.era = s.era

/-- (derived from 10_state.md R39) In the reset state every FREQ entry reads 0, the five status fields and the STATUS word
are zero, and no response has been given. Nothing is said of the state R39 leaves unspecified. -/
def Obligations.ResetStateHasTheStatedValues : Prop :=
  (∀ sym, readFreq State.reset sym = 0) ∧ State.reset.ts = .none ∧ State.reset.cs = false ∧ State.reset.dst = .idle ∧
    State.reset.derr = 0 ∧ State.reset.nleaf = 0 ∧ statusWord State.reset = 0 ∧ State.reset.resps = []

/-- (derived from 70_reset_and_hazards.md R270) When the reset input comes next, the step answers a state in which every
count and every status field is what CLR would leave, no response is given and the host's other inputs stay. (That the
record of responses starts anew is log 4.) -/
def Obligations.ResetInputActsAsClearWithoutResponse : Prop :=
  ∀ (s : State) (rest : List HostInput), s.pending = .reset :: rest →
    ∃ t u, step s = .next t ∧ exec .clr s = .next u ∧ (∀ sym, readFreq t sym = 0 ∧ readFreq u sym = 0) ∧
      SameStatus u t ∧ statusWord t = 0 ∧ t.resps = [] ∧ t.pending = rest

/-! ### Table and status commands -/

/-- (states R111) The word of the rule decodes to the command. In every state CLR answers OK in a next state in which every
count reads 0, TS, CS, DST, DERR and NLEAF are zero, and NODE, PQ, CODE, ROOT, CUR and PQN are unchanged. -/
def Obligations.ClearZeroesTheTableAndInvalidates : Prop :=
  decode 0x010000000000 = .ok .clr ∧
  ∀ s : State, ∃ t, exec .clr s = .next t ∧ Answered s t {} ∧ (∀ sym, readFreq t sym = 0) ∧
    t.ts = .none ∧ t.cs = false ∧ t.dst = .idle ∧ t.derr = 0 ∧ t.nleaf = 0 ∧
    (∀ i, readNode t i = readNode s i) ∧ (∀ p, readPq t p = readPq s p) ∧ (∀ sym, readCode t sym = readCode s sym) ∧
    SameRegisters s t

/-- (states R112) The word of the rule decodes to the command. In every state, for every symbol and every count (zero
included), LDF answers OK in a next state in which that entry reads the count, every other entry reads as before, the five
status fields are zero, and NODE, PQ, CODE, ROOT, CUR and PQN are unchanged. -/
def Obligations.LoadWritesOneCountAndInvalidates : Prop :=
  (∀ sym cnt, decode (packWord 0x02 sym cnt) = .ok (.ldf sym cnt)) ∧
  ∀ (s : State) (sym : Sym8) (cnt : Count), ∃ t, exec (.ldf sym cnt) s = .next t ∧ Answered s t {} ∧
    readFreq t sym = cnt ∧ (∀ x, x ≠ sym → readFreq t x = readFreq s x) ∧
    t.ts = .none ∧ t.cs = false ∧ t.dst = .idle ∧ t.derr = 0 ∧ t.nleaf = 0 ∧
    (∀ i, readNode t i = readNode s i) ∧ (∀ p, readPq t p = readPq s p) ∧ (∀ x, readCode t x = readCode s x) ∧
    SameRegisters s t

/-- (states R113) The word of the rule decodes to the command. In every state and for every symbol RDF answers OK with n =
FREQ[sym], in a next state that differs only in the response given. -/
def Obligations.ReadCountAnswersTheEntry : Prop :=
  (∀ sym, decode (packWord 0x03 sym 0) = .ok (.rdf sym)) ∧
  ∀ (s : State) (sym : Sym8), ∃ t, exec (.rdf sym) s = .next t ∧ Answered s t { n := readFreq s sym } ∧
    SameMemories s t ∧ SameRegisters s t ∧ SameStatus s t

/-- (states R114) The word of the rule decodes to the command. In every state RDS answers OK with n = STATUS, where TS is at
[1:0], CS at [2], DST at [5:4], DERR at [11:8], NLEAF at [24:16] and every other bit is 0; nothing else changes. TS is 0 to
3 for NONE, EMPTY, SINGLE, MULTI (R30) and DST 0 to 3 for IDLE, RUN, DONE, HALT (R32). -/
def Obligations.ReadStatusAnswersTheStatusWord : Prop :=
  decode 0x040000000000 = .ok .rds ∧
  (tsCode .none = 0 ∧ tsCode .empty = 1 ∧ tsCode .single = 2 ∧ tsCode .multi = 3) ∧
  (dstCode .idle = 0 ∧ dstCode .run = 1 ∧ dstCode .done = 2 ∧ dstCode .halt = 3) ∧
  ∀ s : State, (∃ t, exec .rds s = .next t ∧ Answered s t { n := statusWord s } ∧
      SameMemories s t ∧ SameRegisters s t ∧ SameStatus s t) ∧
    (statusWord s).extractLsb' 0 2 = tsCode s.ts ∧ (statusWord s).getLsbD 2 = s.cs ∧ (statusWord s).getLsbD 3 = false ∧
    (statusWord s).extractLsb' 4 2 = dstCode s.dst ∧ (statusWord s).extractLsb' 6 2 = 0 ∧
    (statusWord s).extractLsb' 8 4 = s.derr ∧ (statusWord s).extractLsb' 12 4 = 0 ∧
    (statusWord s).extractLsb' 16 9 = s.nleaf ∧ (statusWord s).extractLsb' 25 7 = 0

/-- (states R66) Whenever RDF, RDS or LKUP answers a next state, every memory entry, working register and status field is as
before, and the same command issued again answers the same response. -/
def Obligations.ReadingCommandsChangeNothingAndRepeat : Prop :=
  ∀ (i : Instr) (s t : State), (i = .rds ∨ (∃ sym, i = .rdf sym) ∨ ∃ sym, i = .lkup sym) → exec i s = .next t →
    SameMemories s t ∧ SameRegisters s t ∧ SameStatus s t ∧
    ∃ r u, Answered s t r ∧ exec i t = .next u ∧ Answered t u r

/-! ### Tree builder -/

/-- (states R132) On all nodes comesBefore is irreflexive, asymmetric and transitive; neither of two nodes comes before the
other exactly when weight and representative symbol are equal; and (2, 'a') comes before (2, 'b') before (3, 'a'). -/
def Obligations.ComesBeforeIsAStrictOrder : Prop :=
  (∀ a, comesBefore a a = false) ∧ (∀ a b, comesBefore a b = true → comesBefore b a = false) ∧
  (∀ a b c, comesBefore a b = true → comesBefore b c = true → comesBefore a c = true) ∧
  (∀ a b, (comesBefore a b = false ∧ comesBefore b a = false) ↔ (a.w = b.w ∧ a.rs = b.rs)) ∧
  comesBefore (leafNode 97 2) (leafNode 98 2) = true ∧ comesBefore (leafNode 98 2) (leafNode 97 3) = true

/-- (derived from 41_tree_builder.md R133, 41_tree_builder.md R135, 41_tree_builder.md R136) If the working collection is
sorted by comesBefore and no node of it has the representative symbol of the new node, then after the insertion it is sorted
and holds the new node and exactly the nodes it held. -/
def Obligations.InsertingKeepsTheCollectionSorted : Prop :=
  ∀ (x : Item) (q : List Item), q.Pairwise (fun a b => comesBefore a.2 b.2 = true) → (∀ y ∈ q, y.2.rs ≠ x.2.rs) →
    (insertItem x q).Pairwise (fun a b => comesBefore a.2 b.2 = true) ∧ (insertItem x q).Perm (x :: q)

/-- (derived from 41_tree_builder.md R138, 41_tree_builder.md R140, 10_state.md R23, 10_state.md R30) In every state BUILD
answers OK; CS and DERR are 0, DST is IDLE, NLEAF is the number n of nonzero counts, TS is EMPTY, SINGLE or MULTI for n = 0,
1, more; for n = 0 NODE, PQ and ROOT are untouched and PQN is 0; for n > 0 PQN is 1 and PQ[0] is ROOT; FREQ, CODE, CUR and
every NODE entry the build does not allocate are unchanged. -/
def Obligations.BuildCompletesAndSetsTheStatus : Prop :=
  ∀ s : State, ∃ t, exec .build s = .next t ∧ Answered s t {} ∧ t.cs = false ∧ t.dst = .idle ∧ t.derr = 0 ∧
    t.nleaf.toNat = presentCount s ∧
    t.ts = (if presentCount s = 0 then .empty else if presentCount s = 1 then .single else .multi) ∧
    (presentCount s = 0 → t.pqn = 0 ∧ t.root = s.root ∧ (∀ i, readNode t i = readNode s i) ∧ ∀ p, readPq t p = readPq s p) ∧
    (presentCount s ≠ 0 → t.pqn = 1 ∧ readPq t 0 = t.root) ∧
    (∀ i, ¬ Allocated s i → readNode t i = readNode s i) ∧
    (∀ sym, readFreq t sym = readFreq s sym) ∧ (∀ sym, readCode t sym = readCode s sym) ∧ t.cur = s.cur

/-- (derived from 41_tree_builder.md R134, 10_state.md R23, 10_state.md R37) Whenever BUILD answers, for every symbol with a
nonzero count NODE[sym] is the childless record with rs = sym and the count as 40-bit weight, and for every symbol with
count 0 NODE[sym] keeps what it held. -/
def Obligations.BuildMakesOneLeafPerPresentSymbol : Prop :=
  ∀ (s t : State) (sym : Sym8), exec .build s = .next t →
    (readFreq s sym ≠ 0 → readNode t (leafIdx sym) =
      some { lv := false, rv := false, l := 0, r := 0, rs := sym, w := (readFreq s sym).setWidth 40 }) ∧
    (readFreq s sym = 0 → readNode t (leafIdx sym) = readNode s (leafIdx sym))

/-- (derived from 41_tree_builder.md R136, 41_tree_builder.md R137, 10_state.md R23) Whenever BUILD answers with n nonzero
counts, for each k below n - 1 the record NODE[256+k] has two different children, both in the working collection at merge k;
the left comes before the right, and the right before every other node of that collection; its weight is the sum and its
representative symbol the smaller of theirs. -/
def Obligations.GreedyMergeTakesTheTwoLowest : Prop :=
  ∀ (s t : State) (k : Nat), exec .build s = .next t → k + 1 < presentCount s →
    ∃ l r a b, readNode t (mergeIdx k) =
        some { lv := true, rv := true, l := l, r := r, rs := if a.rs < b.rs then a.rs else b.rs, w := a.w + b.w } ∧
      l ≠ r ∧ Unmerged t k l ∧ Unmerged t k r ∧ readNode t l = some a ∧ readNode t r = some b ∧ comesBefore a b = true ∧
      ∀ i c, Unmerged t k i → i ≠ l → i ≠ r → readNode t i = some c → comesBefore b c = true

/-- (derived from 10_state.md R37) Whenever BUILD answers with n >= 1 nonzero counts: the root is the present symbol's leaf
for n = 1 and index 256 + n - 2 otherwise; each internal node 256 + k has two allocated children of smaller index, its
weight is the integer sum of theirs and its rs the smaller of theirs; an allocated index names a leaf exactly when it is
below 256. -/
def Obligations.BuiltRootAndInternalNodes : Prop :=
  ∀ s t : State, exec .build s = .next t → presentCount s ≠ 0 →
    (presentCount s = 1 → ∃ sym, readFreq s sym ≠ 0 ∧ t.root = leafIdx sym) ∧
    (2 ≤ presentCount s → t.root.toNat = 256 + presentCount s - 2) ∧
    (∀ k, k + 1 < presentCount s → ∃ n a b, readNode t (mergeIdx k) = some n ∧ n.lv = true ∧ n.rv = true ∧
      Allocated t n.l ∧ Allocated t n.r ∧ n.l.toNat < 256 + k ∧ n.r.toNat < 256 + k ∧
      readNode t n.l = some a ∧ readNode t n.r = some b ∧ n.w.toNat = a.w.toNat + b.w.toNat ∧
      n.rs.toNat = min a.rs.toNat b.rs.toNat ∧ comesBefore a b = true) ∧
    (∀ i, Allocated t i → ∃ n, readNode t i = some n ∧ isLeaf n = decide (i.toNat < 256))

/-- (derived from 10_state.md R37, 10_state.md R29) Whenever BUILD answers with n >= 1 nonzero counts, every allocated index
other than ROOT is the left or the right child of exactly one of the internal nodes 256 .. 256 + n - 2, in one place only,
and ROOT is the child of none. -/
def Obligations.BuiltTreeHasNoSharing : Prop :=
  ∀ s t : State, exec .build s = .next t → presentCount s ≠ 0 →
    (∀ i, Allocated t i → i ≠ t.root →
      ∃! p : Nat × Bool, p.1 + 1 < presentCount s ∧ ∃ n, readNode t (mergeIdx p.1) = some n ∧ childOf n p.2 = i) ∧
    (∀ k n bit, k + 1 < presentCount s → readNode t (mergeIdx k) = some n → childOf n bit ≠ t.root)

/-- (derived from 10_state.md R37, 41_tree_builder.md R139) Whenever BUILD answers with n >= 1 nonzero counts, the weight of
the root is the sum of the 256 counts as an integer, that sum is below 2^40, and the root's representative symbol is the
smallest symbol with a nonzero count. -/
def Obligations.RootWeighsTheSumOfTheCounts : Prop :=
  ∀ s t : State, exec .build s = .next t → presentCount s ≠ 0 →
    countSum s < 2 ^ 40 ∧ ∃ n, readNode t t.root = some n ∧ n.w.toNat = countSum s ∧
      readFreq s n.rs ≠ 0 ∧ ∀ sym, readFreq s sym ≠ 0 → n.rs.toNat ≤ sym.toNat

/-- (derived from 41_tree_builder.md R130, 10_state.md R29, 10_state.md R37) Whenever BUILD answers with n >= 1 nonzero
counts, Tree(ROOT) exists, its leaves are exactly the present symbols with their counts, each once; and for every allocated
index Tree(i) exists, NODE[i].rs is the smallest symbol of its leaves and NODE[i].w the integer sum of their weights. -/
def Obligations.BuiltTreeHasExactlyThePresentLeaves : Prop :=
  ∀ s t : State, exec .build s = .next t → presentCount s ≠ 0 →
    (∃ tree, treeAt t t.root = .ok tree ∧ ((treeLeaves tree).map Prod.fst).Nodup ∧
      ∀ sym w, (sym, w) ∈ treeLeaves tree ↔ readFreq s sym ≠ 0 ∧ w = (readFreq s sym).setWidth 40) ∧
    (∀ i, Allocated t i → ∃ n tree, readNode t i = some n ∧ treeAt t i = .ok tree ∧
      n.rs ∈ (treeLeaves tree).map Prod.fst ∧ (∀ p ∈ treeLeaves tree, n.rs.toNat ≤ p.1.toNat) ∧
      n.w.toNat = ((treeLeaves tree).map fun p => p.2.toNat).sum)

/-- (derived from 41_tree_builder.md R141) If every count reads the same in two states, then whatever else they hold, BUILD
in each leaves the same TS, NLEAF and allocated NODE entries, and for a nonempty table the same ROOT, the same abstract tree
and the same derived codes. -/
def Obligations.BuildDependsOnTheCountsAlone : Prop :=
  ∀ s s' t t' : State, (∀ sym, readFreq s sym = readFreq s' sym) → exec .build s = .next t → exec .build s' = .next t' →
    t.ts = t'.ts ∧ t.nleaf = t'.nleaf ∧ (∀ i, Allocated s i → readNode t i = readNode t' i) ∧
    currentCodes t = currentCodes t' ∧
    (presentCount s ≠ 0 → t.root = t'.root ∧ treeAt t t.root = treeAt t' t'.root)

/-! ### Code table -/

/-- (derived from 42_code_table.md R160, 00_scope.md R11) For every tree, the pair (sym, p) is in deriveCodes of it if and
only if following p from the root, 0 to the left and 1 to the right, ends at a leaf of sym. -/
def Obligations.DerivedCodeIsThePathToTheLeaf : Prop :=
  ∀ (tree : CodeTree) (sym : Sym8) (p : List Bool),
    (sym, p) ∈ deriveCodes tree ↔ ∃ w, follow tree p = some (.leaf sym w)

/-- (derived from 42_code_table.md R161) The word of the rule decodes to the command. With TS = NONE GEN answers BadSequence
and changes nothing. In every state that meets the invariant with TS not NONE it answers OK, CS is 1, each symbol with a
derived code c has the entry (1, |c|, pack(c)) where bit i of pack(c) is c[i] and 0 from |c| up, every other entry is absent
with zero fields, and nothing else changes. For TS = EMPTY there are no codes; else they are deriveCodes(Tree(ROOT)). (That
len and bits of an absent entry are zero is log 8.) -/
def Obligations.GenerateWritesTheDerivedCodes : Prop :=
  decode 0x200000000000 = .ok .gen ∧
  (∀ s : State, s.ts = .none → exec .gen s = .next (respond { rc := .badSequence } s)) ∧
  (∀ s : State, EngineOk s → s.ts ≠ .none → ∃ cs t, exec .gen s = .next t ∧ Answered s t {} ∧ t.cs = true ∧
    (s.ts = .empty → cs = []) ∧ (s.ts ≠ .empty → ∃ tree, treeAt s s.root = .ok tree ∧ cs = deriveCodes tree) ∧
    (∀ sym c, (sym, c) ∈ cs → c.length ≤ 255 ∧
      readCode t sym = { v := true, len := BitVec.ofNat 8 c.length, bits := packBits c } ∧
      ∀ k, (packBits c).getLsbD k = c.getD k false) ∧
    (∀ sym, (∀ c, (sym, c) ∉ cs) → readCode t sym = { v := false, len := 0, bits := 0 }) ∧
    (∀ sym, readFreq t sym = readFreq s sym) ∧ (∀ i, readNode t i = readNode s i) ∧ (∀ p, readPq t p = readPq s p) ∧
    SameRegisters s t ∧ t.ts = s.ts ∧ t.dst = s.dst ∧ t.derr = s.derr ∧ t.nleaf = s.nleaf)

/-- (derived from 42_code_table.md R162, 70_reset_and_hazards.md R286) In every state that meets the invariant and holds a
tree, the stack traversal from the root visits at most 511 nodes and yields the symbols and paths of
deriveCodes(Tree(ROOT)), left to right. -/
def Obligations.StackTraversalGivesTheSameCodes : Prop :=
  ∀ s : State, EngineOk s → (s.ts = .single ∨ s.ts = .multi) →
    ∃ tree, treeAt s s.root = .ok tree ∧ stackCodes s 511 [(s.root, [])] = some (deriveCodes tree)

/-- (states R163) The word of the rule decodes to the command. In every state and for every symbol: with CS = 0 the answer
is BadSequence; with CS = 1 and no entry it is UnknownSymbol; with an entry LKUP completes with its len and bits. In each
case nothing but the response changes. In every state that meets the invariant the bits of an entry answered are zero from
len upward, and with TS = EMPTY every LKUP is answered UnknownSymbol. -/
def Obligations.LookupAnswersTheCodeOrTheError : Prop :=
  (∀ sym, decode (packWord 0x21 sym 0) = .ok (.lkup sym)) ∧
  ∀ (s : State) (sym : Sym8),
    (s.cs = false → exec (.lkup sym) s = .next (respond { rc := .badSequence } s)) ∧
    (s.cs = true → (readCode s sym).v = false → exec (.lkup sym) s = .next (respond { rc := .unknownSymbol } s)) ∧
    (s.cs = true → (readCode s sym).v = true → ∃ t, exec (.lkup sym) s = .next t ∧
      Answered s t { len := (readCode s sym).len, code := (readCode s sym).bits } ∧
      SameMemories s t ∧ SameRegisters s t ∧ SameStatus s t) ∧
    (EngineOk s → s.cs = true → (readCode s sym).v = true →
      ∀ k, (readCode s sym).len.toNat ≤ k → (readCode s sym).bits.getLsbD k = false) ∧
    (EngineOk s → s.cs = true → s.ts = .empty → exec (.lkup sym) s = .next (respond { rc := .unknownSymbol } s))

/-- (states R164) In every state that meets the invariant with a valid code table, for two different symbols that both have
an entry, the code string of the one is not a prefix of the code string of the other. -/
def Obligations.CodesArePrefixFree : Prop :=
  ∀ s : State, EngineOk s → s.cs = true → ∀ a b : Sym8, a ≠ b → (readCode s a).v = true → (readCode s b).v = true →
    ¬ entryString (readCode s a) <+: entryString (readCode s b)

/-- (derived from 42_code_table.md R168) In every state that meets the invariant with a valid code table, the entry of a
symbol is present exactly when its count is nonzero; and two such states with equal counts have equal code tables. (That the
len and bits of absent entries are equal too is log 8.) -/
def Obligations.CodeTableMatchesTheCounts : Prop :=
  (∀ s : State, EngineOk s → s.cs = true → ∀ sym, (readCode s sym).v = true ↔ readFreq s sym ≠ 0) ∧
  (∀ s s' : State, EngineOk s → EngineOk s' → s.cs = true → s'.cs = true → (∀ sym, readFreq s sym = readFreq s' sym) →
    ∀ sym, readCode s sym = readCode s' sym)

/-- (derived from 42_code_table.md R166, 42_code_table.md R165) In every state that meets the invariant with a valid code
table: with TS = MULTI every present entry has a length between 1 and NLEAF - 1; with TS = SINGLE the one present entry has
length 0 and no bits set; with TS = EMPTY no entry is present. -/
def Obligations.CodeLengthsAreBounded : Prop :=
  ∀ s : State, EngineOk s → s.cs = true →
    (s.ts = .multi → ∀ sym, (readCode s sym).v = true →
      1 ≤ (readCode s sym).len.toNat ∧ (readCode s sym).len.toNat + 1 ≤ s.nleaf.toNat) ∧
    (s.ts = .single → ∃ sym, readCode s sym = { v := true, len := 0, bits := 0 } ∧ ∀ x, x ≠ sym → (readCode s x).v = false) ∧
    (s.ts = .empty → ∀ x, (readCode s x).v = false)

/-! ### Decoder -/

/-- (states R211) The word of the rule decodes to the command. With TS = NONE: BadSequence, nothing changes. EMPTY:
EmptyTree, DST IDLE, DERR 0. SINGLE, for the record n at ROOT: OK with the emission of n.rs, w[31:0] copies, DST DONE, DERR
0. MULTI: OK, CUR = ROOT, DST RUN, DERR 0. Memories, ROOT, PQN, TS, CS and NLEAF are unchanged in each, CUR too but for
MULTI. -/
def Obligations.DecodeStartByTreeState : Prop :=
  decode 0x300000000000 = .ok .dstart ∧
  ∀ s : State,
    (s.ts = .none → exec .dstart s = .next (respond { rc := .badSequence } s)) ∧
    (s.ts = .empty → ∃ t, exec .dstart s = .next t ∧ Answered s t { rc := .emptyTree } ∧ t.dst = .idle ∧ t.derr = 0 ∧
      t.cur = s.cur ∧ DecoderFrame s t) ∧
    (s.ts = .single → ∀ n, readNode s s.root = some n → ∃ t, exec .dstart s = .next t ∧
      Answered s t { emit := true, sym := n.rs, n := n.w.extractLsb' 0 32 } ∧ t.dst = .done ∧ t.derr = 0 ∧
      t.cur = s.cur ∧ DecoderFrame s t) ∧
    (s.ts = .multi → ∃ t, exec .dstart s = .next t ∧ Answered s t {} ∧ t.dst = .run ∧ t.derr = 0 ∧ t.cur = s.root ∧
      DecoderFrame s t)

/-- (derived from 44_decoder.md R215, 44_decoder.md R211) In every state that meets the invariant with TS = SINGLE there is
exactly one symbol with a nonzero count, and DSTART completes with one emission of that symbol, n = its count, and goes to
DONE. -/
def Obligations.SingleSymbolRunIsEmittedByItsCount : Prop :=
  ∀ s : State, EngineOk s → s.ts = .single → ∃ sym t, readFreq s sym ≠ 0 ∧ (∀ x, x ≠ sym → readFreq s x = 0) ∧
    exec .dstart s = .next t ∧ Answered s t { emit := true, sym := sym, n := readFreq s sym } ∧ t.dst = .done

/-- (states R214) The token 0x30 stands for 0 and 0x31 for 1; every other token stands for no bit, and in RUN DBIT of it
answers InvalidBit with DST HALT and DERR 3. -/
def Obligations.TokensOtherThanTheTwoBitsAreInvalid : Prop :=
  tokenBit 0x30 = some false ∧ tokenBit 0x31 = some true ∧
  ∀ tok : BitVec 8, tok ≠ 0x30 → tok ≠ 0x31 → tokenBit tok = none ∧
    ∀ s : State, s.dst = .run → ∃ t, exec (.dbit tok) s = .next t ∧ Answered s t { rc := .invalidBit } ∧ t.dst = .halt ∧ t.derr = 3

/-- (states R212) The word of the rule decodes to the command. Outside RUN: BadSequence, nothing changes. In RUN a bad
token: InvalidBit, DST HALT, DERR 3, CUR unchanged. In RUN the token 0x30 moves to the left child of the node at CUR and
0x31 to the right: at a leaf the answer emits its symbol once and CUR is ROOT, else the answer is a plain OK and CUR is the
child; DST and DERR stay. Memories, ROOT, PQN, TS, CS and NLEAF are unchanged in each. -/
def Obligations.DecodeBitMovesOneBranch : Prop :=
  (∀ tok, decode (packWord 0x31 tok 0) = .ok (.dbit tok)) ∧
  ∀ (s : State) (tok : BitVec 8),
    (s.dst ≠ .run → exec (.dbit tok) s = .next (respond { rc := .badSequence } s)) ∧
    (s.dst = .run → tok ≠ 0x30 → tok ≠ 0x31 → ∃ t, exec (.dbit tok) s = .next t ∧ Answered s t { rc := .invalidBit } ∧
      t.dst = .halt ∧ t.derr = 3 ∧ t.cur = s.cur ∧ DecoderFrame s t) ∧
    (s.dst = .run → ∀ n i c, readNode s s.cur = some n → (tok = 0x30 ∧ i = n.l ∨ tok = 0x31 ∧ i = n.r) → readNode s i = some c →
      ∃ t, exec (.dbit tok) s = .next t ∧ t.dst = .run ∧ t.derr = s.derr ∧ DecoderFrame s t ∧
        (isLeaf c = true → Answered s t { emit := true, sym := c.rs, n := 1 } ∧ t.cur = s.root) ∧
        (isLeaf c = false → Answered s t {} ∧ t.cur = i))

/-- (derived from 44_decoder.md R212, 10_state.md R37) In every state that meets the invariant with DST = RUN, DBIT of 0x30
or 0x31 answers OK in a next state that is still in RUN; it emits at most one copy of one present symbol. -/
def Obligations.GoodTokenAlwaysMovesInRun : Prop :=
  ∀ (s : State) (tok : BitVec 8), EngineOk s → s.dst = .run → (tok = 0x30 ∨ tok = 0x31) →
    ∃ t r, exec (.dbit tok) s = .next t ∧ Answered s t r ∧ r.rc = .ok ∧ t.dst = .run ∧
      (r.emit = true → r.n = 1 ∧ readFreq s r.sym ≠ 0)

/-- (states R213) The word of the rule decodes to the command. In IDLE or HALT: BadSequence, nothing changes. In DONE, or in
RUN with CUR = ROOT: OK, DST IDLE, DERR as it was. In RUN with CUR not ROOT: TruncatedStream, DST HALT, DERR 4. CUR,
memories, ROOT, PQN, TS, CS and NLEAF are unchanged in each. -/
def Obligations.DecodeEndChecksTheRoot : Prop :=
  decode 0x320000000000 = .ok .dend ∧
  ∀ s : State,
    (s.dst = .idle ∨ s.dst = .halt → exec .dend s = .next (respond { rc := .badSequence } s)) ∧
    (s.dst = .done ∨ (s.dst = .run ∧ s.cur = s.root) → ∃ t, exec .dend s = .next t ∧ Answered s t {} ∧ t.dst = .idle ∧
      t.derr = s.derr ∧ t.cur = s.cur ∧ DecoderFrame s t) ∧
    (s.dst = .run → s.cur ≠ s.root → ∃ t, exec .dend s = .next t ∧ Answered s t { rc := .truncatedStream } ∧
      t.dst = .halt ∧ t.derr = 4 ∧ t.cur = s.cur ∧ DecoderFrame s t)

/-- (derived from 44_decoder.md R218) In every state that meets the invariant with TS = MULTI, and for every token sequence,
running DSTART; DBIT per token; DEND up to the first error yields the output and the final result of the abstract walk on
Tree(ROOT). -/
def Obligations.CommandSequenceEqualsTheWalk : Prop :=
  ∀ (s : State) (toks : List (BitVec 8)), EngineOk s → s.ts = .multi →
    ∃ tree rs rc t, treeAt s s.root = .ok tree ∧ runUntilError (decodeCommands toks) s = some (rs, rc, t) ∧
      (decodedOutput rs, rc) = decodeMulti tree toks

/-- (derived from 44_decoder.md R218, 43_host_functions.md R185) For every tree whose root is an internal node and whose
leaves bear different symbols, and every byte sequence b that the encoder with the derived codes encodes, decodeMulti over
the tokens of the payload is (b, OK). -/
def Obligations.WalkInvertsTheEncoder : Prop :=
  ∀ (w : Weight) (left right : CodeTree) (b : List Sym8) (p : List Bool),
    ((treeLeaves (.internal w left right)).map Prod.fst).Nodup →
    encodePayload (codeOf (deriveCodes (.internal w left right))) b = .ok p →
    decodeMulti (.internal w left right) (p.map tokenOf) = (b, .ok)

/-! ### Errors -/

/-- (states R247) For every command and state: GEN and DSTART with TS = NONE, LKUP with CS = 0, DBIT outside RUN, DEND in
IDLE or HALT answer BadSequence and change nothing but the response; in every other case (CLR, LDF, RDF, RDS, BUILD always)
no answer is BadSequence. -/
def Obligations.BadSequenceExactlyWhenNotLegal : Prop :=
  (∀ (i : Instr) (s : State), legalWhen i s = false → exec i s = .next (respond { rc := .badSequence } s)) ∧
  (∀ (i : Instr) (s t : State) (r : Resp), legalWhen i s = true → exec i s = .next t → Answered s t r → r.rc ≠ .badSequence) ∧
  (∀ s : State, (legalWhen .gen s = false ↔ s.ts = .none) ∧ (∀ sym, legalWhen (.lkup sym) s = false ↔ s.cs = false) ∧
    (legalWhen .dstart s = false ↔ s.ts = .none) ∧ (∀ tok, legalWhen (.dbit tok) s = false ↔ s.dst ≠ .run) ∧
    (legalWhen .dend s = false ↔ s.dst = .idle ∨ s.dst = .halt) ∧ legalWhen .clr s = true ∧
    (∀ sym cnt, legalWhen (.ldf sym cnt) s = true) ∧ (∀ sym, legalWhen (.rdf sym) s = true) ∧ legalWhen .rds s = true ∧
    legalWhen .build s = true)

/-- (states R252) For the command word a step takes, in every state: if it does not decode the response is IllegalCommand;
if it decodes to a command whose Legal when condition is false it is BadSequence; else it is OK or the one error of its own
that command has. -/
def Obligations.ErrorPriority : Prop :=
  ∀ (s t : State) (w : CmdWord) (rest : List HostInput) (r : Resp),
    s.pending = .command w :: rest → step s = .next t → t.resps = s.resps ++ [r] →
    (∀ e, decode w = .error e → r.rc = .illegalCommand) ∧
    (∀ i, decode w = .ok i → legalWhen i s = false → r.rc = .badSequence) ∧
    (∀ i, decode w = .ok i → legalWhen i s = true → r.rc = .ok ∨ some r.rc = ownError i)

/-- (states R251) Whenever a step that takes a command word answers with an error: every entry of FREQ, NODE, PQ and CODE
and ROOT, CUR, PQN, TS, CS and NLEAF are unchanged; IllegalCommand, BadSequence and UnknownSymbol change DST and DERR not at
all, EmptyTree leaves IDLE and 0, InvalidBit HALT and 3, TruncatedStream HALT and 4. -/
def Obligations.ErrorsArePrecise : Prop :=
  ∀ (s t : State) (w : CmdWord) (rest : List HostInput) (r : Resp),
    s.pending = .command w :: rest → step s = .next t → t.resps = s.resps ++ [r] → r.rc ≠ .ok →
    SameMemories s t ∧ SameRegisters s t ∧ t.ts = s.ts ∧ t.cs = s.cs ∧ t.nleaf = s.nleaf ∧
    ((r.rc = .illegalCommand ∨ r.rc = .badSequence ∨ r.rc = .unknownSymbol) → t.dst = s.dst ∧ t.derr = s.derr) ∧
    (r.rc = .emptyTree → t.dst = .idle ∧ t.derr = 0 ∧ (StatusOk s → s.dst = .idle ∧ s.derr = 0)) ∧
    (r.rc = .invalidBit → t.dst = .halt ∧ t.derr = 3) ∧ (r.rc = .truncatedStream → t.dst = .halt ∧ t.derr = 4)

/-- (states R92) For the response of every step that takes a command word: if rc is not OK every other field is zero; if
emit is 0 then sym is 0, and n is 0 unless the word decodes to RDF or RDS; len and code are zero unless it decodes to LKUP;
an emission comes only from DSTART or DBIT. -/
def Obligations.ResponsesAreZeroFilled : Prop :=
  ∀ (s t : State) (w : CmdWord) (rest : List HostInput) (r : Resp),
    s.pending = .command w :: rest → step s = .next t → t.resps = s.resps ++ [r] →
    (r.rc ≠ .ok → r = { rc := r.rc }) ∧ (r.emit = false → r.sym = 0) ∧
    (r.emit = false → r.n = 0 ∨ decode w = .ok .rds ∨ ∃ sym, decode w = .ok (.rdf sym)) ∧
    ((r.len = 0 ∧ r.code = 0) ∨ ∃ sym, decode w = .ok (.lkup sym)) ∧
    (r.emit = true → decode w = .ok .dstart ∨ ∃ tok, decode w = .ok (.dbit tok))

/-- (derived from 60_exceptions.md R250, 60_exceptions.md R253) In every state with DST = HALT: DBIT of any token and DEND
answer BadSequence and change nothing; whenever GEN, LKUP, RDF or RDS answers, DST and DERR are as before; CLR, LDF and
BUILD leave IDLE and DERR 0; and under the invariant DSTART leaves RUN at the root with DERR 0. -/
def Obligations.HaltIsLeftOnlyByFreshStart : Prop :=
  ∀ s : State, s.dst = .halt →
    (∀ tok, exec (.dbit tok) s = .next (respond { rc := .badSequence } s)) ∧
    exec .dend s = .next (respond { rc := .badSequence } s) ∧
    (∀ i t, (i = .gen ∨ i = .rds ∨ (∃ sym, i = .rdf sym) ∨ ∃ sym, i = .lkup sym) → exec i s = .next t →
      t.dst = s.dst ∧ t.derr = s.derr) ∧
    (∀ i t, (i = .clr ∨ i = .build ∨ ∃ sym cnt, i = .ldf sym cnt) → exec i s = .next t → t.dst = .idle ∧ t.derr = 0) ∧
    (EngineOk s → ∃ t, exec .dstart s = .next t ∧ t.dst = .run ∧ t.derr = 0 ∧ t.cur = t.root)

/-- (states R36) Whenever a command other than BUILD answers, ROOT and every entry of NODE are as before; whenever a command
other than GEN answers, every entry of CODE is as before. -/
def Obligations.TreeAndTableAreImmutable : Prop :=
  ∀ (i : Instr) (s t : State), exec i s = .next t →
    (i ≠ .build → t.root = s.root ∧ ∀ j, readNode t j = readNode s j) ∧
    (i ≠ .gen → ∀ sym, readCode t sym = readCode s sym)

/-- (derived from 10_state.md R21, 10_state.md R24, 10_state.md R26, 10_state.md R35) Whenever a command answers: FREQ is
written only by CLR and LDF; PQ and PQN only by BUILD; CUR only by DSTART and DBIT; TS and NLEAF only by CLR, LDF and BUILD;
CS only by these and GEN; DST and DERR not by GEN, LKUP, RDF and RDS. -/
def Obligations.WhichCommandWritesWhichField : Prop :=
  ∀ (i : Instr) (s t : State), exec i s = .next t →
    (i.op ≠ .clr → i.op ≠ .ldf → ∀ sym, readFreq t sym = readFreq s sym) ∧
    (i.op ≠ .build → (∀ p, readPq t p = readPq s p) ∧ t.pqn = s.pqn) ∧
    (i.op ≠ .dstart → i.op ≠ .dbit → t.cur = s.cur) ∧
    (i.op ≠ .clr → i.op ≠ .ldf → i.op ≠ .build → t.ts = s.ts ∧ t.nleaf = s.nleaf ∧ (i.op ≠ .gen → t.cs = s.cs)) ∧
    ((i.op = .gen ∨ i.op = .lkup ∨ i.op = .rdf ∨ i.op = .rds) → t.dst = s.dst ∧ t.derr = s.derr)

/-- (derived from 10_state.md R22, 20_memory.md R61, 42_code_table.md R166) No command is ever refused; only GEN, DSTART and
DBIT can fault. DSTART faults exactly on a SINGLE tree whose root is 511, DBIT exactly in RUN on a good token when CUR or
the chosen child is 511, each as noSuchNode; GEN faults exactly when there is a tree to read and reading it stops. That
reading stops as noSuchNode only where a path of at most 255 branches leads to 511, as codeTooLong only where one of 255
branches leads to a node with a child. These stops are the model's choice (logs 5 and 6), in states no run from reset
reaches. -/
def Obligations.StopsOnlyOffTheTree : Prop :=
  (∀ (i : Instr) (s : State) (q : Refusal), exec i s ≠ .refused q) ∧
  (∀ (i : Instr) (s : State) (e : Fault), exec i s = .fault e → i.op = .gen ∨ i.op = .dstart ∨ i.op = .dbit) ∧
  (∀ (s : State) (e : Fault), exec .dstart s = .fault e ↔ e = .noSuchNode ∧ s.ts = .single ∧ s.root = 511) ∧
  (∀ (s : State) (tok : BitVec 8) (e : Fault), exec (.dbit tok) s = .fault e ↔ e = .noSuchNode ∧ s.dst = .run ∧
    ∃ bit, tokenBit tok = some bit ∧ (s.cur = 511 ∨ ∃ n, readNode s s.cur = some n ∧ childOf n bit = 511)) ∧
  (∀ (s : State) (e : Fault), exec .gen s = .fault e ↔ (s.ts = .single ∨ s.ts = .multi) ∧ treeAt s s.root = .error e) ∧
  (∀ (s : State) (i : Idx), treeAt s i = .error .noSuchNode → ∃ p, p.length ≤ 255 ∧ followIdx s i p = some 511) ∧
  (∀ (s : State) (i : Idx), treeAt s i = .error .codeTooLong →
    ∃ p j n, p.length = 255 ∧ followIdx s i p = some j ∧ readNode s j = some n ∧ isLeaf n = false)

/-! ### Invariants -/

/-- (derived from 20_memory.md R60, 10_state.md R23) In every state, reachable or not, if the four memories have their
canonical form (indices rising and in range, no zero count listed) and the step answers a next state, they have it there.
(The form is the model's, log 13.) -/
def Obligations.MemoriesKeepTheirCanonicalForm : Prop :=
  ∀ s t : State, MemoriesOk s → step s = .next t → MemoriesOk t

/-- (derived from 10_state.md R33, 10_state.md R34) In every state, if none of the impossible combinations of TS, CS, DST,
DERR and NLEAF holds and the step answers a next state, none holds there. -/
def Obligations.StatusCombinationsAreKept : Prop :=
  ∀ s t : State, StatusOk s → step s = .next t → StatusOk t

/-- (derived from 10_state.md R34, 10_state.md R36, 10_state.md R37, 10_state.md R38, 20_memory.md R71, 44_decoder.md R212)
In every state that meets the invariant, if the step answers a next state, that state meets it: at every command boundary
the tree is the one built from the present FREQ, the code table the one derived from the present tree, and a running decode
stands at an internal node. -/
def Obligations.EngineInvariantIsKeptByEveryStep : Prop :=
  ∀ s t : State, EngineOk s → step s = .next t → EngineOk t

/-- (derived from 10_state.md R38, 10_state.md R39) The reset state meets the invariant; and in every state whatever, when
the reset input comes next, the step answers a state that meets it. -/
def Obligations.ResetMeetsTheInvariant : Prop :=
  EngineOk State.reset ∧
  ∀ (s : State) (rest : List HostInput), s.pending = .reset :: rest → ∃ t, step s = .next t ∧ EngineOk t

/-- (states R240) In every state that meets the invariant the step answers a next state, never a fault or a refusal; if a
command word was taken, exactly one response is given, and if its rc is not OK every other field of it is zero. -/
def Obligations.EngineNeverStopsAcceptingCommands : Prop :=
  ∀ s : State, EngineOk s → SafeStep s ∧
    ∀ w rest, s.pending = .command w :: rest → ∃ t r, step s = .next t ∧ t.resps = s.resps ++ [r] ∧ t.pending = rest ∧
      (r.rc ≠ .ok → r = { rc := r.rc })

/-! ### Host functions -/

/-- (derived from 43_host_functions.md R181, 43_host_functions.md R182, 43_host_functions.md R183, 90_conflicts.md C4) For
every table of counts, parseHeader of the text of its header is the header's pairs, and the table those pairs stand for is
the table. Written as a line before any bytes, the text is what stands before the first newline, and the bytes are what
follows it. (The newline's byte is log 18.) -/
def Obligations.HeaderTextParsesBack : Prop :=
  ∀ f : Sym8 → Nat, parseHeader (headerText (headerOf f)) = .ok (headerOf f) ∧ (∀ sym, tableOf (headerOf f) sym = f sym) ∧
    ∀ rest, splitLine (headerLine (headerText (headerOf f)) ++ rest) = (textBytes (headerText (headerOf f)), rest) ∧
      bytesText (textBytes (headerText (headerOf f))) = headerText (headerOf f)

/-- (derived from 43_host_functions.md R184) For every header text: parseHeader answers MalformedHeader if and only if the
number of tokens is odd, or some token is not a non-negative integer, or a token in a symbol's place is 256 or more; it has
no other error, the decoding job ends with it, and no response of the engine ever carries it. (What a token is, and which
tokens are non-negative integers, is the model's reading, log 11.) -/
def Obligations.MalformedHeaderExactly : Prop :=
  ∀ text : List Char,
    (parseHeader text = .error .malformedHeader ↔
      (headerTokens text).length % 2 = 1 ∨ (∃ tok ∈ headerTokens text, parseNumber tok = none) ∨
      ∃ k tok n, (headerTokens text)[2 * k]? = some tok ∧ parseNumber tok = some n ∧ 256 ≤ n) ∧
    (∀ e, parseHeader text = .error e → e = .malformedHeader ∧ ∀ toks s, decodeFile text toks s = .error .malformedHeader) ∧
    (∀ s t w rest r, s.pending = .command w :: rest → step s = .next t → t.resps = s.resps ++ [r] → r.rc ≠ .malformedHeader)

/-- (derived from 30_encoding.md R95, 43_host_functions.md R190, 43_host_functions.md R194) For every list of pairs: if some
count is 2^32 or more the host refuses the job; otherwise issuing the commands of LOADHDR in any state runs to the end with
OK and every count then reads as the pairs say, zero where a symbol is not mentioned. In every state that meets the
invariant CODEBOOK with TS not NONE gives 257 responses: OK for GEN, then for each symbol its code or UnknownSymbol; in
every state with TS = NONE it stops at the BadSequence of GEN; and with TS = EMPTY DECODE stops after EmptyTree with empty
output. -/
def Obligations.LoadHeaderLoadsAndCodebookReadsTheTable : Prop :=
  (∀ h : List (Sym8 × Nat),
    ((∃ p ∈ h, 2 ^ 32 ≤ p.2) → loadHeader h = .error .countTooLarge) ∧
    ((∀ p ∈ h, p.2 < 2 ^ 32) → ∃ load, loadHeader h = .ok load ∧ ∀ s, ∃ rs t, runUntilError load s = some (rs, .ok, t) ∧
      ∀ sym, (readFreq t sym).toNat = tableOf h sym)) ∧
  (∀ s : State, EngineOk s → s.ts ≠ .none → ∃ rs t, runCodebook s = some (rs, .ok, t) ∧ rs.length = 257 ∧ rs[0]? = some ({} : Resp) ∧
    ∀ sym : Sym8, rs[sym.toNat + 1]? = some (if (readCode t sym).v then
      { len := (readCode t sym).len, code := (readCode t sym).bits } else { rc := .unknownSymbol })) ∧
  (∀ s : State, s.ts = .none → ∃ t, runCodebook s = some ([{ rc := .badSequence }], .badSequence, t)) ∧
  (∀ (s : State) (toks : List (BitVec 8)), s.ts = .empty → ∃ rs t,
    runUntilError (decodeCommands toks) s = some (rs, .emptyTree, t) ∧ rs = [({ rc := .emptyTree } : Resp)] ∧ decodedOutput rs = [])

/-- (derived from 43_host_functions.md R181, 40_table_commands.md R113) In every state the pairs a host keeps from RDF 0 to
RDF 255, those with a nonzero count in ascending symbol order, are the header of the engine's table. -/
def Obligations.EngineHeaderIsTheHeaderOfTheTable : Prop :=
  ∀ s : State, readHeader s = some (headerOf fun sym => (readFreq s sym).toNat)

/-- (derived from 43_host_functions.md R182, 43_host_functions.md R187, 43_host_functions.md R188, 43_host_functions.md
R189, 43_host_functions.md R191, 43_host_functions.md R192) For every byte sequence b in which no byte value occurs 2^32
times or more (the empty one and a repeated single byte included), encoding it with an engine in any state succeeds, and
decoding the header and the payload tokens with an engine in any state gives b; so does the file of the header line and the
payload tokens. A header whose pairs the engine can hold and whose counts come out all zero decodes to the empty output when
it has no pair, and else ends with EmptyTree. (The file is log 18, the header with pairs log 11.) -/
def Obligations.DecodingTheEncodedFileGivesItBack : Prop :=
  (∀ b : List Sym8, (∀ sym, freqScan b sym < 2 ^ 32) → ∀ s : State, ∃ h p, encodeFile b s = .ok (h, p) ∧
    (∀ s' : State, decodeFile h (p.map tokenOf) s' = .ok b) ∧
    ∃ file, encodeToFile b s = .ok file ∧ file = headerLine h ++ p.map tokenOf ∧ ∀ s' : State, decodeFromFile file s' = .ok b) ∧
  (∀ text h toks s, parseHeader text = .ok h → (∀ p ∈ h, p.2 < 2 ^ 32) → (∀ sym, tableOf h sym = 0) →
    decodeFile text toks s = if h = [] then .ok [] else .error (.engine .emptyTree))
end

