-- ==== Sys2Proof/Laws/State.lean ====
section
/-! SUPPORT. One lemma per field for each update of State (Machine/Flags.lean, Machine/Ops.lean), so that no proof unfolds a record update. -/

namespace Sys2Proof.Machine

/-! ### `respond` -/

@[simp] theorem respond_freq (r : Resp) (s : State) : (respond r s).freq = s.freq := rfl
@[simp] theorem respond_node (r : Resp) (s : State) : (respond r s).node = s.node := rfl
@[simp] theorem respond_pq (r : Resp) (s : State) : (respond r s).pq = s.pq := rfl
@[simp] theorem respond_pqn (r : Resp) (s : State) : (respond r s).pqn = s.pqn := rfl
@[simp] theorem respond_code (r : Resp) (s : State) : (respond r s).code = s.code := rfl
@[simp] theorem respond_root (r : Resp) (s : State) : (respond r s).root = s.root := rfl
@[simp] theorem respond_cur (r : Resp) (s : State) : (respond r s).cur = s.cur := rfl
@[simp] theorem respond_nleaf (r : Resp) (s : State) : (respond r s).nleaf = s.nleaf := rfl
@[simp] theorem respond_ts (r : Resp) (s : State) : (respond r s).ts = s.ts := rfl
@[simp] theorem respond_cs (r : Resp) (s : State) : (respond r s).cs = s.cs := rfl
@[simp] theorem respond_dst (r : Resp) (s : State) : (respond r s).dst = s.dst := rfl
@[simp] theorem respond_derr (r : Resp) (s : State) : (respond r s).derr = s.derr := rfl
@[simp] theorem respond_era (r : Resp) (s : State) : (respond r s).era = s.era := rfl
@[simp] theorem respond_pending (r : Resp) (s : State) : (respond r s).pending = s.pending := rfl
@[simp] theorem respond_resps (r : Resp) (s : State) : (respond r s).resps = s.resps ++ [r] := rfl

/-! ### `invalidate` -/

@[simp] theorem invalidate_freq (s : State) : (invalidate s).freq = s.freq := rfl
@[simp] theorem invalidate_node (s : State) : (invalidate s).node = s.node := rfl
@[simp] theorem invalidate_pq (s : State) : (invalidate s).pq = s.pq := rfl
@[simp] theorem invalidate_pqn (s : State) : (invalidate s).pqn = s.pqn := rfl
@[simp] theorem invalidate_code (s : State) : (invalidate s).code = s.code := rfl
@[simp] theorem invalidate_root (s : State) : (invalidate s).root = s.root := rfl
@[simp] theorem invalidate_cur (s : State) : (invalidate s).cur = s.cur := rfl
@[simp] theorem invalidate_nleaf (s : State) : (invalidate s).nleaf = 0 := rfl
@[simp] theorem invalidate_ts (s : State) : (invalidate s).ts = .none := rfl
@[simp] theorem invalidate_cs (s : State) : (invalidate s).cs = false := rfl
@[simp] theorem invalidate_dst (s : State) : (invalidate s).dst = .idle := rfl
@[simp] theorem invalidate_derr (s : State) : (invalidate s).derr = 0 := rfl
@[simp] theorem invalidate_era (s : State) : (invalidate s).era = s.era := rfl
@[simp] theorem invalidate_pending (s : State) : (invalidate s).pending = s.pending := rfl
@[simp] theorem invalidate_resps (s : State) : (invalidate s).resps = s.resps := rfl

/-! ### `dropDerived` -/

@[simp] theorem dropDerived_freq (s : State) : (dropDerived s).freq = s.freq := rfl
@[simp] theorem dropDerived_node (s : State) : (dropDerived s).node = s.node := rfl
@[simp] theorem dropDerived_pq (s : State) : (dropDerived s).pq = s.pq := rfl
@[simp] theorem dropDerived_pqn (s : State) : (dropDerived s).pqn = s.pqn := rfl
@[simp] theorem dropDerived_code (s : State) : (dropDerived s).code = s.code := rfl
@[simp] theorem dropDerived_root (s : State) : (dropDerived s).root = s.root := rfl
@[simp] theorem dropDerived_cur (s : State) : (dropDerived s).cur = s.cur := rfl
@[simp] theorem dropDerived_nleaf (s : State) : (dropDerived s).nleaf = s.nleaf := rfl
@[simp] theorem dropDerived_ts (s : State) : (dropDerived s).ts = s.ts := rfl
@[simp] theorem dropDerived_cs (s : State) : (dropDerived s).cs = false := rfl
@[simp] theorem dropDerived_dst (s : State) : (dropDerived s).dst = .idle := rfl
@[simp] theorem dropDerived_derr (s : State) : (dropDerived s).derr = 0 := rfl
@[simp] theorem dropDerived_era (s : State) : (dropDerived s).era = s.era := rfl
@[simp] theorem dropDerived_pending (s : State) : (dropDerived s).pending = s.pending := rfl
@[simp] theorem dropDerived_resps (s : State) : (dropDerived s).resps = s.resps := rfl

/-! ### `setDecoder` -/

@[simp] theorem setDecoder_freq (d : DecState) (s : State) : (setDecoder d s).freq = s.freq := rfl
@[simp] theorem setDecoder_node (d : DecState) (s : State) : (setDecoder d s).node = s.node := rfl
@[simp] theorem setDecoder_pq (d : DecState) (s : State) : (setDecoder d s).pq = s.pq := rfl
@[simp] theorem setDecoder_pqn (d : DecState) (s : State) : (setDecoder d s).pqn = s.pqn := rfl
@[simp] theorem setDecoder_code (d : DecState) (s : State) : (setDecoder d s).code = s.code := rfl
@[simp] theorem setDecoder_root (d : DecState) (s : State) : (setDecoder d s).root = s.root := rfl
@[simp] theorem setDecoder_cur (d : DecState) (s : State) : (setDecoder d s).cur = s.cur := rfl
@[simp] theorem setDecoder_nleaf (d : DecState) (s : State) : (setDecoder d s).nleaf = s.nleaf := rfl
@[simp] theorem setDecoder_ts (d : DecState) (s : State) : (setDecoder d s).ts = s.ts := rfl
@[simp] theorem setDecoder_cs (d : DecState) (s : State) : (setDecoder d s).cs = s.cs := rfl
@[simp] theorem setDecoder_dst (d : DecState) (s : State) : (setDecoder d s).dst = d := rfl
@[simp] theorem setDecoder_derr (d : DecState) (s : State) : (setDecoder d s).derr = 0 := rfl
@[simp] theorem setDecoder_era (d : DecState) (s : State) : (setDecoder d s).era = s.era := rfl
@[simp] theorem setDecoder_pending (d : DecState) (s : State) : (setDecoder d s).pending = s.pending := rfl
@[simp] theorem setDecoder_resps (d : DecState) (s : State) : (setDecoder d s).resps = s.resps := rfl

/-! ### `haltDecoder` -/

@[simp] theorem haltDecoder_freq (e : ResultCode) (s : State) : (haltDecoder e s).freq = s.freq := rfl
@[simp] theorem haltDecoder_node (e : ResultCode) (s : State) : (haltDecoder e s).node = s.node := rfl
@[simp] theorem haltDecoder_pq (e : ResultCode) (s : State) : (haltDecoder e s).pq = s.pq := rfl
@[simp] theorem haltDecoder_pqn (e : ResultCode) (s : State) : (haltDecoder e s).pqn = s.pqn := rfl
@[simp] theorem haltDecoder_code (e : ResultCode) (s : State) : (haltDecoder e s).code = s.code := rfl
@[simp] theorem haltDecoder_root (e : ResultCode) (s : State) : (haltDecoder e s).root = s.root := rfl
@[simp] theorem haltDecoder_cur (e : ResultCode) (s : State) : (haltDecoder e s).cur = s.cur := rfl
@[simp] theorem haltDecoder_nleaf (e : ResultCode) (s : State) : (haltDecoder e s).nleaf = s.nleaf := rfl
@[simp] theorem haltDecoder_ts (e : ResultCode) (s : State) : (haltDecoder e s).ts = s.ts := rfl
@[simp] theorem haltDecoder_cs (e : ResultCode) (s : State) : (haltDecoder e s).cs = s.cs := rfl
@[simp] theorem haltDecoder_dst (e : ResultCode) (s : State) : (haltDecoder e s).dst = .halt := rfl
@[simp] theorem haltDecoder_derr (e : ResultCode) (s : State) : (haltDecoder e s).derr = rcCode e := rfl
@[simp] theorem haltDecoder_era (e : ResultCode) (s : State) : (haltDecoder e s).era = s.era := rfl
@[simp] theorem haltDecoder_pending (e : ResultCode) (s : State) : (haltDecoder e s).pending = s.pending := rfl
@[simp] theorem haltDecoder_resps (e : ResultCode) (s : State) : (haltDecoder e s).resps = s.resps := rfl

/-! ### `clearFreq` -/

@[simp] theorem clearFreq_freq (s : State) : (clearFreq s).freq = [] := rfl
@[simp] theorem clearFreq_node (s : State) : (clearFreq s).node = s.node := rfl
@[simp] theorem clearFreq_pq (s : State) : (clearFreq s).pq = s.pq := rfl
@[simp] theorem clearFreq_pqn (s : State) : (clearFreq s).pqn = s.pqn := rfl
@[simp] theorem clearFreq_code (s : State) : (clearFreq s).code = s.code := rfl
@[simp] theorem clearFreq_root (s : State) : (clearFreq s).root = s.root := rfl
@[simp] theorem clearFreq_cur (s : State) : (clearFreq s).cur = s.cur := rfl
@[simp] theorem clearFreq_nleaf (s : State) : (clearFreq s).nleaf = s.nleaf := rfl
@[simp] theorem clearFreq_ts (s : State) : (clearFreq s).ts = s.ts := rfl
@[simp] theorem clearFreq_cs (s : State) : (clearFreq s).cs = s.cs := rfl
@[simp] theorem clearFreq_dst (s : State) : (clearFreq s).dst = s.dst := rfl
@[simp] theorem clearFreq_derr (s : State) : (clearFreq s).derr = s.derr := rfl
@[simp] theorem clearFreq_era (s : State) : (clearFreq s).era = s.era := rfl
@[simp] theorem clearFreq_pending (s : State) : (clearFreq s).pending = s.pending := rfl
@[simp] theorem clearFreq_resps (s : State) : (clearFreq s).resps = s.resps := rfl

/-! ### `writeFreq` -/

@[simp] theorem writeFreq_freq (sym : Sym8) (cnt : Count) (s : State) : (writeFreq sym cnt s).freq = setCount (symKey sym) cnt s.freq := rfl
@[simp] theorem writeFreq_node (sym : Sym8) (cnt : Count) (s : State) : (writeFreq sym cnt s).node = s.node := rfl
@[simp] theorem writeFreq_pq (sym : Sym8) (cnt : Count) (s : State) : (writeFreq sym cnt s).pq = s.pq := rfl
@[simp] theorem writeFreq_pqn (sym : Sym8) (cnt : Count) (s : State) : (writeFreq sym cnt s).pqn = s.pqn := rfl
@[simp] theorem writeFreq_code (sym : Sym8) (cnt : Count) (s : State) : (writeFreq sym cnt s).code = s.code := rfl
@[simp] theorem writeFreq_root (sym : Sym8) (cnt : Count) (s : State) : (writeFreq sym cnt s).root = s.root := rfl
@[simp] theorem writeFreq_cur (sym : Sym8) (cnt : Count) (s : State) : (writeFreq sym cnt s).cur = s.cur := rfl
@[simp] theorem writeFreq_nleaf (sym : Sym8) (cnt : Count) (s : State) : (writeFreq sym cnt s).nleaf = s.nleaf := rfl
@[simp] theorem writeFreq_ts (sym : Sym8) (cnt : Count) (s : State) : (writeFreq sym cnt s).ts = s.ts := rfl
@[simp] theorem writeFreq_cs (sym : Sym8) (cnt : Count) (s : State) : (writeFreq sym cnt s).cs = s.cs := rfl
@[simp] theorem writeFreq_dst (sym : Sym8) (cnt : Count) (s : State) : (writeFreq sym cnt s).dst = s.dst := rfl
@[simp] theorem writeFreq_derr (sym : Sym8) (cnt : Count) (s : State) : (writeFreq sym cnt s).derr = s.derr := rfl
@[simp] theorem writeFreq_era (sym : Sym8) (cnt : Count) (s : State) : (writeFreq sym cnt s).era = s.era := rfl
@[simp] theorem writeFreq_pending (sym : Sym8) (cnt : Count) (s : State) : (writeFreq sym cnt s).pending = s.pending := rfl
@[simp] theorem writeFreq_resps (sym : Sym8) (cnt : Count) (s : State) : (writeFreq sym cnt s).resps = s.resps := rfl

/-! ### `pushInput` -/

@[simp] theorem pushInput_freq (x : HostInput) (s : State) : (pushInput x s).freq = s.freq := rfl
@[simp] theorem pushInput_node (x : HostInput) (s : State) : (pushInput x s).node = s.node := rfl
@[simp] theorem pushInput_pq (x : HostInput) (s : State) : (pushInput x s).pq = s.pq := rfl
@[simp] theorem pushInput_pqn (x : HostInput) (s : State) : (pushInput x s).pqn = s.pqn := rfl
@[simp] theorem pushInput_code (x : HostInput) (s : State) : (pushInput x s).code = s.code := rfl
@[simp] theorem pushInput_root (x : HostInput) (s : State) : (pushInput x s).root = s.root := rfl
@[simp] theorem pushInput_cur (x : HostInput) (s : State) : (pushInput x s).cur = s.cur := rfl
@[simp] theorem pushInput_nleaf (x : HostInput) (s : State) : (pushInput x s).nleaf = s.nleaf := rfl
@[simp] theorem pushInput_ts (x : HostInput) (s : State) : (pushInput x s).ts = s.ts := rfl
@[simp] theorem pushInput_cs (x : HostInput) (s : State) : (pushInput x s).cs = s.cs := rfl
@[simp] theorem pushInput_dst (x : HostInput) (s : State) : (pushInput x s).dst = s.dst := rfl
@[simp] theorem pushInput_derr (x : HostInput) (s : State) : (pushInput x s).derr = s.derr := rfl
@[simp] theorem pushInput_era (x : HostInput) (s : State) : (pushInput x s).era = s.era := rfl
@[simp] theorem pushInput_pending (x : HostInput) (s : State) : (pushInput x s).pending = x :: s.pending := rfl
@[simp] theorem pushInput_resps (x : HostInput) (s : State) : (pushInput x s).resps = s.resps := rfl

/-! ### `assertReset` -/

@[simp] theorem assertReset_freq (s : State) : (assertReset s).freq = [] := rfl
@[simp] theorem assertReset_node (s : State) : (assertReset s).node = [] := rfl
@[simp] theorem assertReset_pq (s : State) : (assertReset s).pq = [] := rfl
@[simp] theorem assertReset_pqn (s : State) : (assertReset s).pqn = Config.resetIndex := rfl
@[simp] theorem assertReset_code (s : State) : (assertReset s).code = [] := rfl
@[simp] theorem assertReset_root (s : State) : (assertReset s).root = Config.resetIndex := rfl
@[simp] theorem assertReset_cur (s : State) : (assertReset s).cur = Config.resetIndex := rfl
@[simp] theorem assertReset_nleaf (s : State) : (assertReset s).nleaf = 0 := rfl
@[simp] theorem assertReset_ts (s : State) : (assertReset s).ts = .none := rfl
@[simp] theorem assertReset_cs (s : State) : (assertReset s).cs = false := rfl
@[simp] theorem assertReset_dst (s : State) : (assertReset s).dst = .idle := rfl
@[simp] theorem assertReset_derr (s : State) : (assertReset s).derr = 0 := rfl
@[simp] theorem assertReset_era (s : State) : (assertReset s).era = s.era + 1 := rfl
@[simp] theorem assertReset_pending (s : State) : (assertReset s).pending = s.pending := rfl
@[simp] theorem assertReset_resps (s : State) : (assertReset s).resps = [] := rfl

end Sys2Proof.Machine
end

