-- ==== Sys2Proof/Laws/Memory.lean ====
section
/-! SUPPORT. The laws of the memories: a read after a write, the canonical form, and the reads of FREQ, NODE, CODE and PQ across the updates
of State. -/

namespace Sys2Proof.Machine

section
variable {α : Type}

theorem memLookup_insert_same (k : Nat) (v : α) (m : Memory α) : memLookup (memInsert k v m) k = some v := by
  induction m with
  | nil => simp [memInsert, memLookup]
  | cons c m ih =>
    obtain ⟨j, u⟩ := c
    simp only [memInsert]
    split
    · simp [memLookup]
    · split
      · simp [memLookup]
      · rename_i _ hne
        simp [memLookup, ih, Ne.symm hne]

theorem memLookup_insert_other {k k' : Nat} (h : k' ≠ k) (v : α) (m : Memory α) :
    memLookup (memInsert k v m) k' = memLookup m k' := by
  induction m with
  | nil => simp [memInsert, memLookup, Ne.symm h]
  | cons c m ih =>
    obtain ⟨j, u⟩ := c
    simp only [memInsert]
    split
    · simp [memLookup, Ne.symm h]
    · split
      · rename_i _ hkj
        subst hkj
        simp [memLookup, Ne.symm h]
      · simp [memLookup, ih]

/-- A read after a write (one law for both places). -/
theorem memLookup_insert (k k' : Nat) (v : α) (m : Memory α) :
    memLookup (memInsert k v m) k' = if k' = k then some v else memLookup m k' := by
  split
  · subst k'; exact memLookup_insert_same k v m
  · rename_i h; exact memLookup_insert_other h v m

theorem memLookup_erase (k k' : Nat) (m : Memory α) :
    memLookup (memErase k m) k' = if k' = k then none else memLookup m k' := by
  induction m with
  | nil => simp [memErase, memLookup]
  | cons c m ih =>
    obtain ⟨j, u⟩ := c
    simp only [memErase] at ih ⊢
    by_cases hj : j = k
    · subst hj
      simp only [List.filter, bne_self_eq_false, ih, memLookup]
      by_cases hk : k' = j
      · simp [hk]
      · simp [hk, Ne.symm hk]
    · have hb : (j != k) = true := by simp [hj]
      simp only [List.filter, hb, memLookup, ih]
      by_cases hk : k' = k
      · subst hk; simp [hj]
      · simp [hk]

/-- An index that the list does not hold reads as nothing. -/
theorem memLookup_eq_none {m : Memory α} {k : Nat} (h : ∀ c ∈ m, c.1 ≠ k) : memLookup m k = none := by
  induction m with
  | nil => rfl
  | cons c m ih =>
    obtain ⟨j, u⟩ := c
    have hj : j ≠ k := h (j, u) (by simp)
    simp only [memLookup, hj, if_false]
    exact ih fun c hc => h c (by simp [hc])

/-- What a lookup finds stands in the list. -/
theorem mem_of_memLookup {m : Memory α} {k : Nat} {v : α} (h : memLookup m k = some v) : (k, v) ∈ m := by
  induction m with
  | nil => simp [memLookup] at h
  | cons c m ih =>
    obtain ⟨j, u⟩ := c
    simp only [memLookup] at h
    split at h
    · rename_i hj; subst hj; simp_all
    · exact List.mem_cons_of_mem _ (ih h)

/-- In a list with rising indices an entry is what its index reads as. -/
theorem memLookup_of_mem {m : Memory α} (hp : m.Pairwise (fun a b => a.1 < b.1)) {k : Nat} {v : α} (h : (k, v) ∈ m) :
    memLookup m k = some v := by
  induction m with
  | nil => simp at h
  | cons c m ih =>
    obtain ⟨j, u⟩ := c
    rw [List.pairwise_cons] at hp
    rcases List.mem_cons.1 h with h | h
    · injection h with h1 h2; subst h1; subst h2; simp [memLookup]
    · have := hp.1 _ h
      have hj : j ≠ k := by simp only at this; omega
      simp only [memLookup, hj, if_false]
      exact ih hp.2 h

theorem mem_memInsert {c : Nat × α} {k : Nat} {v : α} {m : Memory α} (h : c ∈ memInsert k v m) : c = (k, v) ∨ c ∈ m := by
  induction m with
  | nil => simpa [memInsert] using h
  | cons d m ih =>
    obtain ⟨j, u⟩ := d
    simp only [memInsert] at h
    split at h
    · simpa using h
    · split at h
      · rcases List.mem_cons.1 h with h | h <;> simp [h]
      · rcases List.mem_cons.1 h with h | h
        · simp [h]
        · rcases ih h with h | h <;> simp [h]

/-! ### The canonical form is kept -/

theorem memInsert_rising (k : Nat) (v : α) {m : Memory α} (hp : m.Pairwise (fun a b => a.1 < b.1)) :
    (memInsert k v m).Pairwise (fun a b => a.1 < b.1) := by
  induction m with
  | nil => simp [memInsert]
  | cons c m ih =>
    obtain ⟨j, u⟩ := c
    have hp' := List.pairwise_cons.1 hp
    simp only [memInsert]
    split
    · rename_i hkj
      refine List.pairwise_cons.2 ⟨fun d hd => ?_, hp⟩
      rcases List.mem_cons.1 hd with hd | hd
      · subst hd; exact hkj
      · exact Nat.lt_trans hkj (hp'.1 d hd)
    · split
      · rename_i _ hkj
        subst hkj
        exact List.pairwise_cons.2 ⟨hp'.1, hp'.2⟩
      · rename_i h1 h2
        refine List.pairwise_cons.2 ⟨fun d hd => ?_, ih hp'.2⟩
        rcases mem_memInsert hd with hd | hd
        · subst hd; simp only; omega
        · exact hp'.1 d hd

theorem memInsert_wf {size k : Nat} {dflt : Option α} {v : α} {m : Memory α} (hk : k < size) (hv : some v ≠ dflt)
    (h : Memory.wf size dflt m) : Memory.wf size dflt (memInsert k v m) := by
  refine ⟨memInsert_rising k v h.1, fun c hc => ?_⟩
  rcases mem_memInsert hc with hc | hc
  · subst hc; exact ⟨hk, hv⟩
  · exact h.2 c hc

theorem memErase_wf {size k : Nat} {dflt : Option α} {m : Memory α} (h : Memory.wf size dflt m) :
    Memory.wf size dflt (memErase k m) :=
  ⟨h.1.filter _, fun c hc => h.2 c (List.mem_of_mem_filter hc)⟩

theorem nil_wf {size : Nat} {dflt : Option α} : Memory.wf size dflt ([] : Memory α) := by simp [Memory.wf]

end

theorem setCount_wf {k : Nat} (cnt : Count) {f : Memory Count} (hk : k < 256) (h : Memory.wf 256 (some 0) f) :
    Memory.wf 256 (some 0) (setCount k cnt f) := by
  unfold setCount
  split
  · exact memErase_wf h
  · rename_i hc
    exact memInsert_wf hk (fun he => hc (Option.some.inj he)) h

theorem symKey_lt (sym : Sym8) : symKey sym < 256 := sym.isLt

theorem symKey_inj {a b : Sym8} : symKey a = symKey b ↔ a = b := BitVec.toNat_inj

theorem idxKey_inj {i j : Idx} : idxKey i = idxKey j ↔ i = j := BitVec.toNat_inj

/-! ### Reads of FREQ -/

@[simp] theorem countAt_nil (k : Nat) : countAt [] k = 0 := rfl

/-- The counts after one is written, in every table (R112). -/
theorem countAt_setCount (k k' : Nat) (cnt : Count) (f : Memory Count) :
    countAt (setCount k cnt f) k' = if k' = k then cnt else countAt f k' := by
  unfold countAt setCount
  by_cases hc : cnt = 0
  · simp only [hc, if_true, memLookup_erase]
    split <;> simp
  · simp only [hc, if_false, memLookup_insert]
    split <;> simp

@[simp] theorem readFreq_clearFreq (sym : Sym8) (s : State) : readFreq (clearFreq s) sym = 0 := rfl

theorem readFreq_writeFreq (sym x : Sym8) (cnt : Count) (s : State) :
    readFreq (writeFreq sym cnt s) x = if x = sym then cnt else readFreq s x := by
  simp only [readFreq, writeFreq, countAt_setCount, symKey_inj]

/-! ### Reads across the updates of State: a read depends on its own memory (and the era) only -/

theorem readFreq_congr {s t : State} (h : t.freq = s.freq) (sym : Sym8) : readFreq t sym = readFreq s sym := by
  simp [readFreq, h]

theorem readNode_congr {s t : State} (h : t.node = s.node) (he : t.era = s.era) (i : Idx) : readNode t i = readNode s i := by
  simp [readNode, h, he]

theorem readCode_congr {s t : State} (h : t.code = s.code) (he : t.era = s.era) (sym : Sym8) :
    readCode t sym = readCode s sym := by
  simp [readCode, h, he]

theorem readPq_congr {s t : State} (h : t.pq = s.pq) (he : t.era = s.era) (p : Nat) : readPq t p = readPq s p := by
  simp [readPq, h, he]

/-- `NODE` has an entry at every index but 511 (R22). -/
theorem readNode_eq_none {s : State} {i : Idx} : readNode s i = none ↔ i = 511 := by
  have hi : i.toNat < 512 := i.isLt
  have h511 : i = 511 ↔ i.toNat = 511 := by
    rw [← BitVec.toNat_inj]; rfl
  unfold readNode nodeEntry idxKey Config.nnode
  rw [h511]
  split <;> simp <;> omega

/-- A listed entry is what `NODE` reads there. -/
theorem readNode_of_lookup {s : State} {i : Idx} {n : Node} (hi : i ≠ 511) (h : memLookup s.node (idxKey i) = some n) :
    readNode s i = some n := by
  cases hr : readNode s i with
  | none => exact absurd (readNode_eq_none.1 hr) hi
  | some m =>
    unfold readNode nodeEntry at hr
    split at hr
    · simpa [h] using hr.symm
    · simp at hr

end Sys2Proof.Machine
end

