-- ==== Sys2Proof/Laws/Builder.lean ====
section
/-! SUPPORT. The laws of the tree builder: the comparator, the leaves, the working collection, the merges, the entries a build writes. -/

namespace Sys2Proof.Machine

/-! ### The comparator -/

/-- R131 on numbers. -/
theorem comesBefore_iff {a b : Node} :
    comesBefore a b = true ↔ a.w.toNat < b.w.toNat ∨ (a.w = b.w ∧ a.rs.toNat < b.rs.toNat) := by
  simp [comesBefore, BitVec.lt_def]

/-! ### The working collection -/

theorem insertItem_perm (x : Item) (q : List Item) : (insertItem x q).Perm (x :: q) := by
  induction q with
  | nil => exact List.Perm.refl _
  | cons y q ih =>
    simp only [insertItem]
    split
    · exact List.Perm.refl _
    · exact (ih.cons y).trans (List.Perm.swap x y q)

@[simp] theorem insertItem_length (x : Item) (q : List Item) : (insertItem x q).length = q.length + 1 := by
  simpa using (insertItem_perm x q).length_eq

@[simp] theorem mem_insertItem {x y : Item} {q : List Item} : y ∈ insertItem x q ↔ y = x ∨ y ∈ q := by
  simpa using (insertItem_perm x q).mem_iff

theorem foldl_insertItem_perm (xs q : List Item) : (xs.foldl (fun q x => insertItem x q) q).Perm (q ++ xs) := by
  induction xs generalizing q with
  | nil => simp
  | cons x xs ih =>
    refine (ih (insertItem x q)).trans ?_
    exact ((insertItem_perm x q).append_right xs).trans List.perm_middle.symm

theorem orderItems_perm (xs : List Item) : (orderItems xs).Perm xs := by
  simpa [orderItems] using foldl_insertItem_perm xs []

/-! ### The leaves -/

theorem mem_builtLeaves {f : Memory Count} {x : Item} :
    x ∈ builtLeaves f ↔
      ∃ k, k < 256 ∧ countAt f k ≠ 0 ∧ x = (BitVec.ofNat 9 k, leafNode (BitVec.ofNat 8 k) (countAt f k)) := by
  simp only [builtLeaves, List.mem_filterMap, List.mem_range, Config.nsym]
  constructor
  · rintro ⟨k, hk, h⟩
    by_cases hc : countAt f k = 0
    · simp [hc] at h
    · rw [if_neg hc] at h
      exact ⟨k, hk, hc, (Option.some.inj h).symm⟩
  · rintro ⟨k, hk, hc, rfl⟩
    exact ⟨k, hk, by rw [if_neg hc]⟩

theorem leafCount_le (f : Memory Count) : leafCount f ≤ 256 := by
  have h := List.length_filterMap_le
    (fun k => if countAt f k = 0 then none else some (BitVec.ofNat 9 k, leafNode (BitVec.ofNat 8 k) (countAt f k)))
    (List.range 256)
  rw [List.length_range] at h
  exact h

/-- The leaves depend on the counts alone (R141). -/
theorem builtLeaves_congr {f g : Memory Count} (h : ∀ k, k < 256 → countAt f k = countAt g k) :
    builtLeaves f = builtLeaves g := by
  unfold builtLeaves
  apply List.filterMap_congr
  intro k hk
  rw [h k (by simpa [Config.nsym] using hk)]

/-! ### The merges -/

theorem mergeLoop_step (fuel k : Nat) (a b : Item) (q : List Item) :
    mergeLoop (fuel + 1) k (a :: b :: q) =
      ((BitVec.ofNat 9 (256 + k), mergeNode a b) ::
          (mergeLoop fuel (k + 1) (insertItem (BitVec.ofNat 9 (256 + k), mergeNode a b) q)).1,
        (mergeLoop fuel (k + 1) (insertItem (BitVec.ofNat 9 (256 + k), mergeNode a b) q)).2) := rfl

/-- With enough fuel the merges end with one node, one merge for each node but the last (R137). -/
theorem mergeLoop_length {fuel k : Nat} {q : List Item} (h : q.length ≤ fuel) :
    (mergeLoop fuel k q).1.length = q.length - 1 ∧ (mergeLoop fuel k q).2.length = min 1 q.length := by
  induction fuel generalizing k q with
  | zero =>
    have : q = [] := List.length_eq_zero_iff.1 (Nat.le_zero.1 h)
    subst this
    simp [mergeLoop]
  | succ fuel ih =>
    match q with
    | [] => simp [mergeLoop]
    | [a] => simp [mergeLoop]
    | a :: b :: q =>
      rw [mergeLoop_step]
      have hq : (insertItem (BitVec.ofNat 9 (256 + k), mergeNode a b) q).length ≤ fuel := by
        simp only [insertItem_length]
        simp only [List.length_cons] at h
        omega
      have := ih (k := k + 1) hq
      simp only [insertItem_length] at this
      simp only [List.length_cons, this]
      omega

/-- The merges take the indices 256 + k in turn (R23). -/
theorem mergeLoop_indices (fuel k : Nat) (q : List Item) :
    (mergeLoop fuel k q).1.map Prod.fst =
      (List.range (mergeLoop fuel k q).1.length).map fun j => BitVec.ofNat 9 (256 + (k + j)) := by
  induction fuel generalizing k q with
  | zero => simp [mergeLoop]
  | succ fuel ih =>
    match q with
    | [] => simp [mergeLoop]
    | [a] => simp [mergeLoop]
    | a :: b :: q =>
      rw [mergeLoop_step]
      simp only [List.map_cons, List.length_cons, List.range_succ_eq_map, List.map_map, ih (k + 1), Nat.add_zero]
      refine congrArg (List.cons _) (List.map_congr_left fun j _ => ?_)
      simp only [Function.comp]
      congr 1
      omega

theorem mergeRun_length (f : Memory Count) :
    (mergeRun f).1.length = leafCount f - 1 ∧ (mergeRun f).2.length = min 1 (leafCount f) := by
  have hl : (orderItems (builtLeaves f)).length = leafCount f := (orderItems_perm _).length_eq
  have := mergeLoop_length (fuel := (builtLeaves f).length) (k := 0) (q := orderItems (builtLeaves f)) (Nat.le_of_eq hl)
  rw [hl] at this
  exact this

/-- A build leaves a root exactly when some count is nonzero (R138). -/
theorem builtRoot_eq_none {f : Memory Count} : builtRoot f = none ↔ leafCount f = 0 := by
  have h := (mergeRun_length f).2
  unfold builtRoot
  generalize leafCount f = n at h ⊢
  cases hm : (mergeRun f).2 with
  | nil =>
    rw [hm, List.length_nil] at h
    simp only [List.head?_nil, Option.map_none, true_iff]
    omega
  | cons x xs =>
    rw [hm, List.length_cons] at h
    simp only [List.head?_cons, Option.map_some, reduceCtorEq, false_iff]
    omega

/-- The merges depend on the counts alone (R141). -/
theorem mergeRun_congr {f g : Memory Count} (h : ∀ k, k < 256 → countAt f k = countAt g k) : mergeRun f = mergeRun g := by
  unfold mergeRun
  rw [builtLeaves_congr h]

/-! ### The entries a build writes -/

/-- The indices of the entries a build allocates are pairwise different (R23). -/
theorem builtItems_nodup (f : Memory Count) : ((builtItems f).map fun x => idxKey x.1).Nodup := by
  have hmade := mergeLoop_indices (builtLeaves f).length 0 (orderItems (builtLeaves f))
  have hlen := (mergeRun_length f).1
  have hle := leafCount_le f
  have hkeys : (mergeRun f).1.map (fun x => idxKey x.1) = (List.range (mergeRun f).1.length).map fun j => 256 + j := by
    have h := congrArg (List.map idxKey) hmade
    rw [List.map_map, List.map_map] at h
    refine h.trans (List.map_congr_left fun j hj => ?_)
    have : j < (mergeRun f).1.length := List.mem_range.1 hj
    simp only [Function.comp, idxKey, BitVec.toNat_ofNat]
    omega
  have hleaf : (builtLeaves f).map (fun x => idxKey x.1) =
      (List.range 256).filterMap fun k => if countAt f k = 0 then none else some k := by
    unfold builtLeaves Config.nsym
    rw [List.map_filterMap]
    apply List.filterMap_congr
    intro k hk
    have : k < 256 := List.mem_range.1 hk
    by_cases hc : countAt f k = 0
    · simp [hc]
    · simp only [hc, if_false, Option.map_some, idxKey, BitVec.toNat_ofNat]
      congr 1
      omega
  unfold builtItems
  rw [List.map_append, List.nodup_append, hkeys, hleaf]
  refine ⟨?_, ?_, ?_⟩
  · refine List.Nodup.filterMap ?_ List.nodup_range
    intro a b c ha hb
    by_cases h1 : countAt f a = 0 <;> by_cases h2 : countAt f b = 0 <;> simp_all
  · refine List.Nodup.map ?_ List.nodup_range
    intro a b h
    simpa using h
  · intro a ha b hb hab
    simp only [List.mem_filterMap, List.mem_range] at ha
    simp only [List.mem_map, List.mem_range] at hb
    obtain ⟨k, hk, hk'⟩ := ha
    obtain ⟨j, hj, hj'⟩ := hb
    by_cases hc : countAt f k = 0
    · simp [hc] at hk'
    · rw [if_neg hc] at hk'
      have := Option.some.inj hk'
      omega

theorem memLookup_writeItems_other {xs : List Item} {m : Memory Node} {k : Nat} (h : ∀ x ∈ xs, idxKey x.1 ≠ k) :
    memLookup (writeItems xs m) k = memLookup m k := by
  induction xs generalizing m with
  | nil => rfl
  | cons x xs ih =>
    have hx : k ≠ idxKey x.1 := (h x (by simp)).symm
    show memLookup (writeItems xs (memInsert (idxKey x.1) x.2 m)) k = _
    rw [ih fun y hy => h y (by simp [hy]), memLookup_insert_other hx]

theorem memLookup_writeItems {xs : List Item} {m : Memory Node} (hd : (xs.map fun x => idxKey x.1).Nodup) {x : Item}
    (hx : x ∈ xs) : memLookup (writeItems xs m) (idxKey x.1) = some x.2 := by
  induction xs generalizing m with
  | nil => simp at hx
  | cons y xs ih =>
    rw [List.map_cons, List.nodup_cons] at hd
    show memLookup (writeItems xs (memInsert (idxKey y.1) y.2 m)) _ = _
    rcases List.mem_cons.1 hx with h | h
    · subst h
      rw [memLookup_writeItems_other, memLookup_insert_same]
      intro z hz he
      exact hd.1 (List.mem_map.2 ⟨z, hz, he⟩)
    · exact ih hd.2 h

/-- After a build `NODE` holds each allocated entry (R134, R136). -/
theorem memLookup_built {f : Memory Count} {m : Memory Node} {x : Item} (hx : x ∈ builtItems f) :
    memLookup (writeItems (builtItems f) m) (idxKey x.1) = some x.2 :=
  memLookup_writeItems (builtItems_nodup f) hx

theorem writeItems_wf {xs : List Item} {m : Memory Node} (hx : ∀ x ∈ xs, idxKey x.1 < 511) (h : Memory.wf 511 none m) :
    Memory.wf 511 none (writeItems xs m) := by
  induction xs generalizing m with
  | nil => exact h
  | cons x xs ih =>
    exact ih (fun y hy => hx y (by simp [hy])) (memInsert_wf (hx x (by simp)) (by simp) h)

/-- Every allocated index names an entry of `NODE` (R23, R61). -/
theorem builtItems_lt {f : Memory Count} {x : Item} (hx : x ∈ builtItems f) : idxKey x.1 < 511 := by
  have hle := leafCount_le f
  have hlen := (mergeRun_length f).1
  rcases List.mem_append.1 hx with h | h
  · obtain ⟨k, hk, -, rfl⟩ := mem_builtLeaves.1 h
    simp only [idxKey, BitVec.toNat_ofNat]
    omega
  · have hm : x.1 ∈ (mergeRun f).1.map Prod.fst := List.mem_map.2 ⟨x, h, rfl⟩
    have hi : (mergeRun f).1.map Prod.fst = _ :=
      mergeLoop_indices (builtLeaves f).length 0 (orderItems (builtLeaves f))
    rw [hi, List.mem_map] at hm
    obtain ⟨j, hj, he⟩ := hm
    have hj' : j < (mergeRun f).1.length := List.mem_range.1 hj
    rw [← he]
    simp only [idxKey, BitVec.toNat_ofNat]
    omega

end Sys2Proof.Machine
end

