-- ==== Sys2Proof/Laws/CodeTable.lean ====
section
/-! SUPPORT. The laws of the code table: the cleared table, one entry per code, the packed bits. -/

namespace Sys2Proof.Machine

theorem clearedTable_wf : Memory.wf 256 none clearedTable := by
  refine ⟨?_, fun c hc => ?_⟩
  · exact List.pairwise_map.2 List.pairwise_lt_range
  · obtain ⟨k, hk, rfl⟩ := List.mem_map.1 hc
    exact ⟨List.mem_range.1 hk, by simp⟩

theorem foldl_entries_wf (cs : List (Sym8 × List Bool)) {m : Memory CodeEntry} (h : Memory.wf 256 none m) :
    Memory.wf 256 none (cs.foldl (fun m c => memInsert (symKey c.1) (presentEntry c.2) m) m) := by
  induction cs generalizing m with
  | nil => exact h
  | cons c cs ih => exact ih (memInsert_wf (symKey_lt c.1) (by simp) h)

/-- Every table GEN writes has the canonical form (R25). -/
theorem codeTable_wf (cs : List (Sym8 × List Bool)) : Memory.wf 256 none (codeTable cs) :=
  foldl_entries_wf cs clearedTable_wf

theorem memLookup_cleared {k : Nat} (hk : k < 256) : memLookup clearedTable k = some absentEntry :=
  memLookup_of_mem clearedTable_wf.1 (List.mem_map.2 ⟨k, List.mem_range.2 hk, rfl⟩)

theorem foldl_entries_other {cs : List (Sym8 × List Bool)} {m : Memory CodeEntry} {sym : Sym8}
    (h : ∀ c ∈ cs, c.1 ≠ sym) :
    memLookup (cs.foldl (fun m c => memInsert (symKey c.1) (presentEntry c.2) m) m) (symKey sym) =
      memLookup m (symKey sym) := by
  induction cs generalizing m with
  | nil => rfl
  | cons c cs ih =>
    have hc : symKey sym ≠ symKey c.1 := fun he => h c (by simp) (symKey_inj.1 he.symm)
    rw [List.foldl_cons, ih fun d hd => h d (by simp [hd]), memLookup_insert_other hc]

/-- A symbol without a code has the absent entry (R161). -/
theorem codeTable_absent {cs : List (Sym8 × List Bool)} {sym : Sym8} (h : ∀ c ∈ cs, c.1 ≠ sym) :
    memLookup (codeTable cs) (symKey sym) = some absentEntry := by
  unfold codeTable
  rw [foldl_entries_other h, memLookup_cleared (symKey_lt sym)]

theorem foldl_entries_present {cs : List (Sym8 × List Bool)} (hd : (cs.map Prod.fst).Nodup) {m : Memory CodeEntry}
    {sym : Sym8} {p : List Bool} (h : (sym, p) ∈ cs) :
    memLookup (cs.foldl (fun m c => memInsert (symKey c.1) (presentEntry c.2) m) m) (symKey sym) = some (presentEntry p) := by
  induction cs generalizing m with
  | nil => simp at h
  | cons c cs ih =>
    rw [List.map_cons, List.nodup_cons] at hd
    rcases List.mem_cons.1 h with h | h
    · subst h
      rw [List.foldl_cons, foldl_entries_other, memLookup_insert_same]
      intro d hdm he
      exact hd.1 (List.mem_map.2 ⟨d, hdm, he⟩)
    · exact ih hd.2 h

/-- A symbol with a code has its entry, when no symbol has two codes (R160, R161). -/
theorem codeTable_present {cs : List (Sym8 × List Bool)} (hd : (cs.map Prod.fst).Nodup) {sym : Sym8} {p : List Bool}
    (h : (sym, p) ∈ cs) : memLookup (codeTable cs) (symKey sym) = some (presentEntry p) :=
  foldl_entries_present hd h

/-- The i-th bit of the number of a bit string is its i-th element. -/
theorem testBit_natOfBits (p : List Bool) (k : Nat) : (natOfBits p).testBit k = p.getD k false := by
  induction p generalizing k with
  | nil => simp [natOfBits]
  | cons b p ih =>
    have h2 : natOfBits (b :: p) = 2 * natOfBits p + b.toNat := by simp [natOfBits, Nat.add_comm]
    rw [h2]
    cases k with
    | zero => cases b <;> simp [Nat.testBit_zero]
    | succ k =>
      rw [Nat.testBit_succ]
      have : (2 * natOfBits p + b.toNat) / 2 = natOfBits p := by cases b <;> simp only [Bool.toNat_false, Bool.toNat_true] <;> omega
      rw [this, ih]
      simp

/-- `pack(c)[i]` is `c[i]`, zero past the end (R161), for a code that fits. -/
theorem getLsbD_packBits {p : List Bool} (hp : p.length ≤ 255) (k : Nat) : (packBits p).getLsbD k = p.getD k false := by
  unfold packBits
  rw [BitVec.getLsbD_ofNat, testBit_natOfBits]
  by_cases hk : k < 255
  · simp [hk]
  · have : p.length ≤ k := by omega
    rw [List.getD_eq_default _ _ this]
    simp [hk]

/-- The symbols of the derived codes are the symbols of the leaves, in order (R160). -/
theorem codes_symbols (t : CodeTree) (p : List Bool) : (codes t p).map Prod.fst = (treeLeaves t).map Prod.fst := by
  induction t generalizing p with
  | leaf sym w => rfl
  | internal w left right ihl ihr => simp [codes, treeLeaves, ihl, ihr]

end Sys2Proof.Machine
end

