-- ==== Sys2Proof/Laws/Decode.lean ====
section
/-! SUPPORT. The small lemmas of the command word: its fields, the opcode map, the written line. -/

namespace Sys2Proof

/-- Each bit of a packed word is a bit of the field it falls in (R81). -/
theorem getLsbD_packWord (o a : BitVec 8) (c : BitVec 32) (k : Nat) :
    (packWord o a c).getLsbD k =
      if k < 32 then c.getLsbD k else if k - 32 < 8 then a.getLsbD (k - 32) else o.getLsbD (k - 32 - 8) := by
  show BitVec.getLsbD ((o ++ a) ++ c : BitVec (8 + 8 + 32)) k = _
  rw [BitVec.getLsbD_append, BitVec.getLsbD_append]

@[simp] theorem opcOf_packWord (o a : BitVec 8) (c : BitVec 32) : opcOf (packWord o a c) = o := by
  apply BitVec.eq_of_getLsbD_eq
  intro i hi
  have h1 : ¬ 40 + i < 32 := by omega
  have h2 : ¬ 40 + i - 32 < 8 := by omega
  have h3 : 40 + i - 32 - 8 = i := by omega
  simp only [opcOf, BitVec.getLsbD_extractLsb', getLsbD_packWord, hi, h1, h2, h3, decide_true, Bool.true_and, if_false]

@[simp] theorem a8Of_packWord (o a : BitVec 8) (c : BitVec 32) : a8Of (packWord o a c) = a := by
  apply BitVec.eq_of_getLsbD_eq
  intro i hi
  have h1 : ¬ 32 + i < 32 := by omega
  have h2 : 32 + i - 32 = i := by omega
  simp only [a8Of, BitVec.getLsbD_extractLsb', getLsbD_packWord, hi, h1, h2, decide_true, Bool.true_and, if_false, if_true]

@[simp] theorem a32Of_packWord (o a : BitVec 8) (c : BitVec 32) : a32Of (packWord o a c) = c := by
  apply BitVec.eq_of_getLsbD_eq
  intro i hi
  simp only [a32Of, BitVec.getLsbD_extractLsb', getLsbD_packWord, hi, Nat.zero_add, decide_true, Bool.true_and, if_true]

/-- A word is its three fields (R81). -/
theorem packWord_fields (w : CmdWord) : packWord (opcOf w) (a8Of w) (a32Of w) = w := by
  apply BitVec.eq_of_getLsbD_eq
  intro i hi
  simp only [getLsbD_packWord, opcOf, a8Of, a32Of, BitVec.getLsbD_extractLsb']
  by_cases h1 : i < 32
  · simp [h1]
  · by_cases h2 : i - 32 < 8
    · have : 32 + (i - 32) = i := by omega
      simp [h1, h2, this]
    · have : 40 + (i - 32 - 8) = i := by omega
      have h3 : i - 32 - 8 < 8 := by omega
      simp [h1, h2, h3, this]

/-- Two words with the same fields are the same word. -/
theorem word_ext {v w : CmdWord} (h1 : opcOf v = opcOf w) (h2 : a8Of v = a8Of w) (h3 : a32Of v = a32Of w) : v = w := by
  rw [← packWord_fields v, ← packWord_fields w, h1, h2, h3]

/-- No two rows share an opcode (R84). -/
theorem opcode_inj {o p : Op} (h : o.opcode = p.opcode) : o = p := by
  revert h; cases o <;> cases p <;> decide

theorem opOfOpcode_opcode (o : Op) : opOfOpcode o.opcode = some o := by cases o <;> decide

/-- The opcode map finds exactly the row with the opcode (R84, R86). -/
theorem opOfOpcode_eq_some {b : BitVec 8} {o : Op} : opOfOpcode b = some o ↔ o.opcode = b := by
  constructor
  · intro h
    have := List.find?_some h
    simpa using this
  · intro h; subst h; exact opOfOpcode_opcode o

theorem opOfOpcode_eq_none {b : BitVec 8} : opOfOpcode b = none ↔ ∀ o : Op, o.opcode ≠ b := by
  constructor
  · intro h o ho
    rw [opOfOpcode_eq_some.2 ho] at h
    cases h
  · intro h
    cases hb : opOfOpcode b with
    | none => rfl
    | some o => exact absurd (opOfOpcode_eq_some.1 hb) (h o)

@[simp] theorem opcOf_encode (i : Instr) : opcOf (encode i) = i.op.opcode := opcOf_packWord _ _ _

@[simp] theorem a8Of_encode (i : Instr) : a8Of (encode i) = a8Field i := a8Of_packWord _ _ _

@[simp] theorem a32Of_encode (i : Instr) : a32Of (encode i) = a32Field i := a32Of_packWord _ _ _

@[simp] theorem op_mkInstr (o : Op) (a : BitVec 8) (c : BitVec 32) : (mkInstr o a c).op = o := by cases o <;> rfl

/-- What decoding answers, in the order of R88. -/
theorem decode_cases (w : CmdWord) :
    ((∀ o : Op, o.opcode ≠ opcOf w) ∧ decode w = .error (.reservedOpcode (opcOf w))) ∨
    (∃ o : Op, o.opcode = opcOf w ∧ unusedZero o.format (a8Of w) (a32Of w) = false ∧
      decode w = .error (.nonzeroUnusedField o)) ∨
    (∃ o : Op, o.opcode = opcOf w ∧ unusedZero o.format (a8Of w) (a32Of w) = true ∧
      decode w = .ok (mkInstr o (a8Of w) (a32Of w))) := by
  cases h : opOfOpcode (opcOf w) with
  | none => exact .inl ⟨opOfOpcode_eq_none.1 h, by simp [decode, h]⟩
  | some o =>
    cases hz : unusedZero o.format (a8Of w) (a32Of w) with
    | false => exact .inr (.inl ⟨o, opOfOpcode_eq_some.1 h, hz, by simp [decode, h, hz]⟩)
    | true => exact .inr (.inr ⟨o, opOfOpcode_eq_some.1 h, hz, by simp [decode, h, hz]⟩)

/-- Every command is well-formed (R83, R112): its fields are 8 and 32 unsigned bits. -/
theorem wellFormed_all (i : Instr) : i.wellFormed = true := by
  cases i <;> simp [Instr.wellFormed, Instr.toLine, Line.wellFormed, Op.format] <;> omega

/-- `commandWord` of all 48 bits is the word. -/
@[simp] theorem commandWord_toNat (w : CmdWord) : commandWord 48 w.toNat = w := by
  unfold commandWord
  rw [Nat.mod_eq_of_lt w.isLt]
  simp

end Sys2Proof
end

