-- ==== Sys2Proof/Laws/Exec.lean ====
section
/-! SUPPORT. What a step and each meaning can do, said once: if it answers `next t`, one of the listed cases holds. -/

namespace Sys2Proof.Machine

/-! ### Answers -/

@[simp] theorem answer_next {r : Resp} {s t : State} : answer r s = .next t ↔ t = respond r s := by
  unfold answer
  constructor
  · intro h; injection h with h; exact h.symm
  · intro h; rw [h]

@[simp] theorem raise_next {e : ResultCode} {s t : State} : raise e s = .next t ↔ t = respond { rc := e } s := answer_next

@[simp] theorem raiseHalt_next {e : ResultCode} {s t : State} :
    raiseHalt e s = .next t ↔ t = respond { rc := e } (haltDecoder e s) := answer_next

@[simp] theorem illegalCommand_next {s t : State} :
    illegalCommand s = .next t ↔ t = respond { rc := .illegalCommand } s := answer_next

/-! ### One step -/

/-- What one step can do (R7, R68, R87, R255, R270). -/
theorem step_cases {s t : State} (h : step s = .next t) :
    (s.pending = [] ∧ t = s) ∨
    (∃ rest, s.pending = .reset :: rest ∧ t = assertReset { s with pending := rest }) ∨
    (∃ w rest i, s.pending = .command w :: rest ∧ decode w = .ok i ∧ exec i { s with pending := rest } = .next t) ∨
    (∃ w rest e, s.pending = .command w :: rest ∧ decode w = .error e ∧
      t = respond { rc := .illegalCommand } { s with pending := rest }) := by
  unfold step takeInput at h
  cases hp : s.pending with
  | nil =>
    rw [hp] at h
    injection h with h
    exact .inl ⟨rfl, h.symm⟩
  | cons x rest =>
    rw [hp] at h
    cases x with
    | reset =>
      injection h with h
      exact .inr (.inl ⟨rest, rfl, h.symm⟩)
    | command w =>
      cases hd : decode w with
      | error e =>
        simp only [hd] at h
        exact .inr (.inr (.inr ⟨w, rest, e, rfl, hd, illegalCommand_next.1 h⟩))
      | ok i =>
        simp only [hd] at h
        exact .inr (.inr (.inl ⟨w, rest, i, rfl, hd, h⟩))

/-! ### The meanings -/

theorem execClr_cases {s t : State} (h : execClr s = .next t) : t = respond {} (invalidate (clearFreq s)) := answer_next.1 h

theorem execLdf_cases {sym : Sym8} {cnt : Count} {s t : State} (h : execLdf sym cnt s = .next t) :
    t = respond {} (invalidate (writeFreq sym cnt s)) := answer_next.1 h

theorem execRdf_cases {sym : Sym8} {s t : State} (h : execRdf sym s = .next t) :
    t = respond { n := readFreq s sym } s := answer_next.1 h

theorem execRds_cases {s t : State} (h : execRds s = .next t) : t = respond { n := statusWord s } s := answer_next.1 h

/-- What BUILD can do (R140): no root and nothing built, or the items written and the root set. -/
theorem execBuild_cases {s t : State} (h : execBuild s = .next t) :
    (builtRoot s.freq = none ∧
      t = respond {} { dropDerived s with
        nleaf := BitVec.ofNat 9 (leafCount s.freq), ts := builtTs (leafCount s.freq), pqn := 0 }) ∨
    (∃ root, builtRoot s.freq = some root ∧
      t = respond {} { dropDerived s with
        nleaf := BitVec.ofNat 9 (leafCount s.freq), ts := builtTs (leafCount s.freq),
        node := writeItems (builtItems s.freq) s.node, pq := [(0, root)], pqn := 1, root := root }) := by
  unfold execBuild at h
  cases hr : builtRoot s.freq with
  | none =>
    simp only [hr] at h
    exact .inl ⟨rfl, answer_next.1 h⟩
  | some root =>
    simp only [hr] at h
    exact .inr ⟨root, rfl, answer_next.1 h⟩

/-- What GEN can do (R161). -/
theorem execGen_cases {s t : State} (h : execGen s = .next t) :
    (s.ts = .none ∧ t = respond { rc := .badSequence } s) ∨
    (∃ cs, s.ts ≠ .none ∧ currentCodes s = .ok cs ∧ t = respond {} { s with code := codeTable cs, cs := true }) := by
  unfold execGen at h
  unfold currentCodes
  cases hts : s.ts with
  | none => rw [hts] at h; exact .inl ⟨rfl, raise_next.1 h⟩
  | empty => rw [hts] at h; exact .inr ⟨[], by simp, rfl, answer_next.1 h⟩
  | single =>
    rw [hts] at h
    cases ht : treeAt s s.root with
    | error e => simp [ht] at h
    | ok tr => simp only [ht] at h; exact .inr ⟨_, by simp, rfl, answer_next.1 h⟩
  | multi =>
    rw [hts] at h
    cases ht : treeAt s s.root with
    | error e => simp [ht] at h
    | ok tr => simp only [ht] at h; exact .inr ⟨_, by simp, rfl, answer_next.1 h⟩

/-- GEN goes on when the codes of the tree can be read (R161). -/
theorem execGen_of_codes {s : State} {cs : List (Sym8 × List Bool)} (hts : s.ts ≠ .none) (hc : currentCodes s = .ok cs) :
    execGen s = .next (respond {} { s with code := codeTable cs, cs := true }) := by
  unfold currentCodes at hc
  unfold execGen
  cases h : s.ts with
  | none => exact absurd h hts
  | empty => rw [h] at hc; injection hc with hc; subst hc; rfl
  | single =>
    rw [h] at hc
    cases ht : treeAt s s.root with
    | error e => simp [ht] at hc
    | ok tr => simp only [ht] at hc ⊢; injection hc with hc; subst hc; rfl
  | multi =>
    rw [h] at hc
    cases ht : treeAt s s.root with
    | error e => simp [ht] at hc
    | ok tr => simp only [ht] at hc ⊢; injection hc with hc; subst hc; rfl

/-- What LKUP can do (R163). -/
theorem execLkup_cases {sym : Sym8} {s t : State} (h : execLkup sym s = .next t) :
    (s.cs = false ∧ t = respond { rc := .badSequence } s) ∨
    (s.cs = true ∧ (readCode s sym).v = false ∧ t = respond { rc := .unknownSymbol } s) ∨
    (s.cs = true ∧ (readCode s sym).v = true ∧
      t = respond { len := (readCode s sym).len, code := (readCode s sym).bits } s) := by
  unfold execLkup at h
  cases hc : s.cs with
  | false => simp only [hc] at h; exact .inl ⟨rfl, raise_next.1 h⟩
  | true =>
    simp only [hc, if_true] at h
    cases hv : (readCode s sym).v with
    | false => simp only [hv] at h; exact .inr (.inl ⟨rfl, rfl, raise_next.1 h⟩)
    | true => simp only [hv, if_true] at h; exact .inr (.inr ⟨rfl, rfl, answer_next.1 h⟩)

/-- What DSTART can do (R211). -/
theorem execDstart_cases {s t : State} (h : execDstart s = .next t) :
    (s.ts = .none ∧ t = respond { rc := .badSequence } s) ∨
    (s.ts = .empty ∧ t = respond { rc := .emptyTree } (setDecoder .idle s)) ∨
    (∃ n, s.ts = .single ∧ readNode s s.root = some n ∧
      t = respond { emit := true, sym := n.rs, n := n.w.extractLsb' 0 32 } (setDecoder .done s)) ∨
    (s.ts = .multi ∧ t = respond {} (setDecoder .run { s with cur := s.root })) := by
  unfold execDstart at h
  cases hts : s.ts with
  | none => rw [hts] at h; exact .inl ⟨rfl, raise_next.1 h⟩
  | empty => rw [hts] at h; exact .inr (.inl ⟨rfl, raise_next.1 h⟩)
  | single =>
    rw [hts] at h
    cases hn : readNode s s.root with
    | none => simp [hn] at h
    | some n => simp only [hn] at h; exact .inr (.inr (.inl ⟨n, rfl, rfl, answer_next.1 h⟩))
  | multi => rw [hts] at h; exact .inr (.inr (.inr ⟨rfl, answer_next.1 h⟩))

/-- What the move of a good token can do (R212). -/
theorem walkBit_cases {bit : Bool} {s t : State} (h : walkBit bit s = .next t) :
    ∃ n c, readNode s s.cur = some n ∧ readNode s (childOf n bit) = some c ∧
      ((isLeaf c = true ∧ t = respond { emit := true, sym := c.rs, n := 1 } { s with cur := s.root }) ∨
       (isLeaf c = false ∧ t = respond {} { s with cur := childOf n bit })) := by
  unfold walkBit at h
  cases hn : readNode s s.cur with
  | none => simp [hn] at h
  | some n =>
    simp only [hn] at h
    cases hc : readNode s (childOf n bit) with
    | none => simp [hc] at h
    | some c =>
      simp only [hc] at h
      refine ⟨n, c, rfl, hc, ?_⟩
      cases hl : isLeaf c with
      | true => simp only [hl, if_true] at h; exact .inl ⟨rfl, answer_next.1 h⟩
      | false => simp only [hl] at h; exact .inr ⟨rfl, answer_next.1 h⟩

/-- What DBIT can do (R212, R214). -/
theorem execDbit_cases {tok : BitVec 8} {s t : State} (h : execDbit tok s = .next t) :
    (s.dst ≠ .run ∧ t = respond { rc := .badSequence } s) ∨
    (s.dst = .run ∧ tokenBit tok = none ∧ t = respond { rc := .invalidBit } (haltDecoder .invalidBit s)) ∨
    (∃ bit, s.dst = .run ∧ tokenBit tok = some bit ∧ walkBit bit s = .next t) := by
  unfold execDbit at h
  by_cases hd : s.dst = .run
  · simp only [hd, if_true] at h
    cases ht : tokenBit tok with
    | none => simp only [ht] at h; exact .inr (.inl ⟨hd, rfl, raiseHalt_next.1 h⟩)
    | some bit => simp only [ht] at h; exact .inr (.inr ⟨bit, hd, rfl, h⟩)
  · simp only [hd, if_false] at h; exact .inl ⟨hd, raise_next.1 h⟩

/-- What DEND can do (R213). -/
theorem execDend_cases {s t : State} (h : execDend s = .next t) :
    ((s.dst = .idle ∨ s.dst = .halt) ∧ t = respond { rc := .badSequence } s) ∨
    (s.dst = .done ∧ t = respond {} { s with dst := .idle }) ∨
    (s.dst = .run ∧ s.cur = s.root ∧ t = respond {} { s with dst := .idle }) ∨
    (s.dst = .run ∧ s.cur ≠ s.root ∧ t = respond { rc := .truncatedStream } (haltDecoder .truncatedStream s)) := by
  unfold execDend at h
  cases hd : s.dst with
  | idle => rw [hd] at h; exact .inl ⟨.inl rfl, raise_next.1 h⟩
  | halt => rw [hd] at h; exact .inl ⟨.inr rfl, raise_next.1 h⟩
  | done => simp only [hd] at h; exact .inr (.inl ⟨rfl, answer_next.1 h⟩)
  | run =>
    rw [hd] at h
    by_cases hc : s.cur = s.root
    · rw [if_pos hc] at h; exact .inr (.inr (.inl ⟨rfl, hc, answer_next.1 h⟩))
    · simp only [hc, if_false] at h; exact .inr (.inr (.inr ⟨rfl, hc, raiseHalt_next.1 h⟩))

/-- BUILD always answers (R140: "the response is always `OK`"). -/
theorem execBuild_answers (s : State) : ∃ t, execBuild s = .next t := by
  unfold execBuild
  cases h : builtRoot s.freq with
  | none => exact ⟨_, rfl⟩
  | some root => exact ⟨_, rfl⟩

end Sys2Proof.Machine
end

