-- ==== Sys2Proof/Laws/HostSide.lean ====
section
/-! SUPPORT. What the host's runs and its file line can do: one lemma for each way an expansion goes on or ends. -/

namespace Sys2Proof.Machine

variable {past : ResultCode → Bool} {i : Instr} {is : List Instr} {s s' : State} {r : Resp}

@[simp] theorem runExpansion_nil : runExpansion past [] s = some ([], .ok, s) := rfl

/-- A response that is `OK`, or that the expansion goes on past, is kept and the rest runs. -/
theorem runExpansion_goesOn (h : issue i s = some (r, s')) (hr : r.rc = .ok ∨ past r.rc = true) :
    runExpansion past (i :: is) s = (runExpansion past is s').map fun x => (r :: x.1, x.2.1, x.2.2) := by
  rw [runExpansion, h]
  simp only [if_pos hr]
  cases runExpansion past is s' <;> rfl

/-- Any other response ends the expansion with its result code. -/
theorem runExpansion_ends (h : issue i s = some (r, s')) (hok : r.rc ≠ .ok) (hpast : past r.rc = false) :
    runExpansion past (i :: is) s = some ([r], r.rc, s') := by
  rw [runExpansion, h]
  simp [hok, hpast]

theorem runExpansion_stopped (h : issue i s = none) : runExpansion past (i :: is) s = none := by
  rw [runExpansion, h]

/-- The header line is what stands before the first newline. -/
theorem splitLine_append {xs : List Sym8} (rest : List Sym8) (h : newlineByte ∉ xs) :
    splitLine (xs ++ newlineByte :: rest) = (xs, rest) := by
  induction xs with
  | nil => simp [splitLine]
  | cons x xs ih =>
    have hx : ¬ x = newlineByte := fun e => h (e ▸ List.mem_cons_self)
    simp [splitLine, hx, ih (fun m => h (List.mem_cons_of_mem _ m))]

end Sys2Proof.Machine
end

