-- ==== Sys2Proof/Laws/PerInstr.lean ====
section
/-! SUPPORT. The families of statements made per command (LAWS.json). -/

namespace Sys2Proof

/-- A field of a conjunction of two words is the conjunction of their fields. -/
theorem opcOf_and (v w : CmdWord) : opcOf (v &&& w) = opcOf v &&& opcOf w := by
  simp [opcOf, BitVec.extractLsb'_and]

theorem a8Of_and (v w : CmdWord) : a8Of (v &&& w) = a8Of v &&& a8Of w := by
  simp [a8Of, BitVec.extractLsb'_and]

theorem a32Of_and (v w : CmdWord) : a32Of (v &&& w) = a32Of v &&& a32Of w := by
  simp [a32Of, BitVec.extractLsb'_and]

/-- A word equals a row's match once masked when its three fields do. -/
theorem masked_eq {v m w : CmdWord} (h1 : opcOf v &&& opcOf m = opcOf w) (h2 : a8Of v &&& a8Of m = a8Of w)
    (h3 : a32Of v &&& a32Of m = a32Of w) : v &&& m = w :=
  word_ext ((opcOf_and v m).trans h1) ((a8Of_and v m).trans h2) ((a32Of_and v m).trans h3)

/-- A row whose mask keeps the opcode and the count field and drops the operand byte: formats S and T (R82, R84). -/
theorem byte_row {i : Instr} (h1 : i.op.opcode &&& opcOf i.op.maskBits = opcOf i.op.matchBits)
    (h2 : a8Of i.op.maskBits = 0 ∧ a8Of i.op.matchBits = 0)
    (h3 : a32Field i &&& a32Of i.op.maskBits = a32Of i.op.matchBits) : encode i &&& i.op.maskBits = i.op.matchBits :=
  masked_eq (by rw [opcOf_encode]; exact h1) (by rw [h2.1, h2.2]; simp) (by rw [a32Of_encode]; exact h3)

end Sys2Proof

namespace Sys2Proof.Laws.EncodedRow

/-- The word of a command selects its row of the opcode map: (word and mask) = match (R84). -/
def Statement (i : Instr) : Prop := encode i &&& i.op.maskBits = i.op.matchBits

theorem clr : Statement .clr := by unfold Statement; decide

theorem ldf (sym : Sym8) (cnt : Count) : Statement (.ldf sym cnt) := by
  have h1 : a8Of Op.ldf.maskBits = 0 ∧ a8Of Op.ldf.matchBits = 0 := by decide
  have h2 : a32Of Op.ldf.maskBits = 0 ∧ a32Of Op.ldf.matchBits = 0 := by decide
  have h3 : Op.ldf.opcode &&& opcOf Op.ldf.maskBits = opcOf Op.ldf.matchBits := by decide
  exact masked_eq (by rw [opcOf_encode]; exact h3) (by simp only [Instr.op]; rw [h1.1, h1.2]; simp)
    (by simp only [Instr.op]; rw [h2.1, h2.2]; simp)

theorem rdf (sym : Sym8) : Statement (.rdf sym) :=
  byte_row (show Op.rdf.opcode &&& opcOf Op.rdf.maskBits = opcOf Op.rdf.matchBits by decide)
    (show a8Of Op.rdf.maskBits = 0 ∧ a8Of Op.rdf.matchBits = 0 by decide)
    (show (0 : BitVec 32) &&& a32Of Op.rdf.maskBits = a32Of Op.rdf.matchBits by decide)

theorem rds : Statement .rds := by unfold Statement; decide

theorem build : Statement .build := by unfold Statement; decide

theorem gen : Statement .gen := by unfold Statement; decide

theorem lkup (sym : Sym8) : Statement (.lkup sym) :=
  byte_row (show Op.lkup.opcode &&& opcOf Op.lkup.maskBits = opcOf Op.lkup.matchBits by decide)
    (show a8Of Op.lkup.maskBits = 0 ∧ a8Of Op.lkup.matchBits = 0 by decide)
    (show (0 : BitVec 32) &&& a32Of Op.lkup.maskBits = a32Of Op.lkup.matchBits by decide)

theorem dstart : Statement .dstart := by unfold Statement; decide

theorem dbit (tok : BitVec 8) : Statement (.dbit tok) :=
  byte_row (show Op.dbit.opcode &&& opcOf Op.dbit.maskBits = opcOf Op.dbit.matchBits by decide)
    (show a8Of Op.dbit.maskBits = 0 ∧ a8Of Op.dbit.matchBits = 0 by decide)
    (show (0 : BitVec 32) &&& a32Of Op.dbit.maskBits = a32Of Op.dbit.matchBits by decide)

theorem dend : Statement .dend := by unfold Statement; decide

end Sys2Proof.Laws.EncodedRow
end

