-- ==== Sys2Proof/Tests/Slice0.lean ====
section
/-! SUPPORT. The model's own tests. Expected values are the spec's: the worked words of R96, the vectors V1 to V37 and the programs P1 to P7
of spec/95_test_vectors.md, named at each test. The witnesses at the end show, for each statement with hypotheses, a state and operands
that meet them. -/

namespace Sys2Proof.Tests

open Sys2Proof.Machine

/-! ### Small states -/

/-- The outcome is a next state with the property `p`. -/
def ends (o : Host.Outcome State Fault Refusal) (p : State → Bool) : Bool :=
  match o with
  | .next t => p t
  | .fault _ => false
  | .refused _ => false

/-- The table of S1, `LOADHDR 97 3 98 4 99 2` from reset. -/
def tableS1 : State := { State.reset with freq := [(97, 3), (98, 4), (99, 2)] }

/-- After BUILD (V6). -/
def builtS1 : State :=
  { tableS1 with
    node := [(97, ⟨false, false, 0, 0, 97, 3⟩), (98, ⟨false, false, 0, 0, 98, 4⟩), (99, ⟨false, false, 0, 0, 99, 2⟩),
      (256, ⟨true, true, 99, 97, 97, 5⟩), (257, ⟨true, true, 98, 256, 97, 9⟩)]
    pq := [(0, 257)], pqn := 1, root := 257, nleaf := 3, ts := .multi }

/-- The codes of V6. -/
def codesS1 : List (Sym8 × List Bool) := [(98, [false]), (99, [true, false]), (97, [true, true])]

/-- After GEN (V21). -/
def genS1 : State := { builtS1 with code := codeTable codesS1, cs := true }

/-- A decode at the root (V25). -/
def runS1 : State := { genS1 with cur := 257, dst := .run }

/-- A decode mid-code, at node 256 (V25). -/
def midS1 : State := { runS1 with cur := 256 }

/-- A decode halted on `InvalidBit` (V27). -/
def haltS1 : State := { runS1 with dst := .halt, derr := 3 }

/-- The table of "aaaa" after BUILD and GEN (V8, P2). -/
def singleA : State :=
  { State.reset with
    freq := [(97, 4)], node := [(97, ⟨false, false, 0, 0, 97, 4⟩)], pq := [(0, 97)], pqn := 1, root := 97, nleaf := 1,
    ts := .single, code := codeTable [(97, [])], cs := true }

/-- The empty table after BUILD (V7). -/
def emptyT : State := { State.reset with ts := .empty, pqn := 0 }

/-- A table of zeros with a mid-session reset next. -/
def resetNext : State := { midS1 with pending := [.reset] }

/-! ### Decoding (R81 to R88; the words of V1, V2 and R96) -/

theorem test_decode_clr : decode 0x010000000000 = .ok .clr := by decide
theorem test_decode_ldf : decode 0x026100000003 = .ok (.ldf 97 3) := by decide
theorem test_decode_ldf_ones : decode 0x02FFFFFFFFFF = .ok (.ldf 255 4294967295) := by decide
theorem test_decode_rdf : decode 0x03FF00000000 = .ok (.rdf 255) := by decide
theorem test_decode_rds : decode 0x040000000000 = .ok .rds := by decide
theorem test_decode_build : decode 0x100000000000 = .ok .build := by decide
theorem test_decode_gen : decode 0x200000000000 = .ok .gen := by decide
theorem test_decode_lkup : decode 0x216300000000 = .ok (.lkup 99) := by decide
theorem test_decode_dstart : decode 0x300000000000 = .ok .dstart := by decide
theorem test_decode_dbit0 : decode 0x313000000000 = .ok (.dbit 0x30) := by decide
theorem test_decode_dbit_legal_word_bad_token : decode 0x310000000000 = .ok (.dbit 0) := by decide
theorem test_decode_dend : decode 0x320000000000 = .ok .dend := by decide
theorem test_decode_reserved :
    [0x000000000000, 0xFFFFFFFFFFFF, 0x050000000000, 0x0F0000000000, 0x110000000000, 0x1F0000000000, 0x220000000000,
      0x2F0000000000, 0x330000000000].all (fun w => (decode w).toOption == none) = true := by decide
theorem test_decode_nonzero_unused :
    [0x010000000001, 0x010100000000, 0x100100000000, 0x040000000100, 0x200000008000, 0x30FF00000000, 0x320000000001,
      0x036100000001, 0x216400000005, 0x313000000001].all (fun w => (decode w).toOption == none) = true := by decide
theorem test_decode_table_word : decodeTableWord 48 0x026100000003 = some (.ldf 97 3) := by decide

/-! ### WellFormed: each check refuses an ill-formed line (R82, R83, R112) -/

theorem test_wellFormed_symbol_256 : (Line.mk .ldf [256, 1]).wellFormed = false := by decide
theorem test_wellFormed_count_2_32 : (Line.mk .ldf [1, 4294967296]).wellFormed = false := by decide
theorem test_wellFormed_lkup_256 : (Line.mk .lkup [256]).wellFormed = false := by decide
theorem test_wellFormed_token_256 : (Line.mk .dbit [256]).wellFormed = false := by decide
theorem test_wellFormed_operand_of_clr : (Line.mk .clr [0]).wellFormed = false := by decide
theorem test_wellFormed_no_operand : (Line.mk .rdf []).wellFormed = false := by decide
theorem test_wellFormed_one_operand_of_ldf : (Line.mk .ldf [1]).wellFormed = false := by decide
theorem test_wellFormed_greatest : (Line.mk .ldf [255, 4294967295]).wellFormed = true := by decide

/-- R94: `LDF 'a', 0x3 ; first`. -/
theorem test_assemble_text :
    assembleText ['L', 'D', 'F', ' ', '\'', 'a', '\'', ',', ' ', '0', 'x', '3', ' ', ';', ' ', 'f'] = some (.ldf 97 3) := by decide

/-! ### Packed responses (V3) -/

theorem test_pack_emission : (respBits { emit := true, sym := 97, n := 1 }).toNat =
    0x0B080000000800000000000000000000000000000000000000000000000000000000000000000 := by decide
theorem test_pack_lookup : (respBits { len := 2, code := 3 }).toNat =
    0x00000000000010000000000000000000000000000000000000000000000000000000000000003 := by decide
theorem test_pack_invalid_bit : (respBits { rc := .invalidBit }).toNat =
    0x30000000000000000000000000000000000000000000000000000000000000000000000000000 := by decide

/-! ### The commands, one step each -/

/-- V5: CLR after a build. -/
theorem test_clr : ends (exec .clr haltS1) (fun t => readFreq t 97 == 0 && statusWord t == 0 && t.node == haltS1.node) = true := by decide

/-- V4: a second LDF of the same symbol overwrites. -/
theorem test_ldf_overwrites : ends (exec (.ldf 97 9) runS1) (fun t => readFreq t 97 == 9 && readFreq t 98 == 4 && statusWord t == 0) = true := by
  decide

/-- V4: LDF of 0 makes the symbol absent. -/
theorem test_ldf_zero : ends (exec (.ldf 98 0) builtS1) (fun t => t.freq == [(97, 3), (99, 2)]) = true := by decide

/-- R113: RDF 98 and RDF 100 on S1. -/
theorem test_rdf : ends (exec (.rdf 98) midS1) (fun t => t.resps == [{ n := 4 }]) = true := by decide
theorem test_rdf_absent : ends (exec (.rdf 100) midS1) (fun t => t.resps == [{ n := 0 }]) = true := by decide

/-- V5: STATUS after DSTART and after `DBIT '2'`. -/
theorem test_rds_run : ends (exec .rds runS1) (fun t => t.resps == [{ n := 0x00030017 }]) = true := by decide
theorem test_rds_halt : ends (exec .rds haltS1) (fun t => t.resps == [{ n := 0x00030337 }]) = true := by decide

/-- V6: the whole state after BUILD on S1. -/
theorem test_build : ends (exec .build tableS1) (fun t => t == { builtS1 with resps := [{}] }) = true := by decide +kernel

/-- V12: the new internal node comes before the older leaf of equal weight. -/
theorem test_build_tie :
    ends (exec .build { State.reset with freq := [(10, 2), (20, 2), (30, 4)] }) (fun t =>
      readNode t 257 == some ⟨true, true, 256, 30, 10, 8⟩) = true := by decide +kernel

/-- V21: the table after GEN on S1. -/
theorem test_gen : ends (exec .gen builtS1) (fun t => t.cs && readCode t 97 == ⟨true, 2, 3⟩ && readCode t 98 == ⟨true, 1, 0⟩ &&
    readCode t 99 == ⟨true, 2, 1⟩ && readCode t 100 == ⟨false, 0, 0⟩) = true := by decide +kernel

/-- V24: GEN before BUILD. -/
theorem test_gen_bad_sequence : ends (exec .gen tableS1) (fun t => t == { tableS1 with resps := [{ rc := .badSequence }] }) = true := by
  decide

/-- V21, V23: a hit, and the empty code told from a miss by rc alone. -/
theorem test_lkup : ends (exec (.lkup 97) genS1) (fun t => t.resps == [{ len := 2, code := 3 }]) = true := by decide +kernel
theorem test_lkup_empty_code_and_miss :
    (ends (exec (.lkup 97) singleA) (fun t => t.resps == [{}]) &&
      ends (exec (.lkup 98) singleA) (fun t => t.resps == [{ rc := .unknownSymbol }])) = true := by decide +kernel

/-- V28, V30: DSTART on a single leaf emits the run; on a MULTI tree it restarts at the root. -/
theorem test_dstart_single : ends (exec .dstart singleA) (fun t => t.resps == [{ emit := true, sym := 97, n := 4 }] && t.dst == .done) = true := by
  decide
theorem test_dstart_restarts : ends (exec .dstart midS1) (fun t => t.cur == 257 && t.dst == .run && t.resps == [{}]) = true := by decide

/-- V25: from node 256 the bit 1 emits 97 and returns to the root; V27: 0x00 is no bit. -/
theorem test_dbit_emits :
    ends (exec (.dbit 0x31) midS1) (fun t => t.resps == [{ emit := true, sym := 97, n := 1 }] && t.cur == 257) = true := by decide
theorem test_dbit_invalid :
    ends (exec (.dbit 0x00) runS1) (fun t => t.resps == [{ rc := .invalidBit }] && t.dst == .halt && t.derr == 3 && t.cur == 257) = true := by
  decide

/-- V26: DEND mid-code; V28: DEND in DONE. -/
theorem test_dend_truncated : ends (exec .dend midS1) (fun t => t.resps == [{ rc := .truncatedStream }] && t.dst == .halt && t.derr == 4) = true := by
  decide
theorem test_dend_done : ends (exec .dend { singleA with dst := .done }) (fun t => t.resps == [{}] && t.dst == .idle) = true := by decide

/-- V33, R252: an illegal word is IllegalCommand whatever the state, and changes nothing else. -/
theorem test_illegal_word :
    ends (step (midS1.withFetchWord 48 0x313000000001)) (fun t => t == { midS1 with resps := [{ rc := .illegalCommand }] }) = true := by
  decide +kernel

/-- Each row of the opcode table is the first command after reset. -/
theorem test_first_step_after_reset :
    [0x010000000000, 0x026100000003, 0x036200000000, 0x040000000000, 0x100000000000, 0x200000000000, 0x216300000000,
      0x300000000000, 0x313000000000, 0x320000000000].all (fun w => ends (step (State.reset.withFetchWord 48 w)) (fun t =>
        t.resps.length == 1 && t.resps != [{ rc := .illegalCommand }])) = true := by decide +kernel

/-- R270: the reset input. -/
theorem test_reset_input : ends (step resetNext) (fun t => t == { State.reset with era := 1 }) = true := by decide +kernel

/-! ### Host functions (V36, V37) -/

/-- V36: `"97 3 98"` has an odd token count. -/
theorem test_parse_odd : parseHeader ['9', '7', ' ', '3', ' ', '9', '8'] = .error .malformedHeader := by rfl
theorem test_parse_256 : parseHeader ['2', '5', '6', ' ', '1'] = .error .malformedHeader := by rfl
/-- S3: the header of "aaaa". -/
theorem test_header_text : headerText [(97, 4)] = ['9', '7', ' ', '4'] := by decide
/-- V37: `encode("cab")` is `10110`. -/
theorem test_encode : encodePayload (codeOf codesS1) [99, 97, 98] = .ok [true, false, true, true, false] := by rfl

/-- R95: CODEBOOK goes on past UnknownSymbol, every other expansion stops at it. -/
theorem test_codebook_goes_on :
    ((runCodebook genS1).map fun x => (x.1.length, x.2.1, (x.1.drop 98).take 4)) =
      some (257, .ok, [{ len := 2, code := 3 }, { len := 1, code := 0 }, { len := 2, code := 1 }, { rc := .unknownSymbol }]) := by
  decide +kernel
theorem test_other_expansion_stops :
    ((runUntilError [.lkup 97, .lkup 100, .lkup 98] genS1).map fun x => (x.1, x.2.1)) =
      some ([{ len := 2, code := 3 }, { rc := .unknownSymbol }], .unknownSymbol) := by decide +kernel

/-- R182, S3: the header line of "aaaa" in a file, and the file cut again at the newline. -/
theorem test_header_line : headerLine ['9', '7', ' ', '4'] = [0x39, 0x37, 0x20, 0x34, 0x0A] := by decide
theorem test_split_line : splitLine [0x39, 0x37, 0x0A, 0x30, 0x0A] = ([0x39, 0x37], [0x30, 0x0A]) := by decide

/-- R189, R192: EmptyTree ends the decoding of an empty file, and is reported for the header `97 0`. -/
theorem test_decode_empty_file : decodeFromFile [0x0A] midS1 = .ok [] := by decide +kernel
theorem test_decode_zero_header : decodeFile ['9', '7', ' ', '0'] [] midS1 = .error (.engine .emptyTree) := by decide +kernel
/-- R193: the file of "aaaa" is its header line alone. -/
theorem test_decode_file_aaaa : decodeFromFile [0x39, 0x37, 0x20, 0x34, 0x0A] midS1 = .ok [97, 97, 97, 97] := by decide +kernel

/-! ### The invariant holds of the small states (witnesses of the statements under `EngineOk`) -/

theorem exec_build_answers (s : State) : ∃ t, exec .build s = .next t := execBuild_answers s

theorem exec_gen_of_codes (s : State) {cs : List (Sym8 × List Bool)} (hts : s.ts ≠ .none) (hc : currentCodes s = .ok cs) :
    ∃ t, exec .gen s = .next t := ⟨_, execGen_of_codes hts hc⟩

theorem codes_genS1 : currentCodes genS1 = .ok codesS1 := by rfl

theorem genS1_ok : EngineOk genS1 :=
  ⟨⟨by decide, by decide, by decide, codeTable_wf _⟩, by decide, by decide +kernel, fun _ => ⟨codesS1, codes_genS1, rfl⟩, by decide⟩

theorem builtS1_ok : EngineOk builtS1 :=
  ⟨⟨by decide, by decide, by decide, by decide⟩, by decide, by decide +kernel, fun h => absurd h (by decide), by decide⟩

theorem runS1_ok : EngineOk runS1 :=
  ⟨⟨by decide, by decide, by decide, codeTable_wf _⟩, by decide, by decide +kernel, fun _ => ⟨codesS1, by rfl, rfl⟩, by decide⟩

theorem midS1_ok : EngineOk midS1 :=
  ⟨⟨by decide, by decide, by decide, codeTable_wf _⟩, by decide, by decide +kernel, fun _ => ⟨codesS1, by rfl, rfl⟩, by decide⟩

theorem haltS1_ok : EngineOk haltS1 :=
  ⟨⟨by decide, by decide, by decide, codeTable_wf _⟩, by decide, by decide +kernel, fun _ => ⟨codesS1, by rfl, rfl⟩, by decide⟩

theorem singleA_ok : EngineOk singleA :=
  ⟨⟨by decide, by decide, by decide, codeTable_wf _⟩, by decide, by decide +kernel, fun _ => ⟨[(97, [])], by rfl, rfl⟩, by decide⟩

theorem emptyT_ok : EngineOk emptyT :=
  ⟨⟨by decide, by decide, by decide, by decide⟩, by decide, by decide +kernel, fun h => absurd h (by decide), by decide⟩

/-- The empty table after BUILD and GEN (V22). -/
def emptyGen : State := { emptyT with code := codeTable [], cs := true }

theorem emptyGen_ok : EngineOk emptyGen :=
  ⟨⟨by decide, by decide, by decide, codeTable_wf _⟩, by decide, by decide +kernel, fun _ => ⟨[], rfl, rfl⟩, by decide⟩

/-! ### Witnesses: for each statement with hypotheses, a state and operands that meet them, one for each clause -/

theorem test_witness_EncodeOfDecodeIsTheWord : decode 0x02FFFFFFFFFF = .ok (.ldf 255 4294967295) := by decide

theorem test_witness_LegalWordsAreTheRowsOfTheOpcodeMap :
    (0x313000000000 : CmdWord) &&& Op.dbit.maskBits = Op.dbit.matchBits := by decide

theorem test_witness_ReservedOpcodesAndNonzeroFieldsAreIllegal :
    ([0x00, 0x05, 0x0F, 0x11, 0x1F, 0x22, 0x2F, 0x33, 0xFF].all (fun b => opOfOpcode b == none) = true) ∧
    (opcOf 0x320000000001 = Op.dend.opcode ∧ Op.dend.format = .z ∧ (0x320000000001 : CmdWord).extractLsb' 0 40 ≠ 0) ∧
    (opcOf 0x308000000000 = Op.dstart.opcode ∧ Op.dstart.format = .z ∧ (0x308000000000 : CmdWord).extractLsb' 0 40 ≠ 0) ∧
    (opcOf 0x036180000000 = Op.rdf.opcode ∧ Op.rdf.format = .s ∧ (0x036180000000 : CmdWord).extractLsb' 0 32 ≠ 0) ∧
    (opcOf 0x313000000001 = Op.dbit.opcode ∧ Op.dbit.format = .t ∧ (0x313000000001 : CmdWord).extractLsb' 0 32 ≠ 0) := by decide

theorem test_witness_IllegalWordIsAnsweredAndChangesNothing :
    ({ midS1 with pending := [.command 0x330000000000] } : State).pending = .command 0x330000000000 :: [] := rfl

theorem test_witness_WrittenLinesAssemble : (Line.mk .rdf [256]).wellFormed = false := by decide

theorem test_witness_StepRunsTheDecodedCommand :
    (({ runS1 with pending := [.command 0x313100000000, .reset] } : State).pending = .command 0x313100000000 :: [.reset] ∧
      decode 0x313100000000 = .ok (.dbit 0x31)) ∧ State.reset.pending = [] := ⟨⟨rfl, by decide⟩, rfl⟩

theorem test_witness_EveryCommandReturnsExactlyOneResponse :
    ∃ t, step (pushInput (.command 0x320000000000) midS1) = .next t := ⟨_, rfl⟩

theorem test_witness_ResetInputActsAsClearWithoutResponse : resetNext.pending = .reset :: [] := rfl

theorem test_witness_LoadWritesOneCountAndInvalidates : (98 : Sym8) ≠ 97 := by decide

theorem test_witness_ReadingCommandsChangeNothingAndRepeat :
    (∃ t, exec .rds midS1 = .next t) ∧ (∃ t, exec (.rdf 255) midS1 = .next t) ∧ (∃ t, exec (.lkup 0) builtS1 = .next t) :=
  ⟨⟨_, rfl⟩, ⟨_, rfl⟩, ⟨_, rfl⟩⟩

theorem test_witness_ComesBeforeIsAStrictOrder :
    comesBefore (leafNode 97 2) (leafNode 98 2) = true ∧ comesBefore (leafNode 98 2) (leafNode 97 3) = true := by decide

theorem test_witness_InsertingKeepsTheCollectionSorted :
    let q : List Item := [(97, leafNode 97 3), (98, leafNode 98 4)]
    q.Pairwise (fun a b => comesBefore a.2 b.2 = true) ∧ ∀ y ∈ q, y.2.rs ≠ (leafNode 99 3).rs := by decide

/-- BuildCompletesAndSetsTheStatus, GreedyMergeTakesTheTwoLowest, BuiltRootAndInternalNodes, BuiltTreeHasNoSharing,
RootWeighsTheSumOfTheCounts, BuiltTreeHasExactlyThePresentLeaves: BUILD answers, with two or more, one, and no nonzero counts. -/
theorem test_witness_Build :
    (∃ t, exec .build tableS1 = .next t) ∧ presentCount tableS1 = 3 ∧ (1 + 1 < presentCount tableS1) ∧
      presentCount singleA = 1 ∧ presentCount emptyT = 0 :=
  ⟨exec_build_answers _, by decide +kernel, by decide +kernel, by decide +kernel, by decide +kernel⟩

theorem test_witness_BuildMakesOneLeafPerPresentSymbol :
    (∃ t, exec .build tableS1 = .next t) ∧ readFreq tableS1 97 ≠ 0 ∧ readFreq tableS1 0 = 0 :=
  ⟨exec_build_answers _, by decide, by decide⟩

/-- BuiltRootAndInternalNodes, BuiltTreeHasNoSharing, GreedyMergeTakesTheTwoLowest: index 98 is allocated on S1 (a leaf), 256 too (a merge); the children of merge 0 are in the collection at merge 0. -/
theorem test_witness_Allocated :
    Allocated builtS1 98 ∧ Allocated builtS1 256 ∧ Unmerged builtS1 0 99 ∧ (98 : Idx) ≠ builtS1.root := by
  refine ⟨.inl ⟨98, by decide, by decide⟩, .inr ⟨0, by decide +kernel, by decide⟩, ⟨.inl ⟨99, by decide, by decide⟩, ?_⟩, by decide⟩
  intro j hj
  omega

/-- GreedyMergeTakesTheTwoLowest: at merge 0 of S1, whose children are 99 and 97, index 98 is a third node of the collection. -/
theorem test_witness_ThirdNodeAtMerge :
    (readNode builtS1 (mergeIdx 0)).map (fun n => (n.l, n.r)) = some (99, 97) ∧ Unmerged builtS1 0 98 ∧ (98 : Idx) ≠ 99 ∧
      (98 : Idx) ≠ 97 ∧ readNode builtS1 98 = some (leafNode 98 4) := by
  refine ⟨by decide, ⟨.inl ⟨98, by decide, by decide⟩, ?_⟩, by decide, by decide, by decide⟩
  intro j hj
  omega

/-- BuildCompletesAndSetsTheStatus: an index the build does not allocate. -/
theorem test_witness_NotAllocated : ¬ Allocated emptyT 0 := by
  rintro (⟨sym, h, -⟩ | ⟨j, h, -⟩)
  · exact h rfl
  · have h0 : presentCount emptyT = 0 := by decide +kernel
    rw [h0] at h
    omega

theorem test_witness_BuildDependsOnTheCountsAlone :
    (∀ sym, readFreq tableS1 sym = readFreq midS1 sym) ∧ (∃ t, exec .build tableS1 = .next t) ∧ ∃ t, exec .build midS1 = .next t :=
  ⟨fun _ => rfl, exec_build_answers _, exec_build_answers _⟩

theorem test_witness_GenerateWritesTheDerivedCodes :
    tableS1.ts = .none ∧ (EngineOk genS1 ∧ genS1.ts ≠ .none) ∧ (EngineOk emptyT ∧ emptyT.ts = .empty) :=
  ⟨rfl, ⟨genS1_ok, by decide⟩, ⟨emptyT_ok, rfl⟩⟩

theorem test_witness_StackTraversalGivesTheSameCodes : (EngineOk genS1 ∧ genS1.ts = .multi) ∧ (EngineOk singleA ∧ singleA.ts = .single) :=
  ⟨⟨genS1_ok, rfl⟩, ⟨singleA_ok, rfl⟩⟩

/-- LookupAnswersTheCodeOrTheError: its clauses under the invariant. -/
theorem test_witness_LookupUnderTheInvariant :
    (EngineOk genS1 ∧ genS1.cs = true ∧ (readCode genS1 97).v = true) ∧
      (EngineOk emptyGen ∧ emptyGen.cs = true ∧ emptyGen.ts = .empty) :=
  ⟨⟨genS1_ok, rfl, by decide +kernel⟩, ⟨emptyGen_ok, rfl, rfl⟩⟩

theorem test_witness_LookupAnswersTheCodeOrTheError :
    builtS1.cs = false ∧ (genS1.cs = true ∧ (readCode genS1 100).v = false) ∧ (genS1.cs = true ∧ (readCode genS1 97).v = true) := by
  refine ⟨rfl, ⟨rfl, ?_⟩, ⟨rfl, ?_⟩⟩ <;> decide +kernel

theorem test_witness_CodesArePrefixFree :
    EngineOk genS1 ∧ genS1.cs = true ∧ (97 : Sym8) ≠ 99 ∧ (readCode genS1 97).v = true ∧ (readCode genS1 99).v = true :=
  ⟨genS1_ok, rfl, by decide, by decide +kernel, by decide +kernel⟩

theorem test_witness_CodeTableMatchesTheCounts :
    EngineOk genS1 ∧ EngineOk midS1 ∧ genS1.cs = true ∧ midS1.cs = true ∧ ∀ sym, readFreq genS1 sym = readFreq midS1 sym :=
  ⟨genS1_ok, midS1_ok, rfl, rfl, fun _ => rfl⟩

theorem test_witness_CodeLengthsAreBounded :
    (EngineOk genS1 ∧ genS1.cs = true ∧ genS1.ts = .multi ∧ (readCode genS1 97).v = true) ∧
      (EngineOk singleA ∧ singleA.cs = true ∧ singleA.ts = .single) :=
  ⟨⟨genS1_ok, rfl, rfl, by decide +kernel⟩, ⟨singleA_ok, rfl, rfl⟩⟩

theorem test_witness_CodeLengthsAreBounded_empty : EngineOk emptyGen ∧ emptyGen.cs = true ∧ emptyGen.ts = .empty :=
  ⟨emptyGen_ok, rfl, rfl⟩

theorem test_witness_DecodeStartByTreeState :
    tableS1.ts = .none ∧ emptyT.ts = .empty ∧ (singleA.ts = .single ∧ ∃ n, readNode singleA singleA.root = some n) ∧ genS1.ts = .multi :=
  ⟨rfl, rfl, ⟨rfl, _, rfl⟩, rfl⟩

theorem test_witness_SingleSymbolRunIsEmittedByItsCount : EngineOk singleA ∧ singleA.ts = .single := ⟨singleA_ok, rfl⟩

theorem test_witness_TokensOtherThanTheTwoBitsAreInvalid :
    ((0x2F : BitVec 8) ≠ 0x30 ∧ (0x2F : BitVec 8) ≠ 0x31) ∧ ((0x32 : BitVec 8) ≠ 0x30 ∧ (0x32 : BitVec 8) ≠ 0x31) ∧ runS1.dst = .run := by
  decide

theorem test_witness_DecodeBitMovesOneBranch :
    genS1.dst ≠ .run ∧ (runS1.dst = .run ∧ (0x01 : BitVec 8) ≠ 0x30 ∧ (0x01 : BitVec 8) ≠ 0x31) ∧
    (midS1.dst = .run ∧ readNode midS1 midS1.cur = some ⟨true, true, 99, 97, 97, 5⟩ ∧ (readNode midS1 99).isSome = true ∧
      (readNode midS1 99).all isLeaf = true) ∧
    (runS1.dst = .run ∧ readNode runS1 runS1.cur = some ⟨true, true, 98, 256, 97, 9⟩ ∧ (readNode runS1 256).isSome = true ∧
      (readNode runS1 256).all isLeaf = false) := by decide

theorem test_witness_GoodTokenAlwaysMovesInRun : EngineOk midS1 ∧ midS1.dst = .run := ⟨midS1_ok, rfl⟩

theorem test_witness_DecodeEndChecksTheRoot :
    (genS1.dst = .idle ∧ haltS1.dst = .halt) ∧ ({ singleA with dst := .done } : State).dst = .done ∧
      (runS1.dst = .run ∧ runS1.cur = runS1.root) ∧ (midS1.dst = .run ∧ midS1.cur ≠ midS1.root) := by decide

theorem test_witness_CommandSequenceEqualsTheWalk : EngineOk genS1 ∧ genS1.ts = .multi := ⟨genS1_ok, rfl⟩

theorem test_witness_WalkInvertsTheEncoder :
    let left := CodeTree.leaf 98 4
    let right := CodeTree.internal 5 (.leaf 99 2) (.leaf 97 3)
    ((treeLeaves (.internal 9 left right)).map Prod.fst).Nodup ∧
      encodePayload (codeOf (deriveCodes (.internal 9 left right))) [99, 97, 98] = .ok [true, false, true, true, false] :=
  ⟨by decide, rfl⟩

theorem test_witness_BadSequenceExactlyWhenNotLegal :
    legalWhen .gen tableS1 = false ∧ legalWhen (.lkup 0) builtS1 = false ∧ legalWhen .dstart tableS1 = false ∧
      legalWhen (.dbit 0x32) builtS1 = false ∧ legalWhen .dend haltS1 = false ∧
      (legalWhen .rds midS1 = true ∧ ∃ t, exec .rds midS1 = .next t ∧ Answered midS1 t { n := statusWord midS1 }) :=
  ⟨by decide, by decide, by decide, by decide, by decide, by decide, _, rfl, rfl, rfl, rfl⟩

/-- ErrorPriority, ErrorsArePrecise, ResponsesAreZeroFilled, MalformedHeaderExactly, a step with one response: an illegal word, a command out of sequence, a command's own error, an answer. -/
theorem test_witness_StepWithResponse :
    (∃ t, step (pushInput (.command 0) midS1) = .next t ∧ t.resps = midS1.resps ++ [{ rc := .illegalCommand }] ∧
      decode 0 = .error (.reservedOpcode 0)) ∧
    (∃ t, step (pushInput (.command 0x313200000000) genS1) = .next t ∧ t.resps = genS1.resps ++ [{ rc := .badSequence }] ∧
      decode 0x313200000000 = .ok (.dbit 0x32) ∧ legalWhen (.dbit 0x32) genS1 = false) ∧
    (∃ t, step (pushInput (.command 0x313200000000) runS1) = .next t ∧ t.resps = runS1.resps ++ [{ rc := .invalidBit }] ∧
      legalWhen (.dbit 0x32) runS1 = true) ∧
    (∃ t, step (pushInput (.command 0x320000000000) midS1) = .next t ∧ t.resps = midS1.resps ++ [{ rc := .truncatedStream }]) ∧
    (∃ t, step (pushInput (.command 0x300000000000) emptyT) = .next t ∧ t.resps = emptyT.resps ++ [{ rc := .emptyTree }] ∧ StatusOk emptyT) :=
  ⟨⟨_, rfl, rfl, by decide⟩, ⟨_, rfl, rfl, by decide, by decide⟩, ⟨_, rfl, rfl, by decide⟩, ⟨_, rfl, rfl⟩,
    ⟨_, rfl, rfl, by decide⟩⟩

/-- The responses of R92 with `emit = 0` and with `emit = 1`. -/
theorem test_witness_ResponsesAreZeroFilled :
    (∃ t, step (pushInput (.command 0x313100000000) midS1) = .next t ∧ t.resps = midS1.resps ++ [{ emit := true, sym := 97, n := 1 }]) ∧
    (∃ t, step (pushInput (.command 0x313100000000) runS1) = .next t ∧ t.resps = runS1.resps ++ [({} : Resp)]) :=
  ⟨⟨_, rfl, rfl⟩, ⟨_, rfl, rfl⟩⟩

theorem test_witness_HaltIsLeftOnlyByFreshStart :
    haltS1.dst = .halt ∧ EngineOk haltS1 ∧ (∃ t, exec .gen haltS1 = .next t) ∧ (∃ t, exec .clr haltS1 = .next t) :=
  ⟨rfl, haltS1_ok, exec_gen_of_codes _ (by decide) (cs := codesS1) rfl, ⟨_, rfl⟩⟩

theorem test_witness_TreeAndTableAreImmutable :
    (∃ t, exec .gen builtS1 = .next t) ∧ Instr.gen ≠ .build ∧ (∃ t, exec .build builtS1 = .next t) ∧ Instr.build ≠ .gen :=
  ⟨exec_gen_of_codes _ (by decide) (cs := codesS1) rfl, by decide, exec_build_answers _, by decide⟩

theorem test_witness_WhichCommandWritesWhichField :
    (∃ t, exec (.dbit 0x31) midS1 = .next t) ∧ (Instr.dbit 0x31).op ≠ .clr ∧ (Instr.dbit 0x31).op ≠ .ldf ∧
      (Instr.dbit 0x31).op ≠ .build ∧ (∃ t, exec .rds midS1 = .next t) ∧ Instr.rds.op = .rds ∧ Instr.rds.op ≠ .gen ∧
      Instr.rds.op ≠ .dstart ∧ Instr.rds.op ≠ .dbit :=
  ⟨⟨_, rfl⟩, by decide, by decide, by decide, ⟨_, rfl⟩, by decide, by decide, by decide, by decide⟩

/-- A node memory no build makes: node 256 is its own left child. -/
def loopS : State :=
  { singleA with node := [(97, leafNode 97 4), (256, ⟨true, true, 256, 97, 97, 8⟩)], root := 256, ts := .multi }

/-- StopsOnlyOffTheTree: the two errors of reading a tree. -/
theorem test_witness_ReadingStops :
    treeAt loopS 256 = .error .codeTooLong ∧ treeAt { loopS with node := [(256, ⟨true, true, 511, 97, 97, 8⟩)] } 256 = .error .noSuchNode :=
  ⟨by decide +kernel, by decide +kernel⟩

theorem test_witness_StopsOnlyOffTheTree :
    let s := { singleA with root := 511 }
    let r := { runS1 with cur := 511 }
    (s.ts = .single ∧ s.root = 511 ∧ exec .dstart s = .fault .noSuchNode ∧ treeAt s s.root = .error .noSuchNode) ∧
    (r.dst = .run ∧ tokenBit 0x30 = some false ∧ r.cur = 511 ∧ exec (.dbit 0x30) r = .fault .noSuchNode) :=
  ⟨⟨rfl, rfl, rfl, rfl⟩, ⟨rfl, rfl, rfl, rfl⟩⟩

theorem test_witness_MemoriesKeepTheirCanonicalForm :
    MemoriesOk genS1 ∧ ∃ t, step (pushInput (.command 0x020500000000) genS1) = .next t := ⟨genS1_ok.1, _, rfl⟩

theorem test_witness_StatusCombinationsAreKept :
    StatusOk midS1 ∧ ∃ t, step (pushInput (.command 0x320000000000) midS1) = .next t := ⟨midS1_ok.2.1, _, rfl⟩

theorem test_witness_EngineInvariantIsKeptByEveryStep :
    EngineOk midS1 ∧ ∃ t, step midS1 = .next t := ⟨midS1_ok, _, rfl⟩

theorem test_witness_ResetMeetsTheInvariant : resetNext.pending = .reset :: [] := rfl

theorem test_witness_EngineNeverStopsAcceptingCommands :
    let s := { midS1 with pending := [.command 0x200000000000] }
    EngineOk s ∧ s.pending = .command 0x200000000000 :: [] := ⟨midS1_ok, rfl⟩

theorem test_witness_MalformedHeaderExactly :
    (headerTokens ['9', '7', ' ', '3', ' ', '9', '8']).length % 2 = 1 ∧
    (['x'] ∈ headerTokens ['9', '7', ' ', 'x'] ∧ parseNumber ['x'] = none) ∧
    ((headerTokens ['2', '5', '6', ' ', '1'])[2 * 0]? = some ['2', '5', '6'] ∧ parseNumber ['2', '5', '6'] = some 256) := by decide

theorem test_witness_LoadHeaderLoadsAndCodebookReadsTheTable :
    (∃ p ∈ [((97 : Sym8), 4294967296)], 2 ^ 32 ≤ p.2) ∧ (∀ p ∈ [((97 : Sym8), 4294967295)], p.2 < 2 ^ 32) ∧
      (EngineOk builtS1 ∧ builtS1.ts ≠ .none) ∧ tableS1.ts = .none ∧ emptyT.ts = .empty :=
  ⟨by decide, by decide, ⟨builtS1_ok, by decide⟩, rfl, rfl⟩

theorem test_witness_DecodingTheEncodedFileGivesItBack :
    (∀ sym, freqScan [97, 97, 97, 97] sym < 2 ^ 32) ∧ ∀ sym, freqScan [] sym < 2 ^ 32 :=
  ⟨fun sym => Nat.lt_of_le_of_lt List.count_le_length (by decide), fun sym => by simp [freqScan]⟩

/-- DecodingTheEncodedFileGivesItBack: a header with no pair, and one whose pair is zero. -/
theorem test_witness_DecodingAnAllZeroHeader :
    (parseHeader [] = .ok [] ∧ ∀ sym, tableOf [] sym = 0) ∧
      (parseHeader ['9', '7', ' ', '0'] = .ok [(97, 0)] ∧ (∀ p ∈ [((97 : Sym8), 0)], p.2 < 2 ^ 32) ∧ ∀ sym, tableOf [(97, 0)] sym = 0) :=
  ⟨⟨by rfl, fun _ => rfl⟩, by rfl, by decide, fun sym => by simp [tableOf]⟩

end Sys2Proof.Tests
end

section
/-! The command word read back, and one rule for each thing the engine can find on its command port: nothing, or the word of a command. -/

namespace Sys2Proof

/-- The operands of a command are all in the fields of its word (R82, R83). -/
@[simp] theorem mkInstr_fields (i : Instr) : mkInstr i.op (a8Field i) (a32Field i) = i := by cases i <;> rfl

/-- The encoder leaves every must-be-zero field of the row zero (R82, R85). -/
@[simp] theorem unusedZero_fields (i : Instr) : unusedZero i.op.format (a8Field i) (a32Field i) = true := by
  cases i <;> rfl

/-- Decoding the word of a command gives the command (R81, R88). -/
@[simp] theorem decode_encode (i : Instr) : decode (encode i) = .ok i := by
  simp [decode, opOfOpcode_opcode]

end Sys2Proof

namespace Sys2Proof.Machine

/-- With nothing pending the engine holds its state (R255). -/
theorem step_of_pending_nil {s : State} (hp : s.pending = []) : step s = .next s := by
  simp [step, takeInput, hp]

/-- A pending word that decodes is taken and its command runs (R7, R68). -/
theorem step_of_pending_command {s : State} {w : CmdWord} {rest : List HostInput} {i : Instr}
    (hp : s.pending = .command w :: rest) (hd : decode w = .ok i) : step s = exec i { s with pending := rest } := by
  simp [step, takeInput, hp, hd]

/-- A command whose word the host gives next runs in the state it was given in: taking the word undoes the giving. -/
@[simp] theorem step_pushInput_encode (s : State) (i : Instr) : step (pushInput (.command (encode i)) s) = exec i s :=
  step_of_pending_command (pushInput_pending _ s) (decode_encode i)

/-- `withFetchWord` with all 48 bits of a word gives that word next. -/
@[simp] theorem withFetchWord_toNat (s : State) (w : CmdWord) :
    s.withFetchWord 48 w.toNat = pushInput (.command w) s := by
  simp [State.withFetchWord]

end Sys2Proof.Machine

namespace Sys2Proof.Proofs
open Sys2Proof.Machine

/-- Settles O9: the rules of the command port, and the round trip of the command word for the word placed by `withFetchWord`. -/
theorem stepRunsTheDecodedCommand : Obligations.StepRunsTheDecodedCommand := by
  refine ⟨fun _ _ _ _ => step_of_pending_command, fun _ => step_of_pending_nil, fun s i => ?_⟩
  rw [withFetchWord_toNat, step_pushInput_encode]

end Sys2Proof.Proofs
end

section
/-! The working collection of a build, merge by merge (R24, R136). What the model's `mergeLoop` leaves when it is given `j` of fuel is the
collection before merge `j`, so one rule for one merge carries every fact about a build by induction on `j`. -/

namespace Sys2Proof.Machine

/-! ### The merges one at a time -/

/-- A collection of one node or none is left as it is (R137). -/
theorem mergeLoop_of_short {q : List Item} (h : q.length ≤ 1) (fuel k : Nat) : mergeLoop fuel k q = ([], q) := by
  match q, fuel with
  | [], 0 | [], _ + 1 | [_], 0 | [_], _ + 1 => rfl
  | _ :: _ :: _, _ => simp at h

/-- `m` merges and then `n` more are `m + n` merges. -/
theorem mergeLoop_add (m n k : Nat) (q : List Item) :
    mergeLoop (m + n) k q =
      ((mergeLoop m k q).1 ++ (mergeLoop n (k + m) (mergeLoop m k q).2).1, (mergeLoop n (k + m) (mergeLoop m k q).2).2) := by
  induction m generalizing k q with
  | zero => simp [mergeLoop]
  | succ m ih =>
    match q with
    | [] => simp [mergeLoop_of_short]
    | [_] => simp [mergeLoop_of_short]
    | a :: b :: q =>
      rw [Nat.succ_add, mergeLoop_step, mergeLoop_step, ih, Nat.succ_add_eq_add_succ k m]
      rfl

/-- The working collection of a build before its merge `j` (R24). -/
def collection (f : Memory Count) (j : Nat) : List Item := (mergeLoop j 0 (orderItems (builtLeaves f))).2

/-- The nodes a build has made before its merge `j`, in the order of the merges (R136). -/
def madeBefore (f : Memory Count) (j : Nat) : List Item := (mergeLoop j 0 (orderItems (builtLeaves f))).1

variable {f : Memory Count} {j : Nat}

@[simp] theorem madeBefore_zero : madeBefore f 0 = [] := rfl

theorem collection_zero_perm (f : Memory Count) : (collection f 0).Perm (builtLeaves f) := orderItems_perm _

/-- Merge `j` takes the two lowest nodes out of the collection and puts the node it makes in (R136). -/
theorem collection_step {a b : Item} {q : List Item} (hq : collection f j = a :: b :: q) :
    collection f (j + 1) = insertItem (mergeIdx j, mergeNode a b) q ∧
      madeBefore f (j + 1) = madeBefore f j ++ [(mergeIdx j, mergeNode a b)] := by
  have hstep : mergeLoop (j + 1) 0 (orderItems (builtLeaves f)) =
      (madeBefore f j ++ (mergeLoop 1 (0 + j) (collection f j)).1, (mergeLoop 1 (0 + j) (collection f j)).2) :=
    mergeLoop_add j 1 0 _
  rw [hq, Nat.zero_add] at hstep
  exact ⟨congrArg Prod.snd hstep, congrArg Prod.fst hstep⟩

/-- Each merge takes one node off the collection (R137). -/
theorem collection_length (hj : j < leafCount f) : (collection f j).length = leafCount f - j := by
  induction j with
  | zero => exact (collection_zero_perm f).length_eq
  | succ j ih =>
    have hlen := ih (by omega)
    match hq : collection f j with
    | [] | [_] => simp only [hq, List.length_cons, List.length_nil] at hlen; omega
    | a :: b :: q =>
      rw [hq] at hlen
      simp only [(collection_step hq).1, insertItem_length, List.length_cons] at hlen ⊢
      omega

/-- While a merge is to come the collection holds two nodes to merge (R136, R137). -/
theorem collection_succ (hj : j + 1 < leafCount f) :
    ∃ a b q, collection f j = a :: b :: q ∧ collection f (j + 1) = insertItem (mergeIdx j, mergeNode a b) q ∧
      madeBefore f (j + 1) = madeBefore f j ++ [(mergeIdx j, mergeNode a b)] := by
  have hlen := collection_length (f := f) (j := j) (by omega)
  match hq : collection f j with
  | [] | [_] => simp only [hq, List.length_cons, List.length_nil] at hlen; omega
  | a :: b :: q => exact ⟨a, b, q, rfl, collection_step hq⟩

/-- A whole build is one merge for each leaf but one (R137). -/
theorem mergeRun_eq (f : Memory Count) :
    mergeRun f = (madeBefore f (leafCount f - 1), collection f (leafCount f - 1)) := by
  rcases Nat.eq_zero_or_pos (leafCount f) with h0 | hpos
  · unfold mergeRun; rw [show (builtLeaves f).length = 0 from h0, h0]; rfl
  · have hlen := collection_length (f := f) (j := leafCount f - 1) (by omega)
    have hsplit : mergeRun f = mergeLoop (leafCount f - 1 + 1) 0 (orderItems (builtLeaves f)) := by
      rw [Nat.sub_add_cancel hpos]; rfl
    have hlast := mergeLoop_of_short (q := collection f (leafCount f - 1)) (by omega) 1 (0 + (leafCount f - 1))
    rw [hsplit, mergeLoop_add]
    show (madeBefore f _ ++ (mergeLoop 1 _ (collection f _)).1, (mergeLoop 1 _ (collection f _)).2) = _
    rw [hlast, List.append_nil]

theorem builtItems_eq (f : Memory Count) : builtItems f = builtLeaves f ++ madeBefore f (leafCount f - 1) := by
  rw [builtItems, mergeRun_eq]

/-- What a build has made before a merge it has made in the end. -/
theorem madeBefore_prefix {i : Nat} (h : i ≤ j) : madeBefore f i <+: madeBefore f j := by
  obtain ⟨d, rfl⟩ := Nat.exists_eq_add_of_le h
  exact ⟨_, (congrArg Prod.fst (mergeLoop_add i d 0 (orderItems (builtLeaves f)))).symm⟩

/-- The nodes made before merge `j` are those of the merges below `j`, each of the two lowest nodes of its collection (R136). -/
theorem mem_madeBefore (hj : j < leafCount f) {x : Item} :
    x ∈ madeBefore f j ↔ ∃ i a b q, i < j ∧ collection f i = a :: b :: q ∧ x = (mergeIdx i, mergeNode a b) := by
  induction j with
  | zero => simp
  | succ j ih =>
    obtain ⟨a, b, q, hq, -, hmade⟩ := collection_succ hj
    rw [hmade, List.mem_append, List.mem_singleton, ih (by omega)]
    constructor
    · rintro (⟨i, a, b, q, hi, h⟩ | rfl)
      · exact ⟨i, a, b, q, by omega, h⟩
      · exact ⟨j, a, b, q, by omega, hq, rfl⟩
    · rintro ⟨i, a', b', q', hi, hq', rfl⟩
      rcases Nat.lt_succ_iff_lt_or_eq.1 hi with hi | rfl
      · exact .inl ⟨i, a', b', q', hi, hq', rfl⟩
      · rw [hq] at hq'
        injection hq' with ha hq'
        injection hq' with hb hq'
        exact .inr (by rw [ha, hb])

/-! ### The items of a build: leaves and merged nodes -/

theorem idxKey_mergeIdx {k : Nat} (h : k < 256) : idxKey (mergeIdx k) = 256 + k := by
  simp only [idxKey, mergeIdx, BitVec.toNat_ofNat]; omega

@[simp] theorem isLeaf_leafNode (sym : Sym8) (cnt : Count) : isLeaf (leafNode sym cnt) = true := rfl

@[simp] theorem isLeaf_mergeNode (a b : Item) : isLeaf (mergeNode a b) = false := rfl

/-- A leaf stands below index 256 (R23). -/
theorem idxKey_of_mem_builtLeaves {x : Item} (hx : x ∈ builtLeaves f) : idxKey x.1 < 256 := by
  obtain ⟨k, hk, -, rfl⟩ := mem_builtLeaves.1 hx
  simp only [idxKey, BitVec.toNat_ofNat]; omega

theorem isLeaf_of_mem_builtLeaves {x : Item} (hx : x ∈ builtLeaves f) : isLeaf x.2 = true := by
  obtain ⟨k, -, -, rfl⟩ := mem_builtLeaves.1 hx
  rfl

/-- The index of a node a merge made, and that it is no leaf (R23, R136). -/
theorem idxKey_of_mem_madeBefore (hj : j < leafCount f) {x : Item} (hx : x ∈ madeBefore f j) :
    256 ≤ idxKey x.1 ∧ idxKey x.1 < 256 + j ∧ isLeaf x.2 = false := by
  obtain ⟨i, a, b, q, hi, -, rfl⟩ := (mem_madeBefore hj).1 hx
  have hle := leafCount_le f
  rw [idxKey_mergeIdx (by omega)]
  exact ⟨by omega, by omega, rfl⟩

/-- The collection before merge `j` holds leaves and nodes made before (R24). -/
theorem collection_subset (hj : j < leafCount f) : collection f j ⊆ builtLeaves f ++ madeBefore f j := by
  induction j with
  | zero =>
    intro x hx
    simpa using (collection_zero_perm f).mem_iff.1 hx
  | succ j ih =>
    obtain ⟨a, b, q, hq, hnext, hmade⟩ := collection_succ hj
    have ih := ih (by omega)
    intro x hx
    rw [hnext, mem_insertItem] at hx
    rw [hmade, ← List.append_assoc, List.mem_append, List.mem_singleton]
    rcases hx with rfl | hx
    · exact .inr rfl
    · exact .inl (ih (hq ▸ List.mem_cons_of_mem _ (List.mem_cons_of_mem _ hx)))

/-- The nodes of every collection are entries the build allocates (R23). -/
theorem mem_builtItems_of_collection (hj : j < leafCount f) {x : Item} (hx : x ∈ collection f j) : x ∈ builtItems f := by
  rw [builtItems_eq]
  exact List.append_subset.2 ⟨List.subset_append_left _ _,
    fun _ h => List.mem_append_right _ ((madeBefore_prefix (by omega)).subset h)⟩ (collection_subset hj hx)

/-- An entry the build allocates is a leaf exactly when its index is below 256, and no index is past the last merge (R23, R37 item 5). -/
theorem builtItems_leaf_iff {x : Item} (hx : x ∈ builtItems f) :
    isLeaf x.2 = decide (idxKey x.1 < 256) ∧ idxKey x.1 + 1 < 256 + max 1 (leafCount f) := by
  rw [builtItems_eq, List.mem_append] at hx
  rcases hx with hx | hx
  · have := idxKey_of_mem_builtLeaves hx
    exact ⟨by simp [isLeaf_of_mem_builtLeaves hx, this], by omega⟩
  · rcases Nat.eq_zero_or_pos (leafCount f) with h0 | hpos
    · rw [h0] at hx; simp at hx
    · obtain ⟨hlow, hhigh, hleaf⟩ := idxKey_of_mem_madeBefore (by omega) hx
      exact ⟨by simp [hleaf, hlow], by omega⟩

/-! ### The root and the merge at an internal index -/

/-- One node is left after the last merge, and it is the root (R137). -/
theorem collection_last (h : leafCount f ≠ 0) : ∃ x, collection f (leafCount f - 1) = [x] ∧ builtRoot f = some x.1 := by
  have hlen := collection_length (f := f) (j := leafCount f - 1) (by omega)
  obtain ⟨x, hx⟩ := List.length_eq_one_iff.1 (hlen.trans (by omega))
  exact ⟨x, hx, by simp [builtRoot, mergeRun_eq, hx]⟩

/-- With two leaves or more the root is the node of the last merge (R37 item 2). -/
theorem builtRoot_of_two_le (h : 2 ≤ leafCount f) : builtRoot f = some (mergeIdx (leafCount f - 2)) := by
  obtain ⟨x, hx, hroot⟩ := collection_last (f := f) (by omega)
  obtain ⟨a, b, q, -, hnext, -⟩ := collection_succ (f := f) (j := leafCount f - 2) (by omega)
  rw [show leafCount f - 2 + 1 = leafCount f - 1 by omega, hx] at hnext
  have hmem : (mergeIdx (leafCount f - 2), mergeNode a b) ∈ [x] := by rw [hnext]; simp
  rw [hroot, ← List.mem_singleton.1 hmem]

/-- Merge `j` makes an entry the build allocates, of two nodes of its collection (R136). -/
theorem merge_mem_builtItems (hj : j + 1 < leafCount f) :
    ∃ a b q, collection f j = a :: b :: q ∧ (mergeIdx j, mergeNode a b) ∈ builtItems f := by
  obtain ⟨a, b, q, hq, -, -⟩ := collection_succ hj
  refine ⟨a, b, q, hq, ?_⟩
  rw [builtItems_eq]
  exact List.mem_append_right _ ((mem_madeBefore (by omega)).2 ⟨j, a, b, q, by omega, hq, rfl⟩)

end Sys2Proof.Machine
end

section
/-! What every step keeps. A step takes an input, resets, answers, or runs a command, so a property of the state is kept by every step when
each of these keeps it. The combinations of the status fields (R33, R34) are the first such property. -/

namespace Sys2Proof.Machine

variable {s t : State} {r : Resp}

/-- A pending reset input is taken and resets the engine (R270). -/
theorem step_of_pending_reset {rest : List HostInput} (hp : s.pending = .reset :: rest) :
    step s = .next (assertReset { s with pending := rest }) := by
  simp [step, takeInput, hp]

/-- A property that taking an input, the reset input, an answer and every command keep is kept by every step. -/
theorem step_keeps {P : State → Prop} (htake : ∀ s rest, P s → P { s with pending := rest }) (hreset : ∀ s, P s → P (assertReset s))
    (hrespond : ∀ s r, P s → P (respond r s)) (hexec : ∀ i s t, P s → exec i s = .next t → P t)
    (hs : P s) (h : step s = .next t) : P t := by
  obtain ⟨-, rfl⟩ | ⟨rest, -, rfl⟩ | ⟨w, rest, i, -, -, hi⟩ | ⟨w, rest, e, -, -, rfl⟩ := step_cases h
  · exact hs
  · exact hreset _ (htake s rest hs)
  · exact hexec i _ t (htake s rest hs) hi
  · exact hrespond _ _ (htake s rest hs)

/-! ### The combinations of the status fields (R33, R34) -/

/-- Where nothing is derived from the counts no combination is ruled out (R38). -/
theorem statusOk_of_none (hts : s.ts = .none) (hcs : s.cs = false) (hdst : s.dst = .idle) (hderr : s.derr = 0) (hn : s.nleaf = 0) :
    StatusOk s := by
  simp [StatusOk, hts, hcs, hdst, hderr, hn]

theorem statusOk_invalidate (s : State) : StatusOk (invalidate s) := statusOk_of_none rfl rfl rfl rfl rfl

@[simp] theorem builtTs_zero : builtTs 0 = .empty := rfl
@[simp] theorem builtTs_one : builtTs 1 = .single := rfl
@[simp] theorem builtTs_add_two (n : Nat) : builtTs (n + 2) = .multi := by simp [builtTs]

/-- The tree state and the number of leaves BUILD sets belong together (R30, R138). -/
theorem statusOk_built {n : Nat} (hn : n ≤ 256) (hnleaf : s.nleaf = BitVec.ofNat 9 n) (hts : s.ts = builtTs n)
    (hcs : s.cs = false) (hdst : s.dst = .idle) (hderr : s.derr = 0) : StatusOk s := by
  match n with
  | 0 => simp [StatusOk, hnleaf, hts, hcs, hdst, hderr]
  | 1 => simp [StatusOk, hnleaf, hts, hcs, hdst, hderr]
  | n + 2 =>
    have hnat : s.nleaf.toNat = n + 2 := by rw [hnleaf, BitVec.toNat_ofNat]; omega
    simp [StatusOk, hts, hcs, hdst, hderr, hnat]
    omega

/-- An error is latched in HALT only (R33). -/
theorem StatusOk.derr_eq_zero (h : StatusOk s) (hd : s.dst ≠ .halt) : s.derr = 0 := by
  obtain ⟨-, -, -, -, -, -, hlatch, -⟩ := h
  exact not_not.1 fun hne => hd (hlatch.1 hne)

/-- A decoder runs only on a tree of several leaves (R32). -/
theorem StatusOk.multi_of_run (h : StatusOk s) (hd : s.dst = .run) : s.ts = .multi := by
  obtain ⟨-, -, hrun, -⟩ := h
  exact hrun hd

/-- A move of the decoder to a state that fits the tree state, no error latched, keeps the combinations (R32, R33). -/
theorem StatusOk.setDecoder (h : StatusOk s) {d : DecState} (hidle : d ≠ .idle → s.ts ≠ .none) (hrun : d = .run → s.ts = .multi)
    (hdone : d = .done → s.ts = .single) (hhalt : d ≠ .halt) : StatusOk (setDecoder d s) := by
  obtain ⟨hcs, -, -, -, -, -, -, hn⟩ := h
  exact ⟨hcs, hidle, hrun, hdone, fun he => absurd he hhalt, .inl rfl, iff_of_false (fun hne => hne rfl) hhalt, hn⟩

/-- Outside HALT the end of a decode is the move to IDLE (R213). -/
theorem StatusOk.idle_eq_setDecoder (h : StatusOk s) (hd : s.dst ≠ .halt) : { s with dst := .idle } = Machine.setDecoder .idle s := by
  unfold Machine.setDecoder
  rw [← h.derr_eq_zero hd]

/-- A running decoder halts with one of its two errors (R33, R250). -/
theorem StatusOk.haltDecoder (h : StatusOk s) {e : ResultCode} (hm : s.ts = .multi) (he : e = .invalidBit ∨ e = .truncatedStream) :
    StatusOk (haltDecoder e s) := by
  obtain ⟨hcs, -, -, -, -, -, -, hn⟩ := h
  have hcode : rcCode e = 3 ∨ rcCode e = 4 := he.imp (by rintro rfl; rfl) (by rintro rfl; rfl)
  have hne : rcCode e ≠ 0 := by rcases hcode with h | h <;> rw [h] <;> decide
  exact ⟨hcs, fun _ => by simp [hm], by simp, by simp, fun _ => hm, .inr hcode, iff_of_true hne rfl, hn⟩

/-- With a tree state to read the code table may become valid (R31). -/
theorem StatusOk.gen (h : StatusOk s) (hts : s.ts ≠ .none) (code : Memory CodeEntry) : StatusOk { s with code := code, cs := true } :=
  ⟨fun _ => hts, h.2⟩

/-- No command leads to a combination that is ruled out. -/
theorem StatusOk.exec {i : Instr} (h : StatusOk s) (ht : exec i s = .next t) : StatusOk t := by
  cases i with
  | clr => rw [execClr_cases ht]; exact statusOk_invalidate (clearFreq s)
  | ldf sym cnt => rw [execLdf_cases ht]; exact statusOk_invalidate (writeFreq sym cnt s)
  | rdf sym => rw [execRdf_cases ht]; exact h
  | rds => rw [execRds_cases ht]; exact h
  | build =>
    obtain ⟨-, rfl⟩ | ⟨root, -, rfl⟩ := execBuild_cases ht <;>
      exact statusOk_built (leafCount_le s.freq) rfl rfl rfl rfl rfl
  | gen =>
    obtain ⟨-, rfl⟩ | ⟨cs, hts, -, rfl⟩ := execGen_cases ht
    · exact h
    · exact h.gen hts (codeTable cs)
  | lkup sym =>
    obtain ⟨-, rfl⟩ | ⟨-, -, rfl⟩ | ⟨-, -, rfl⟩ := execLkup_cases ht <;> exact h
  | dstart =>
    obtain ⟨-, rfl⟩ | ⟨hts, rfl⟩ | ⟨n, hts, -, rfl⟩ | ⟨hts, rfl⟩ := execDstart_cases ht
    · exact h
    · exact h.setDecoder (by simp) (by simp) (by simp) (by simp)
    · exact h.setDecoder (by simp [hts]) (by simp) (by simp [hts]) (by simp)
    · exact StatusOk.setDecoder (s := { s with cur := s.root }) h (by simp [hts]) (by simp [hts]) (by simp) (by simp)
  | dbit tok =>
    obtain ⟨-, rfl⟩ | ⟨hd, -, rfl⟩ | ⟨bit, hd, -, hw⟩ := execDbit_cases ht
    · exact h
    · exact h.haltDecoder (h.multi_of_run hd) (.inl rfl)
    · obtain ⟨n, c, -, -, ⟨-, rfl⟩ | ⟨-, rfl⟩⟩ := walkBit_cases hw <;> exact h
  | dend =>
    obtain ⟨-, rfl⟩ | ⟨hd, rfl⟩ | ⟨hd, -, rfl⟩ | ⟨hd, -, rfl⟩ := execDend_cases ht
    · exact h
    · rw [h.idle_eq_setDecoder (by simp [hd])]; exact h.setDecoder (by simp) (by simp) (by simp) (by simp)
    · rw [h.idle_eq_setDecoder (by simp [hd])]; exact h.setDecoder (by simp) (by simp) (by simp) (by simp)
    · exact h.haltDecoder (h.multi_of_run hd) (.inr rfl)

end Sys2Proof.Machine

namespace Sys2Proof.Proofs
open Sys2Proof.Machine

/-- Settles O52: each update of the status fields keeps the combinations, and so each command and the reset input do. -/
theorem statusCombinationsAreKept : Obligations.StatusCombinationsAreKept := fun _ _ hs h =>
  step_keeps (P := StatusOk) (fun _ _ hs => hs) (fun _ _ => statusOk_of_none rfl rfl rfl rfl rfl) (fun _ _ hs => hs)
    (fun _ _ _ hs ht => hs.exec ht) hs h

end Sys2Proof.Proofs
end

section
/-! What each command writes. Before its response a command holds the state, or makes the one update of its own listed here; what it
leaves unchanged (R35, R36) is read off the update. -/

namespace Sys2Proof.Machine

/-- The updates of the state the commands make, without the response (R35). -/
inductive Effect (s : State) : Instr → State → Prop
  | hold (i : Instr) : Effect s i s
  | clr : Effect s .clr (invalidate (clearFreq s))
  | ldf (sym : Sym8) (cnt : Count) : Effect s (.ldf sym cnt) (invalidate (writeFreq sym cnt s))
  | buildEmpty : Effect s .build { dropDerived s with
      nleaf := BitVec.ofNat 9 (leafCount s.freq), ts := builtTs (leafCount s.freq), pqn := 0 }
  | build (root : Idx) : Effect s .build { dropDerived s with
      nleaf := BitVec.ofNat 9 (leafCount s.freq), ts := builtTs (leafCount s.freq),
      node := writeItems (builtItems s.freq) s.node, pq := [(0, root)], pqn := 1, root := root }
  | gen (cs : List (Sym8 × List Bool)) : Effect s .gen { s with code := codeTable cs, cs := true }
  | dstart (d : DecState) (c : Idx) : Effect s .dstart { s with dst := d, derr := 0, cur := c }
  | dbit (tok : BitVec 8) (d : DecState) (e : BitVec 4) (c : Idx) : Effect s (.dbit tok) { s with dst := d, derr := e, cur := c }
  | dend (d : DecState) (e : BitVec 4) : Effect s .dend { s with dst := d, derr := e }

variable {s t u : State} {i : Instr}

/-- A command that answers has made one of its updates and given one response. -/
theorem exec_effect (h : exec i s = .next t) : ∃ r u, Effect s i u ∧ t = respond r u := by
  cases i with
  | clr => exact ⟨_, _, .clr, execClr_cases h⟩
  | ldf sym cnt => exact ⟨_, _, .ldf sym cnt, execLdf_cases h⟩
  | rdf sym => exact ⟨_, _, .hold _, execRdf_cases h⟩
  | rds => exact ⟨_, _, .hold _, execRds_cases h⟩
  | build =>
    obtain ⟨-, h⟩ | ⟨root, -, h⟩ := execBuild_cases h
    · exact ⟨_, _, .buildEmpty, h⟩
    · exact ⟨_, _, .build root, h⟩
  | gen =>
    obtain ⟨-, h⟩ | ⟨cs, -, -, h⟩ := execGen_cases h
    · exact ⟨_, _, .hold _, h⟩
    · exact ⟨_, _, .gen cs, h⟩
  | lkup sym =>
    obtain ⟨-, h⟩ | ⟨-, -, h⟩ | ⟨-, -, h⟩ := execLkup_cases h <;> exact ⟨_, _, .hold _, h⟩
  | dstart =>
    obtain ⟨-, h⟩ | ⟨-, h⟩ | ⟨n, -, -, h⟩ | ⟨-, h⟩ := execDstart_cases h
    · exact ⟨_, _, .hold _, h⟩
    · exact ⟨_, _, .dstart .idle s.cur, h⟩
    · exact ⟨_, _, .dstart .done s.cur, h⟩
    · exact ⟨_, _, .dstart .run s.root, h⟩
  | dbit tok =>
    obtain ⟨-, h⟩ | ⟨-, -, h⟩ | ⟨bit, -, -, hw⟩ := execDbit_cases h
    · exact ⟨_, _, .hold _, h⟩
    · exact ⟨_, _, .dbit tok .halt 3 s.cur, h⟩
    · obtain ⟨n, c, -, -, ⟨-, h⟩ | ⟨-, h⟩⟩ := walkBit_cases hw
      · exact ⟨_, _, .dbit tok s.dst s.derr s.root, h⟩
      · exact ⟨_, _, .dbit tok s.dst s.derr (childOf n bit), h⟩
  | dend =>
    obtain ⟨-, h⟩ | ⟨-, h⟩ | ⟨-, -, h⟩ | ⟨-, -, h⟩ := execDend_cases h
    · exact ⟨_, _, .hold _, h⟩
    · exact ⟨_, _, .dend .idle s.derr, h⟩
    · exact ⟨_, _, .dend .idle s.derr, h⟩
    · exact ⟨_, _, .dend .halt 4, h⟩

/-- Every update keeps the canonical form of the memories (R60). -/
theorem Effect.memoriesOk (he : Effect s i u) (h : MemoriesOk s) : MemoriesOk u := by
  obtain ⟨hfreq, hnode, hpq, hcode⟩ := h
  cases he with
  | hold | buildEmpty | dstart | dbit | dend => exact ⟨hfreq, hnode, hpq, hcode⟩
  | clr => exact ⟨nil_wf, hnode, hpq, hcode⟩
  | ldf sym cnt => exact ⟨setCount_wf cnt (symKey_lt sym) hfreq, hnode, hpq, hcode⟩
  | build root => exact ⟨hfreq, writeItems_wf (fun _ hx => builtItems_lt hx) hnode, by simp [Memory.wf], hcode⟩
  | gen cs => exact ⟨hfreq, hnode, hpq, codeTable_wf cs⟩

theorem MemoriesOk.exec (h : MemoriesOk s) (ht : exec i s = .next t) : MemoriesOk t := by
  obtain ⟨r, u, he, rfl⟩ := exec_effect ht
  exact (he.memoriesOk h : MemoriesOk u)

/-- No update counts a reset. -/
theorem Effect.era (he : Effect s i u) : u.era = s.era := by cases he <;> rfl

/-- Only BUILD writes the tree (R36). -/
theorem Effect.tree (he : Effect s i u) (hi : i ≠ .build) : u.root = s.root ∧ u.node = s.node := by
  cases he with
  | buildEmpty | build => exact absurd rfl hi
  | hold | clr | ldf | gen | dstart | dbit | dend => exact ⟨rfl, rfl⟩

/-- Only GEN writes the code table (R36). -/
theorem Effect.code (he : Effect s i u) (hi : i ≠ .gen) : u.code = s.code := by
  cases he with
  | gen => exact absurd rfl hi
  | hold | clr | ldf | buildEmpty | build | dstart | dbit | dend => rfl

/-- Only CLR and LDF write the counts (R21). -/
theorem Effect.freq (he : Effect s i u) (hclr : i.op ≠ .clr) (hldf : i.op ≠ .ldf) : u.freq = s.freq := by
  cases he with
  | clr => exact absurd rfl hclr
  | ldf => exact absurd rfl hldf
  | hold | buildEmpty | build | gen | dstart | dbit | dend => rfl

/-- Only BUILD writes the working collection (R24). -/
theorem Effect.queue (he : Effect s i u) (hi : i.op ≠ .build) : u.pq = s.pq ∧ u.pqn = s.pqn := by
  cases he with
  | buildEmpty | build => exact absurd rfl hi
  | hold | clr | ldf | gen | dstart | dbit | dend => exact ⟨rfl, rfl⟩

/-- Only DSTART and DBIT write `CUR` (R26). -/
theorem Effect.cur (he : Effect s i u) (hstart : i.op ≠ .dstart) (hbit : i.op ≠ .dbit) : u.cur = s.cur := by
  cases he with
  | dstart => exact absurd rfl hstart
  | dbit => exact absurd rfl hbit
  | hold | clr | ldf | buildEmpty | build | gen | dend => rfl

/-- Only CLR, LDF and BUILD write the tree state, and only these and GEN the state of the code table (R30, R31). -/
theorem Effect.treeState (he : Effect s i u) (hclr : i.op ≠ .clr) (hldf : i.op ≠ .ldf) (hbuild : i.op ≠ .build) :
    u.ts = s.ts ∧ u.nleaf = s.nleaf ∧ (i.op ≠ .gen → u.cs = s.cs) := by
  cases he with
  | clr => exact absurd rfl hclr
  | ldf => exact absurd rfl hldf
  | buildEmpty | build => exact absurd rfl hbuild
  | gen => exact ⟨rfl, rfl, fun hgen => absurd rfl hgen⟩
  | hold | dstart | dbit | dend => exact ⟨rfl, rfl, fun _ => rfl⟩

/-- GEN and the reading commands leave the decoder as it is (R32, R33). -/
theorem Effect.decoder (he : Effect s i u) (hi : i.op = .gen ∨ i.op = .lkup ∨ i.op = .rdf ∨ i.op = .rds) :
    u.dst = s.dst ∧ u.derr = s.derr := by
  cases he with
  | hold | gen => exact ⟨rfl, rfl⟩
  | clr | ldf | buildEmpty | build | dstart | dbit | dend => simp [Instr.op] at hi

end Sys2Proof.Machine

namespace Sys2Proof.Proofs
open Sys2Proof.Machine

/-- Settles O48: the frame of NODE, ROOT and CODE of each update. -/
theorem treeAndTableAreImmutable : Obligations.TreeAndTableAreImmutable := by
  intro i s t h
  obtain ⟨r, u, he, rfl⟩ := exec_effect h
  refine ⟨fun hi => ?_, fun hi sym => readCode_congr (he.code hi) he.era sym⟩
  obtain ⟨hroot, hnode⟩ := he.tree hi
  exact ⟨hroot, fun j => readNode_congr hnode he.era j⟩

/-- Settles O49: the frame of each update, field by field. -/
theorem whichCommandWritesWhichField : Obligations.WhichCommandWritesWhichField := by
  intro i s t h
  obtain ⟨r, u, he, rfl⟩ := exec_effect h
  refine ⟨fun hclr hldf sym => readFreq_congr (he.freq hclr hldf) sym, fun hi => ?_, he.cur, fun hclr hldf hbuild => ?_, he.decoder⟩
  · obtain ⟨hpq, hpqn⟩ := he.queue hi
    exact ⟨fun p => readPq_congr hpq he.era p, hpqn⟩
  · exact he.treeState hclr hldf hbuild

/-- Settles O11: with no count listed every entry reads 0, and the status fields have the codes of R39. -/
theorem resetStateHasTheStatedValues : Obligations.ResetStateHasTheStatedValues :=
  ⟨fun sym => countAt_nil (symKey sym), rfl, rfl, rfl, rfl, rfl, by decide, rfl⟩

end Sys2Proof.Proofs
end

section
/-! The invariant of a command boundary, part by part: the tree a build leaves, the code table read from it, and the decoder, whose moves stay on
the entries the build allocated. -/

namespace Sys2Proof.Machine

variable {s t : State}

/-! ### The tree a build leaves -/

theorem builtTs_ne_none (n : Nat) : builtTs n ≠ .none := by
  match n with
  | 0 | 1 => simp
  | n + 2 => simp

theorem builtTs_eq_multi {n : Nat} : builtTs n = .multi ↔ 2 ≤ n := by
  match n with
  | 0 | 1 => simp
  | n + 2 => simp

theorem builtTs_eq_empty {n : Nat} : builtTs n = .empty ↔ n = 0 := by
  match n with
  | 0 | 1 => simp
  | n + 2 => simp

/-- BUILD leaves the tree of the counts it finds, which it keeps (R140). -/
theorem execBuild_treeOk (h : execBuild s = .next t) : TreeOk t ∧ t.ts = builtTs (leafCount s.freq) ∧ t.freq = s.freq := by
  have hle := leafCount_le s.freq
  have hnat : (BitVec.ofNat 9 (leafCount s.freq)).toNat = leafCount s.freq := by rw [BitVec.toNat_ofNat]; omega
  obtain ⟨hroot, rfl⟩ | ⟨root, hroot, rfl⟩ := execBuild_cases h
  · have hempty := builtTs_eq_empty.2 (builtRoot_eq_none.1 hroot)
    exact ⟨fun _ => ⟨rfl, hnat, fun hne => absurd hempty hne⟩, rfl, rfl⟩
  · exact ⟨fun _ => ⟨rfl, hnat, fun _ => ⟨hroot, fun _ hx => memLookup_built hx⟩⟩, rfl, rfl⟩

/-- Under a tree with leaves `ROOT` is the root of the build and `NODE` reads each entry the build allocates. -/
theorem TreeOk.reads (h : TreeOk s) (hn : s.ts ≠ .none) (he : s.ts ≠ .empty) :
    builtRoot s.freq = some s.root ∧ ∀ x ∈ builtItems s.freq, readNode s x.1 = some x.2 := by
  obtain ⟨-, -, hheld⟩ := h hn
  obtain ⟨hroot, hnode⟩ := hheld he
  refine ⟨hroot, fun x hx => readNode_of_lookup (fun h511 => ?_) (hnode x hx)⟩
  have hlt := builtItems_lt hx
  rw [h511] at hlt
  exact absurd hlt (by decide)

/-- A tree of several leaves: `NLEAF` is their number, two or more, and `ROOT` the node of the last merge (R30, R37 item 2). -/
theorem TreeOk.multi (h : TreeOk s) (hm : s.ts = .multi) :
    2 ≤ leafCount s.freq ∧ s.nleaf.toNat = leafCount s.freq ∧ s.root = mergeIdx (leafCount s.freq - 2) := by
  obtain ⟨hts, hn, -⟩ := h (by simp [hm])
  have htwo := builtTs_eq_multi.1 (hts.symm.trans hm)
  obtain ⟨hroot, -⟩ := h.reads (by simp [hm]) (by simp [hm])
  exact ⟨htwo, hn, (Option.some.inj (hroot.symm.trans (builtRoot_of_two_le htwo)))⟩

/-! ### The decoder stays on the tree (R212) -/

/-- `ROOT` is an internal node where there are several leaves. -/
theorem TreeOk.decoderOk_root (h : TreeOk s) (hm : s.ts = .multi) : DecoderOk { s with cur := s.root } := by
  intro _
  obtain ⟨htwo, hn, hroot⟩ := h.multi hm
  have hle := leafCount_le s.freq
  have hkey : s.root.toNat = 256 + (leafCount s.freq - 2) := by rw [hroot]; exact idxKey_mergeIdx (by omega)
  simp only [hkey, hn]
  omega

/-- From an internal node each branch leads to an entry the build allocated. -/
theorem DecoderOk.child (h : DecoderOk s) (ht : TreeOk s) (hr : s.dst = .run) (hm : s.ts = .multi) {n : Node}
    (hn : readNode s s.cur = some n) (bit : Bool) : ∃ x ∈ builtItems s.freq, childOf n bit = x.1 := by
  obtain ⟨-, hnleaf, -⟩ := ht.multi hm
  obtain ⟨hlow, hhigh⟩ := h hr
  have hle := leafCount_le s.freq
  obtain ⟨j, hj⟩ := Nat.exists_eq_add_of_le hlow
  obtain ⟨a, b, q, hq, hmade⟩ := merge_mem_builtItems (f := s.freq) (j := j) (by omega)
  have hcur : s.cur = mergeIdx j := idxKey_inj.1 (hj.trans (idxKey_mergeIdx (by omega)).symm)
  have hnode : n = mergeNode a b := by
    have := (ht.reads (by simp [hm]) (by simp [hm])).2 _ hmade
    exact Option.some.inj (hn.symm.trans (hcur ▸ this))
  have hin : ∀ y ∈ collection s.freq j, y ∈ builtItems s.freq := fun y => mem_builtItems_of_collection (by omega)
  rw [hq] at hin
  subst hnode
  cases bit with
  | false => exact ⟨a, hin a (by simp), rfl⟩
  | true => exact ⟨b, hin b (by simp), rfl⟩

/-- A branch that does not end at a leaf leads to an internal node. -/
theorem DecoderOk.move (h : DecoderOk s) (ht : TreeOk s) (hr : s.dst = .run) (hm : s.ts = .multi) {n c : Node} {bit : Bool}
    (hn : readNode s s.cur = some n) (hc : readNode s (childOf n bit) = some c) (hleaf : isLeaf c = false) :
    DecoderOk { s with cur := childOf n bit } := by
  intro _
  obtain ⟨htwo, hnleaf, -⟩ := ht.multi hm
  obtain ⟨x, hx, hchild⟩ := h.child ht hr hm hn bit
  obtain ⟨hiff, hhigh⟩ := builtItems_leaf_iff hx
  have hcx : c = x.2 := by
    have := (ht.reads (by simp [hm]) (by simp [hm])).2 x hx
    exact Option.some.inj (hc.symm.trans (hchild ▸ this))
  have hlow : ¬ idxKey x.1 < 256 := by simpa [← hcx, hleaf] using hiff
  simp only [idxKey] at hlow hhigh
  simp only [hchild, hnleaf]
  omega

/-! ### The whole invariant -/

/-- Where nothing is derived from the counts the invariant asks for the memories' form alone (R38). -/
theorem engineOk_of_none (hmem : MemoriesOk s) (hstatus : StatusOk s) (hts : s.ts = .none) : EngineOk s := by
  refine ⟨hmem, hstatus, fun hne => absurd hts hne, fun hcs => ?_, fun hrun => ?_⟩
  · obtain ⟨hts', -⟩ := hstatus; exact absurd hts (hts' hcs)
  · obtain ⟨-, hts', -⟩ := hstatus; exact absurd hts (hts' (by simp [hrun]))

theorem engineOk_assertReset (s : State) : EngineOk (assertReset s) :=
  engineOk_of_none ⟨nil_wf, nil_wf, nil_wf, nil_wf⟩ (statusOk_of_none rfl rfl rfl rfl rfl) rfl

/-- A move of the decoder leaves the memories, the tree and the code table. -/
theorem EngineOk.moveDecoder (h : EngineOk s) {d : DecState} {e : BitVec 4} {c : Idx}
    (hstatus : StatusOk { s with dst := d, derr := e, cur := c }) (hdec : DecoderOk { s with dst := d, derr := e, cur := c }) :
    EngineOk { s with dst := d, derr := e, cur := c } := by
  obtain ⟨hmem, -, htree, hcode, -⟩ := h
  exact ⟨hmem, hstatus, htree, hcode, hdec⟩

/-- Every command keeps the invariant. -/
theorem EngineOk.exec {i : Instr} (h : EngineOk s) (ht : exec i s = .next t) : EngineOk t := by
  have h0 := h
  obtain ⟨hmem, hstatus, htree, -, hdec⟩ := h
  have hmem' := hmem.exec ht
  have hstatus' := hstatus.exec ht
  cases i with
  | clr => exact engineOk_of_none hmem' hstatus' (by rw [execClr_cases ht]; rfl)
  | ldf sym cnt => exact engineOk_of_none hmem' hstatus' (by rw [execLdf_cases ht]; rfl)
  | rdf sym => rw [execRdf_cases ht]; exact h0
  | rds => rw [execRds_cases ht]; exact h0
  | build =>
    obtain ⟨htree', -, -⟩ := execBuild_treeOk ht
    have hdrop : t.cs = false ∧ t.dst = .idle := by obtain ⟨-, rfl⟩ | ⟨_, -, rfl⟩ := execBuild_cases ht <;> exact ⟨rfl, rfl⟩
    exact ⟨hmem', hstatus', htree', by simp [CodeOk, hdrop], by simp [DecoderOk, hdrop]⟩
  | gen =>
    obtain ⟨-, rfl⟩ | ⟨cs, -, hcs, rfl⟩ := execGen_cases ht
    · exact h0
    · exact ⟨hmem', hstatus', htree, fun _ => ⟨cs, hcs, rfl⟩, hdec⟩
  | lkup sym =>
    obtain ⟨-, rfl⟩ | ⟨-, -, rfl⟩ | ⟨-, -, rfl⟩ := execLkup_cases ht <;> exact h0
  | dstart =>
    obtain ⟨-, rfl⟩ | ⟨-, rfl⟩ | ⟨n, -, -, rfl⟩ | ⟨hm, rfl⟩ := execDstart_cases ht
    · exact h0
    · exact h0.moveDecoder hstatus' (by simp [DecoderOk])
    · exact h0.moveDecoder hstatus' (by simp [DecoderOk])
    · exact h0.moveDecoder hstatus' fun _ => TreeOk.decoderOk_root (s := { s with dst := .run }) htree hm rfl
  | dbit tok =>
    obtain ⟨-, rfl⟩ | ⟨-, -, rfl⟩ | ⟨bit, hr, -, hw⟩ := execDbit_cases ht
    · exact h0
    · exact h0.moveDecoder hstatus' (by simp [DecoderOk])
    · obtain ⟨n, c, hn, hc, ⟨-, rfl⟩ | ⟨hleaf, rfl⟩⟩ := walkBit_cases hw
      · exact h0.moveDecoder hstatus' (htree.decoderOk_root (hstatus.multi_of_run hr))
      · exact h0.moveDecoder hstatus' (hdec.move htree hr (hstatus.multi_of_run hr) hn hc hleaf)
  | dend =>
    obtain ⟨-, rfl⟩ | ⟨-, rfl⟩ | ⟨-, -, rfl⟩ | ⟨-, -, rfl⟩ := execDend_cases ht
    · exact h0
    · exact h0.moveDecoder hstatus' (by simp [DecoderOk])
    · exact h0.moveDecoder hstatus' (by simp [DecoderOk])
    · exact h0.moveDecoder hstatus' (by simp [DecoderOk])

end Sys2Proof.Machine

namespace Sys2Proof.Proofs
open Sys2Proof.Machine

/-- Settles O53: every command keeps the invariant, its parts shown one by one, and the reset input establishes it. -/
theorem engineInvariantIsKeptByEveryStep : Obligations.EngineInvariantIsKeptByEveryStep := fun _ _ hs h =>
  step_keeps (P := EngineOk) (fun _ _ hs => hs) (fun s _ => engineOk_assertReset s) (fun _ _ hs => hs)
    (fun _ _ _ hs ht => EngineOk.exec hs ht) hs h

/-- Settles O54: the reset state, and the state the reset input leaves, have nothing derived and empty memories. -/
theorem resetMeetsTheInvariant : Obligations.ResetMeetsTheInvariant :=
  ⟨engineOk_assertReset State.reset, fun _ _ hp => ⟨_, step_of_pending_reset hp, engineOk_assertReset _⟩⟩

end Sys2Proof.Proofs
end

section
/-! Where the model stops (logs 5 and 6): the exact outcomes that are no next state, command by command, and where the reading of a tree
stops. -/

namespace Sys2Proof.Machine

variable {s : State} {r : Resp} {e : Fault}

@[simp] theorem answer_ne_fault : answer r s ≠ .fault e := nofun

@[simp] theorem answer_ne_refused {q : Refusal} : answer r s ≠ .refused q := nofun

@[simp] theorem raise_ne_fault {rc : ResultCode} : raise rc s ≠ .fault e := nofun

@[simp] theorem raise_ne_refused {rc : ResultCode} {q : Refusal} : raise rc s ≠ .refused q := nofun

@[simp] theorem raiseHalt_ne_fault {rc : ResultCode} : raiseHalt rc s ≠ .fault e := nofun

@[simp] theorem raiseHalt_ne_refused {rc : ResultCode} {q : Refusal} : raiseHalt rc s ≠ .refused q := nofun

/-! ### The commands that fault -/

/-- DSTART stops only at a single leaf that does not exist (R211). -/
theorem execDstart_fault : execDstart s = .fault e ↔ e = .noSuchNode ∧ s.ts = .single ∧ s.root = 511 := by
  unfold execDstart
  cases s.ts with
  | none | empty | multi => simp
  | single =>
    rw [← readNode_eq_none (s := s)]
    cases readNode s s.root with
    | none => simp [eq_comm]
    | some n => simp

/-- The move of a good token stops only at a node that does not exist (R212). -/
theorem walkBit_fault {bit : Bool} :
    walkBit bit s = .fault e ↔
      e = .noSuchNode ∧ (s.cur = 511 ∨ ∃ n, readNode s s.cur = some n ∧ childOf n bit = 511) := by
  unfold walkBit
  rw [← readNode_eq_none (s := s)]
  cases readNode s s.cur with
  | none => simp [eq_comm]
  | some n =>
    simp only [reduceCtorEq, Option.some.injEq, exists_eq_left', false_or]
    rw [← readNode_eq_none (s := s)]
    cases readNode s (childOf n bit) with
    | none => simp [eq_comm]
    | some c => cases hleaf : isLeaf c <;> simp [hleaf]

/-- DBIT stops only in RUN, in the move of a good token (R212, R214). -/
theorem execDbit_fault {tok : BitVec 8} :
    execDbit tok s = .fault e ↔ s.dst = .run ∧ ∃ bit, tokenBit tok = some bit ∧ walkBit bit s = .fault e := by
  unfold execDbit
  by_cases hd : s.dst = .run
  · cases tokenBit tok <;> simp [hd]
  · simp [hd]

/-- GEN stops only where the reading of its tree stops (R161). -/
theorem execGen_fault : execGen s = .fault e ↔ (s.ts = .single ∨ s.ts = .multi) ∧ treeAt s s.root = .error e := by
  unfold execGen
  cases s.ts with
  | none | empty => simp
  | single | multi => cases treeAt s s.root <;> simp

/-- DEND never stops (R213). -/
theorem execDend_answers (s : State) : ∃ t, execDend s = .next t := by
  unfold execDend
  cases s.dst with
  | idle | halt | done => exact ⟨_, rfl⟩
  | run => by_cases hc : s.cur = s.root <;> simp [hc]

/-- LKUP never stops (R163). -/
theorem execLkup_answers (sym : Sym8) (s : State) : ∃ t, execLkup sym s = .next t := by
  unfold execLkup
  cases s.cs with
  | false => simp
  | true => cases hv : (readCode s sym).v <;> simp [hv]

/-- A command other than GEN, DSTART and DBIT answers in every state. -/
theorem exec_answers {i : Instr} (s : State) (hgen : i.op ≠ .gen) (hstart : i.op ≠ .dstart) (hbit : i.op ≠ .dbit) :
    ∃ t, exec i s = .next t := by
  cases i with
  | clr | ldf | rdf | rds => exact ⟨_, rfl⟩
  | build => exact execBuild_answers s
  | gen => exact absurd rfl hgen
  | lkup sym => exact execLkup_answers sym s
  | dstart => exact absurd rfl hstart
  | dbit tok => exact absurd rfl hbit
  | dend => exact execDend_answers s

theorem walkBit_ne_refused {bit : Bool} {q : Refusal} : walkBit bit s ≠ .refused q := by
  unfold walkBit
  cases readNode s s.cur with
  | none => simp
  | some n =>
    simp only
    cases readNode s (childOf n bit) with
    | none => simp
    | some c => cases hleaf : isLeaf c <;> simp [hleaf]

/-- Every command has a meaning in every state. -/
theorem exec_ne_refused {i : Instr} {q : Refusal} : exec i s ≠ .refused q := by
  have hanswers : (∃ t, exec i s = .next t) → exec i s ≠ .refused q := by rintro ⟨t, ht⟩; simp [ht]
  cases i with
  | gen =>
    show execGen s ≠ _
    unfold execGen
    cases s.ts with
    | none | empty => simp
    | single | multi => cases treeAt s s.root <;> simp
  | dstart =>
    show execDstart s ≠ _
    unfold execDstart
    cases s.ts with
    | none | empty | multi => simp
    | single => cases readNode s s.root <;> simp
  | dbit tok =>
    show execDbit tok s ≠ _
    unfold execDbit
    by_cases hd : s.dst = .run
    · cases tokenBit tok <;> simp [hd, walkBit_ne_refused]
    · simp [hd]
  | clr | ldf | rdf | rds | build | lkup | dend => exact hanswers (exec_answers s nofun nofun nofun)

/-! ### The reading of a tree (R29, R160) -/

/-- Reading stops at an index that names no node, or in the subtree of a child. -/
theorem treeFrom_error {era fuel : Nat} {m : Memory Node} {i : Idx} (h : treeFrom era m (fuel + 1) i = .error e) :
    (nodeEntry era m i = none ∧ e = .noSuchNode) ∨
    ∃ n bit, nodeEntry era m i = some n ∧ isLeaf n = false ∧ treeFrom era m fuel (childOf n bit) = .error e := by
  unfold treeFrom at h
  cases hn : nodeEntry era m i with
  | none => simp only [hn, Except.error.injEq] at h; exact .inl ⟨rfl, h.symm⟩
  | some n =>
    cases hleaf : isLeaf n with
    | true => simp [hn, hleaf] at h
    | false =>
      refine .inr ⟨n, ?_⟩
      cases hl : treeFrom era m fuel n.l with
      | error e' => simp [hn, hleaf, hl] at h; exact ⟨false, rfl, hleaf, h ▸ hl⟩
      | ok left =>
        cases hr : treeFrom era m fuel n.r with
        | error e' => simp [hn, hleaf, hl, hr] at h; exact ⟨true, rfl, hleaf, h ▸ hr⟩
        | ok right => simp [hn, hleaf, hl, hr] at h

/-- A path to a child goes on from its parent. -/
theorem followIdx_cons {i : Idx} {n : Node} {bit : Bool} (hn : readNode s i = some n) (hleaf : isLeaf n = false) (p : List Bool) :
    followIdx s i (bit :: p) = followIdx s (childOf n bit) p := by
  simp [followIdx, hn, hleaf]

/-- Reading that meets no node has followed a path to index 511. -/
theorem treeFrom_noSuchNode {fuel : Nat} {i : Idx} (h : treeFrom s.era s.node fuel i = .error .noSuchNode) :
    ∃ p, p.length ≤ fuel ∧ followIdx s i p = some 511 := by
  induction fuel generalizing i with
  | zero =>
    cases hn : readNode s i with
    | none => exact ⟨[], Nat.le_refl _, congrArg some (readNode_eq_none.1 hn)⟩
    | some n =>
      have hn' : nodeEntry s.era s.node i = some n := hn
      cases hleaf : isLeaf n <;> simp [treeFrom, hn', hleaf] at h
  | succ fuel ih =>
    obtain ⟨hn, -⟩ | ⟨n, bit, hn, hleaf, hchild⟩ := treeFrom_error h
    · exact ⟨[], Nat.zero_le _, congrArg some (readNode_eq_none.1 hn)⟩
    · obtain ⟨p, hp, hfollow⟩ := ih hchild
      exact ⟨bit :: p, Nat.succ_le_succ hp, (followIdx_cons hn hleaf p).trans hfollow⟩

/-- Reading that goes too deep has followed as many branches as it may to a node with a child. -/
theorem treeFrom_codeTooLong {fuel : Nat} {i : Idx} (h : treeFrom s.era s.node fuel i = .error .codeTooLong) :
    ∃ p j n, p.length = fuel ∧ followIdx s i p = some j ∧ readNode s j = some n ∧ isLeaf n = false := by
  induction fuel generalizing i with
  | zero =>
    cases hn : readNode s i with
    | none =>
      have hn' : nodeEntry s.era s.node i = none := hn
      simp [treeFrom, hn'] at h
    | some n =>
      have hn' : nodeEntry s.era s.node i = some n := hn
      cases hleaf : isLeaf n with
      | true => simp [treeFrom, hn', hleaf] at h
      | false => exact ⟨[], i, n, rfl, rfl, hn, hleaf⟩
  | succ fuel ih =>
    obtain ⟨-, he⟩ | ⟨n, bit, hn, hleaf, hchild⟩ := treeFrom_error h
    · cases he
    · obtain ⟨p, j, m, hp, hfollow, hm⟩ := ih hchild
      exact ⟨bit :: p, j, m, congrArg (· + 1) hp, (followIdx_cons hn hleaf p).trans hfollow, hm⟩

end Sys2Proof.Machine

namespace Sys2Proof.Proofs
open Sys2Proof.Machine

/-- Settles O50: the faults of each command, and the path by which the reading of a tree comes to its stop. -/
theorem stopsOnlyOffTheTree : Obligations.StopsOnlyOffTheTree := by
  refine ⟨fun _ _ _ => exec_ne_refused, fun i s e h => ?_, fun _ _ => execDstart_fault, fun s tok e => ?_, fun _ _ => execGen_fault,
    fun _ _ => treeFrom_noSuchNode, fun _ _ => treeFrom_codeTooLong⟩
  · by_contra hop
    obtain ⟨hgen, hstart, hbit⟩ : i.op ≠ .gen ∧ i.op ≠ .dstart ∧ i.op ≠ .dbit := by simpa using hop
    obtain ⟨t, ht⟩ := exec_answers s hgen hstart hbit
    rw [ht] at h
    cases h
  · show execDbit tok s = _ ↔ _
    simp only [execDbit_fault, walkBit_fault]
    constructor
    · rintro ⟨hr, bit, htok, he, hoff⟩; exact ⟨he, hr, bit, htok, hoff⟩
    · rintro ⟨he, hr, bit, htok, hoff⟩; exact ⟨hr, bit, htok, he, hoff⟩

end Sys2Proof.Proofs
end

section
/-! The packed records (R22, R25, R90): each field is read back from the bits it is packed at. The width of a record is written as one
number, the width of an append is a sum, so the outermost append is taken apart by `trans` and the inner ones by `simp`. -/

namespace Sys2Proof.Machine

/-- The one bit of a field of one bit. -/
theorem ofBool_getLsbD {w : Nat} (b : BitVec w) (k : Nat) : BitVec.ofBool (b.getLsbD k) = b.extractLsb' k 1 := by
  apply BitVec.eq_of_getLsbD_eq
  intro i hi
  obtain rfl : i = 0 := by omega
  simp

/-- The fields of a packed node record, from bit 67 down (R22). -/
theorem nodeBits_fields (n : Node) :
    (nodeBits n).getLsbD 67 = n.lv ∧ (nodeBits n).getLsbD 66 = n.rv ∧ (nodeBits n).extractLsb' 57 9 = n.l ∧
      (nodeBits n).extractLsb' 48 9 = n.r ∧ (nodeBits n).extractLsb' 40 8 = n.rs ∧ (nodeBits n).extractLsb' 0 40 = n.w := by
  refine ⟨BitVec.getLsbD_append.trans ?_, BitVec.getLsbD_append.trans ?_, (BitVec.extractLsb'_append_eq_of_le (by decide)).trans ?_,
    (BitVec.extractLsb'_append_eq_of_le (by decide)).trans ?_, (BitVec.extractLsb'_append_eq_of_le (by decide)).trans ?_,
    BitVec.extractLsb'_append_eq_right⟩ <;>
  simp (disch := decide) only [BitVec.extractLsb'_append_eq_of_le, BitVec.extractLsb'_append_eq_right,
    BitVec.getLsbD_append, BitVec.getLsbD_ofBool, Nat.reduceSub, Nat.reduceLT, reduceIte, decide_true, Bool.true_and]

/-- The fields of a packed code record, from bit 263 down (R25). -/
theorem codeEntryBits_fields (e : CodeEntry) :
    (codeEntryBits e).getLsbD 263 = e.v ∧ (codeEntryBits e).extractLsb' 255 8 = e.len ∧
      (codeEntryBits e).extractLsb' 0 255 = e.bits := by
  refine ⟨BitVec.getLsbD_append.trans ?_, (BitVec.extractLsb'_append_eq_of_le (by decide)).trans ?_,
    BitVec.extractLsb'_append_eq_right⟩ <;>
  simp (disch := decide) only [BitVec.extractLsb'_append_eq_right, BitVec.getLsbD_append, BitVec.getLsbD_ofBool, Nat.reduceSub, Nat.reduceLT, reduceIte, decide_true, Bool.true_and]

theorem nodeBits_nodeOfBits (b : BitVec 68) : nodeBits (nodeOfBits b) = b := by
  simp only [nodeBits, nodeOfBits, ofBool_getLsbD]
  rw [BitVec.extractLsb'_append_extractLsb'_eq_extractLsb' (by rfl), BitVec.extractLsb'_append_extractLsb'_eq_extractLsb' (by rfl),
    BitVec.extractLsb'_append_extractLsb'_eq_extractLsb' (by rfl), BitVec.extractLsb'_append_extractLsb'_eq_extractLsb' (by rfl),
    BitVec.extractLsb'_append_extractLsb'_eq_extractLsb' (by rfl)]
  exact BitVec.extractLsb'_eq_self

theorem codeEntryBits_codeEntryOfBits (b : BitVec 264) : codeEntryBits (codeEntryOfBits b) = b := by
  simp only [codeEntryBits, codeEntryOfBits, ofBool_getLsbD]
  rw [BitVec.extractLsb'_append_extractLsb'_eq_extractLsb' (by rfl), BitVec.extractLsb'_append_extractLsb'_eq_extractLsb' (by rfl)]
  exact BitVec.extractLsb'_eq_self

/-- The fields of a packed response, from bit 307 down (R90). -/
theorem respBits_fields (r : Resp) :
    (respBits r).extractLsb' 304 4 = rcCode r.rc ∧ (respBits r).getLsbD 303 = r.emit ∧ (respBits r).extractLsb' 295 8 = r.sym ∧
      (respBits r).extractLsb' 263 32 = r.n ∧ (respBits r).extractLsb' 255 8 = r.len ∧ (respBits r).extractLsb' 0 255 = r.code := by
  refine ⟨(BitVec.extractLsb'_append_eq_of_le (by decide)).trans ?_, BitVec.getLsbD_append.trans ?_,
    (BitVec.extractLsb'_append_eq_of_le (by decide)).trans ?_, (BitVec.extractLsb'_append_eq_of_le (by decide)).trans ?_,
    (BitVec.extractLsb'_append_eq_of_le (by decide)).trans ?_, BitVec.extractLsb'_append_eq_right⟩ <;>
  simp (disch := decide) only [BitVec.extractLsb'_append_eq_of_le, BitVec.extractLsb'_append_eq_right, BitVec.extractLsb'_eq_self,
    BitVec.getLsbD_append, BitVec.getLsbD_ofBool, Nat.reduceSub, Nat.reduceLT, reduceIte, decide_true, Bool.true_and]

end Sys2Proof.Machine

namespace Sys2Proof.Proofs
open Sys2Proof.Machine

/-- Settles O8: the fields of a record are those of unpacking its packed word, which inverts the packing. -/
theorem recordsAndResponsesHaveThePackedLayout : Obligations.RecordsAndResponsesHaveThePackedLayout := by
  refine ⟨fun n => ?_, nodeBits_nodeOfBits, fun e => ?_, codeEntryBits_codeEntryOfBits, respBits_fields, by decide⟩
  · obtain ⟨hlv, hrv, hl, hr, hrs, hw⟩ := nodeBits_fields n
    exact ⟨hlv, hrv, hl, hr, hrs, hw, by simp only [nodeOfBits, hlv, hrv, hl, hr, hrs, hw]⟩
  · obtain ⟨hv, hlen, hbits⟩ := codeEntryBits_fields e
    exact ⟨hv, hlen, hbits, by simp only [codeEntryOfBits, hv, hlen, hbits]⟩

end Sys2Proof.Proofs
end

section
/-! What the working collection of a build keeps (R133, R135, R137): its symbols differ, it is sorted, it weighs the sum of the counts, and it
bears the lowest symbol. -/

namespace Sys2Proof.Machine

/-! ### Sorted insertion (R132, R135) -/

theorem comesBefore_trans {a b c : Node} (hab : comesBefore a b = true) (hbc : comesBefore b c = true) : comesBefore a c = true := by
  rw [comesBefore_iff, ← BitVec.toNat_inj] at *
  omega

/-- Two nodes of different symbols stand in one order or the other (R132, R133). -/
theorem comesBefore_of_not {a b : Node} (hrs : a.rs ≠ b.rs) (h : ¬ comesBefore a b = true) : comesBefore b a = true := by
  rw [comesBefore_iff, ← BitVec.toNat_inj] at *
  have hne : a.rs.toNat ≠ b.rs.toNat := fun he => hrs (BitVec.toNat_inj.1 he)
  omega

theorem insertItem_sorted {x : Item} {q : List Item} (hq : q.Pairwise fun a b => comesBefore a.2 b.2 = true)
    (hx : ∀ y ∈ q, y.2.rs ≠ x.2.rs) : (insertItem x q).Pairwise fun a b => comesBefore a.2 b.2 = true := by
  induction q with
  | nil => simp [insertItem]
  | cons y q ih =>
    obtain ⟨hy, hq'⟩ := List.pairwise_cons.1 hq
    simp only [insertItem]
    split
    · next hxy =>
      refine List.pairwise_cons.2 ⟨fun z hz => ?_, hq⟩
      rcases List.mem_cons.1 hz with rfl | hz
      · exact hxy
      · exact comesBefore_trans hxy (hy z hz)
    · next hxy =>
      have hyx := comesBefore_of_not (hx y (by simp)).symm hxy
      refine List.pairwise_cons.2 ⟨fun z hz => ?_, ih hq' fun z hz => hx z (List.mem_cons_of_mem y hz)⟩
      rcases mem_insertItem.1 hz with rfl | hz
      · exact hyx
      · exact hy z hz

theorem foldl_insertItem_sorted {xs q : List Item} (hq : q.Pairwise fun a b => comesBefore a.2 b.2 = true)
    (hd : ((q ++ xs).map fun x => x.2.rs).Nodup) :
    (xs.foldl (fun q x => insertItem x q) q).Pairwise fun a b => comesBefore a.2 b.2 = true := by
  induction xs generalizing q with
  | nil => exact hq
  | cons x xs ih =>
    have hd' : (((insertItem x q) ++ xs).map fun x => x.2.rs).Nodup :=
      ((((insertItem_perm x q).append_right xs).trans List.perm_middle.symm).map _).nodup_iff.2 hd
    refine ih (insertItem_sorted hq fun y hy he => ?_) hd'
    rw [List.map_append, List.nodup_append] at hd
    obtain ⟨-, -, hdisj⟩ := hd
    exact hdisj _ (List.mem_map_of_mem hy) _ (List.mem_map_of_mem List.mem_cons_self) he

/-! ### The representative symbols (R133) -/

variable {f : Memory Count} {j : Nat}

theorem minSym_eq_or (a b : Sym8) : minSym a b = a ∨ minSym a b = b := by
  unfold minSym; split <;> simp

theorem toNat_minSym (a b : Sym8) : (minSym a b).toNat = min a.toNat b.toNat := by
  unfold minSym; split <;> rw [BitVec.lt_def] at * <;> omega

/-- A leaf bears the symbol of its index (R23). -/
theorem rs_of_mem_builtLeaves {x : Item} (hx : x ∈ builtLeaves f) : x.2.rs.toNat = idxKey x.1 := by
  obtain ⟨k, hk, -, rfl⟩ := mem_builtLeaves.1 hx
  simp only [leafNode, idxKey, BitVec.toNat_ofNat]
  omega

theorem builtLeaves_symbols_nodup (f : Memory Count) : ((builtLeaves f).map fun x => x.2.rs).Nodup := by
  have hidx : ((builtLeaves f).map fun x => idxKey x.1).Nodup := by
    have := builtItems_nodup f
    rw [builtItems, List.map_append] at this
    exact this.of_append_left
  have hkey : ((builtLeaves f).map fun x => x.2.rs).map BitVec.toNat = (builtLeaves f).map fun x => idxKey x.1 := by
    rw [List.map_map]
    exact List.map_congr_left fun x hx => rs_of_mem_builtLeaves hx
  exact List.Nodup.of_map BitVec.toNat (hkey ▸ hidx)

/-- The nodes of a collection bear different symbols: a merge keeps the smaller of two (R133). -/
theorem collection_symbols_nodup (hj : j < leafCount f) : ((collection f j).map fun x => x.2.rs).Nodup := by
  induction j with
  | zero => exact ((collection_zero_perm f).map _).nodup_iff.2 (builtLeaves_symbols_nodup f)
  | succ j ih =>
    obtain ⟨a, b, q, hq, hnext, -⟩ := collection_succ hj
    have ih := ih (by omega)
    rw [hq, List.map_cons, List.map_cons, List.nodup_cons, List.nodup_cons, List.mem_cons, not_or] at ih
    obtain ⟨⟨-, ha⟩, hb, hd⟩ := ih
    rw [hnext, ((insertItem_perm _ q).map _).nodup_iff, List.map_cons, List.nodup_cons]
    refine ⟨?_, hd⟩
    rcases minSym_eq_or a.2.rs b.2.rs with hmin | hmin <;> simp only [mergeNode, hmin]
    · exact ha
    · exact hb

/-- The symbol of a node of a collection is that of a leaf (R133). -/
theorem collection_symbol_of_leaf (hj : j < leafCount f) {x : Item} (hx : x ∈ collection f j) :
    ∃ y ∈ builtLeaves f, y.2.rs = x.2.rs := by
  induction j generalizing x with
  | zero => exact ⟨x, (collection_zero_perm f).mem_iff.1 hx, rfl⟩
  | succ j ih =>
    obtain ⟨a, b, q, hq, hnext, -⟩ := collection_succ hj
    have ih := fun {x} => ih (x := x) (by omega)
    simp only [hq, List.mem_cons] at ih
    rw [hnext, mem_insertItem] at hx
    rcases hx with rfl | hx
    · rcases minSym_eq_or a.2.rs b.2.rs with hmin | hmin <;> simp only [mergeNode, hmin]
      · exact ih (.inl rfl)
      · exact ih (.inr (.inl rfl))
    · exact ih (.inr (.inr hx))

/-- No leaf bears a symbol below all those of a collection (R133). -/
theorem collection_symbol_le (hj : j < leafCount f) {y : Item} (hy : y ∈ builtLeaves f) :
    ∃ x ∈ collection f j, x.2.rs.toNat ≤ y.2.rs.toNat := by
  induction j with
  | zero => exact ⟨y, (collection_zero_perm f).mem_iff.2 hy, Nat.le_refl _⟩
  | succ j ih =>
    obtain ⟨a, b, q, hq, hnext, -⟩ := collection_succ hj
    obtain ⟨x, hx, hle⟩ := ih (by omega)
    have hmin : (mergeNode a b).rs.toNat = min a.2.rs.toNat b.2.rs.toNat := toNat_minSym _ _
    simp only [hq, List.mem_cons] at hx
    rw [hnext]
    rcases hx with rfl | rfl | hx
    · exact ⟨_, mem_insertItem.2 (.inl rfl), by simp only [hmin]; omega⟩
    · exact ⟨_, mem_insertItem.2 (.inl rfl), by simp only [hmin]; omega⟩
    · exact ⟨x, mem_insertItem.2 (.inr hx), hle⟩

/-- The collection is sorted, so that its first two nodes are the two lowest (R135, R136). -/
theorem collection_sorted (hj : j < leafCount f) : (collection f j).Pairwise fun a b => comesBefore a.2 b.2 = true := by
  induction j with
  | zero => exact foldl_insertItem_sorted List.Pairwise.nil (builtLeaves_symbols_nodup f)
  | succ j ih =>
    obtain ⟨a, b, q, hq, hnext, -⟩ := collection_succ hj
    have hd := collection_symbols_nodup hj
    have ih := ih (by omega)
    rw [hq, List.pairwise_cons, List.pairwise_cons] at ih
    obtain ⟨-, -, hsorted⟩ := ih
    rw [hnext, ((insertItem_perm _ q).map _).nodup_iff, List.map_cons, List.nodup_cons] at hd
    obtain ⟨hnew, -⟩ := hd
    rw [hnext]
    exact insertItem_sorted hsorted fun y hy he => hnew (he ▸ List.mem_map_of_mem hy)

/-! ### The weights (R139) -/

/-- The weight of all nodes of a collection, as an integer. -/
def totalWeight (q : List Item) : Nat := (q.map fun x => x.2.w.toNat).sum

@[simp] theorem totalWeight_cons (x : Item) (q : List Item) : totalWeight (x :: q) = x.2.w.toNat + totalWeight q := rfl

theorem totalWeight_perm {p q : List Item} (h : p.Perm q) : totalWeight p = totalWeight q := (h.map _).sum_eq

/-- The leaves weigh the sum of the counts: a count is a weight as it stands (R134). -/
theorem totalWeight_builtLeaves (s : State) : totalWeight (builtLeaves s.freq) = countSum s := by
  unfold totalWeight builtLeaves countSum
  induction List.range Config.nsym with
  | nil => rfl
  | cons k ks ih =>
    by_cases hc : countAt s.freq k = 0
    · rw [List.filterMap_cons_none (by simp [hc]), ih]
      simp [hc]
    · rw [List.filterMap_cons_some (by rw [if_neg hc]), List.map_cons, List.sum_cons, ih]
      have hlt := (countAt s.freq k).isLt
      simp only [leafNode, zext40, BitVec.toNat_setWidth, List.map_cons, List.sum_cons]
      omega

/-- 256 counts below 2^32 (R139). -/
theorem countSum_lt (s : State) : countSum s < 2 ^ 40 := by
  have hle := List.sum_le_card_nsmul ((List.range Config.nsym).map fun k => (countAt s.freq k).toNat) (2 ^ 32 - 1) (by
    intro c hc
    obtain ⟨k, -, rfl⟩ := List.mem_map.1 hc
    have := (countAt s.freq k).isLt
    omega)
  rw [List.length_map, List.length_range, smul_eq_mul] at hle
  exact Nat.lt_of_le_of_lt hle (by decide)

/-- A merge loses no weight: the sum of two weights is their integer sum (R136, R139). -/
theorem toNat_mergeNode_w {a b : Item} (h : a.2.w.toNat + b.2.w.toNat < 2 ^ 40) :
    (mergeNode a b).w.toNat = a.2.w.toNat + b.2.w.toNat := by
  rw [mergeNode, BitVec.toNat_add, Nat.mod_eq_of_lt h]

/-- The collection weighs the sum of the counts before every merge (R37 item 6). -/
theorem collection_weight {s : State} (hj : j < leafCount s.freq) : totalWeight (collection s.freq j) = countSum s := by
  induction j with
  | zero => rw [totalWeight_perm (collection_zero_perm s.freq), totalWeight_builtLeaves]
  | succ j ih =>
    obtain ⟨a, b, q, hq, hnext, -⟩ := collection_succ hj
    have ih := ih (by omega)
    have hlt := countSum_lt s
    rw [hq, totalWeight_cons, totalWeight_cons] at ih
    rw [hnext, totalWeight_perm (insertItem_perm _ q), totalWeight_cons, toNat_mergeNode_w (by omega)]
    omega

end Sys2Proof.Machine
end

section
/-! The tree BUILD leaves, as R37 reads it from the state: which indices are allocated, what `NODE` reads there, and whose child each is. -/

namespace Sys2Proof.Machine

variable {f : Memory Count} {s t : State} {j k : Nat}

/-! ### The state's terms and the items of the build -/

theorem presentCount_eq (s : State) : presentCount s = leafCount s.freq := by
  unfold presentCount leafCount builtLeaves
  induction List.range Config.nsym with
  | nil => rfl
  | cons k ks ih =>
    by_cases hc : countAt s.freq k = 0
    · rw [List.filterMap_cons_none (by simp [hc]), List.filter_cons_of_neg (by simp [hc]), ih]
    · rw [List.filterMap_cons_some (by rw [if_neg hc]), List.filter_cons_of_pos (by simpa using hc), List.length_cons, ih, List.length_cons]

/-- The leaves are those of the symbols with a nonzero count, each at its index (R23, R134). -/
theorem mem_builtLeaves_iff {x : Item} :
    x ∈ builtLeaves s.freq ↔ ∃ sym, readFreq s sym ≠ 0 ∧ x = (leafIdx sym, leafNode sym (readFreq s sym)) := by
  have hidx : ∀ sym : Sym8, BitVec.ofNat 9 sym.toNat = leafIdx sym := fun sym =>
    BitVec.eq_of_toNat_eq (by simp [leafIdx, BitVec.toNat_setWidth])
  rw [mem_builtLeaves]
  constructor
  · rintro ⟨k, hk, hc, rfl⟩
    have hkey : symKey (BitVec.ofNat 8 k) = k := by simp only [symKey, BitVec.toNat_ofNat]; omega
    refine ⟨BitVec.ofNat 8 k, by rwa [readFreq, hkey], ?_⟩
    rw [readFreq, hkey, ← hidx, ← symKey, hkey]
  · rintro ⟨sym, hc, rfl⟩
    exact ⟨symKey sym, symKey_lt sym, hc, by rw [symKey, hidx, BitVec.ofNat_toNat, BitVec.setWidth_eq]; rfl⟩

/-- The nodes made before merge `k` stand at the indices of the merges below `k` (R23). -/
theorem allocatedBefore_iff (hk : k < leafCount s.freq) {i : Idx} :
    AllocatedBefore s k i ↔ ∃ x ∈ builtLeaves s.freq ++ madeBefore s.freq k, x.1 = i := by
  constructor
  · rintro (⟨sym, hc, rfl⟩ | ⟨m, hm, rfl⟩)
    · exact ⟨_, List.mem_append_left _ (mem_builtLeaves_iff.2 ⟨sym, hc, rfl⟩), rfl⟩
    · obtain ⟨a, b, q, hq, -⟩ := collection_succ (f := s.freq) (j := m) (by omega)
      exact ⟨_, List.mem_append_right _ ((mem_madeBefore hk).2 ⟨m, a, b, q, hm, hq, rfl⟩), rfl⟩
  · rintro ⟨x, hx, rfl⟩
    rcases List.mem_append.1 hx with hx | hx
    · obtain ⟨sym, hc, rfl⟩ := mem_builtLeaves_iff.1 hx
      exact .inl ⟨sym, hc, rfl⟩
    · obtain ⟨m, a, b, q, hm, -, rfl⟩ := (mem_madeBefore hk).1 hx
      exact .inr ⟨m, hm, rfl⟩

/-- The allocated indices are those of the entries the build writes (R23). -/
theorem allocated_iff (hn : leafCount s.freq ≠ 0) {i : Idx} : Allocated s i ↔ ∃ x ∈ builtItems s.freq, x.1 = i := by
  rw [Allocated, presentCount_eq, allocatedBefore_iff (by omega), builtItems_eq]

/-- What BUILD leaves of a table that is not empty: the same counts, the root, and every entry it allocates (R140). -/
theorem execBuild_reads (h : exec .build s = .next t) (hn : leafCount s.freq ≠ 0) :
    t.freq = s.freq ∧ builtRoot s.freq = some t.root ∧ ∀ x ∈ builtItems s.freq, readNode t x.1 = some x.2 := by
  obtain ⟨htree, hts, hfreq⟩ := execBuild_treeOk h
  have hreads := htree.reads (hts ▸ builtTs_ne_none _) (hts ▸ fun he => hn (builtTs_eq_empty.1 he))
  rw [hfreq] at hreads
  exact ⟨hfreq, hreads⟩

/-- The two nodes of merge `k` of a build stand in its record as left and right child (R136). -/
theorem execBuild_merge (h : exec .build s = .next t) (hk : k + 1 < leafCount s.freq) :
    ∃ a b q, collection s.freq k = a :: b :: q ∧ readNode t (mergeIdx k) = some (mergeNode a b) := by
  obtain ⟨a, b, q, hq, hmade⟩ := merge_mem_builtItems hk
  obtain ⟨-, -, hreads⟩ := execBuild_reads h (by omega)
  exact ⟨a, b, q, hq, hreads _ hmade⟩

/-! ### No sharing (R37 item 4) -/

/-- The nodes the merges below `j` took out of the collection, two for each (R136). -/
def takenBefore (f : Memory Count) (j : Nat) : List Item := (List.range j).flatMap fun i => (collection f i).take 2

open List in
/-- Each node that was there from the start or made since has been taken once or is in the collection still. -/
theorem takenBefore_perm (hj : j < leafCount f) :
    (takenBefore f j ++ collection f j).Perm (builtLeaves f ++ madeBefore f j) := by
  induction j with
  | zero => simpa [takenBefore] using collection_zero_perm f
  | succ j ih =>
    obtain ⟨a, b, q, hq, hnext, hmade⟩ := collection_succ hj
    have htaken : takenBefore f (j + 1) = takenBefore f j ++ [a, b] := by
      simp [takenBefore, List.range_succ, hq]
    have ih := ih (by omega)
    rw [hq] at ih
    rw [htaken, hnext, hmade, ← List.append_assoc]
    calc takenBefore f j ++ [a, b] ++ insertItem (mergeIdx j, mergeNode a b) q
      _ ~ takenBefore f j ++ [a, b] ++ (mergeIdx j, mergeNode a b) :: q := (insertItem_perm _ q).append_left _
      _ ~ (mergeIdx j, mergeNode a b) :: (takenBefore f j ++ [a, b] ++ q) := List.perm_middle
      _ ~ takenBefore f j ++ [a, b] ++ q ++ [(mergeIdx j, mergeNode a b)] := (List.perm_append_singleton _ _).symm
      _ ~ builtLeaves f ++ madeBefore f j ++ [(mergeIdx j, mergeNode a b)] := by
        rw [List.append_assoc (takenBefore f j)]
        exact ih.append_right _

/-- In the end every node but the root has been taken (R37 item 4). -/
theorem taken_perm_builtItems (hn : leafCount f ≠ 0) :
    ∃ x, builtRoot f = some x.1 ∧ (takenBefore f (leafCount f - 1) ++ [x]).Perm (builtItems f) := by
  obtain ⟨x, hx, hroot⟩ := collection_last hn
  refine ⟨x, hroot, ?_⟩
  rw [← hx, builtItems_eq]
  exact takenBefore_perm (by omega)

/-- A merge takes a node on one of two sides. -/
theorem mem_take_two {x : Item} {q : List Item} : x ∈ q.take 2 ↔ ∃ bit : Bool, (q.take 2)[bit.toNat]? = some x := by
  match q with
  | [] => simp
  | [a] => simp [eq_comm]
  | a :: b :: q => simp [eq_comm]

theorem mem_takenBefore {x : Item} :
    x ∈ takenBefore f j ↔ ∃ k < j, ∃ bit : Bool, ((collection f k).take 2)[bit.toNat]? = some x := by
  simp only [takenBefore, List.mem_flatMap, List.mem_range, mem_take_two]

/-- No two of the nodes taken, and the root, stand at one index (R23). -/
theorem taken_indices_nodup (hn : leafCount f ≠ 0) {r : Idx} (hr : builtRoot f = some r) :
    ((takenBefore f (leafCount f - 1)).map Prod.fst ++ [r]).Nodup := by
  obtain ⟨x, hroot, hperm⟩ := taken_perm_builtItems hn
  obtain rfl : x.1 = r := Option.some.inj (hroot.symm.trans hr)
  have hd : ((builtItems f).map Prod.fst).Nodup := by
    have hkeys := builtItems_nodup f
    rw [show (fun x : Item => idxKey x.1) = idxKey ∘ Prod.fst from rfl, ← List.map_map] at hkeys
    exact hkeys.of_map idxKey
  simpa using (hperm.map Prod.fst).nodup_iff.2 hd

/-- The node taken on the side of `bit` by the merge that makes a record is the child of the record on that side (R136, R212). -/
theorem childOf_mergeNode {a b : Item} {q : List Item} (bit : Bool) {i : Idx} :
    childOf (mergeNode a b) bit = i ↔ ∃ x, ((a :: b :: q).take 2)[bit.toNat]? = some x ∧ x.1 = i := by
  cases bit <;> simp [childOf, mergeNode]

/-- A node is taken by one merge only, on one side only. -/
theorem taken_unique (hn : leafCount f ≠ 0) {k k' : Nat} {bit bit' : Bool} {x x' : Item} (hk : k + 1 < leafCount f)
    (hk' : k' + 1 < leafCount f) (hx : ((collection f k).take 2)[bit.toNat]? = some x)
    (hx' : ((collection f k').take 2)[bit'.toNat]? = some x') (he : x.1 = x'.1) : (k, bit) = (k', bit') := by
  obtain ⟨r, hroot, -⟩ := taken_perm_builtItems hn
  have hd := (taken_indices_nodup hn hroot).of_append_left
  rw [takenBefore, List.map_flatMap, List.nodup_flatMap] at hd
  obtain ⟨hside, hdisj⟩ := hd
  have hkk : k = k' := by
    by_contra hne
    have hsymm : Std.Symm (Function.onFun List.Disjoint fun i => ((collection f i).take 2).map Prod.fst) :=
      ⟨fun _ _ h => h.symm⟩
    refine hdisj.forall (List.mem_range.2 (by omega)) (List.mem_range.2 (by omega)) hne
      (List.mem_map_of_mem (List.mem_of_getElem? hx)) ?_
    exact he ▸ List.mem_map_of_mem (List.mem_of_getElem? hx')
  subst hkk
  have hbit : (((collection f k).take 2).map Prod.fst)[bit.toNat]? = (((collection f k).take 2).map Prod.fst)[bit'.toNat]? := by
    rw [List.getElem?_map, List.getElem?_map, hx, hx', Option.map_some, Option.map_some, he]
  have hlt : bit.toNat < (((collection f k).take 2).map Prod.fst).length := by
    rw [List.length_map]
    exact (List.getElem?_eq_some_iff.1 hx).1
  have hnat := (List.getElem?_inj hlt (hside k (List.mem_range.2 (by omega)))).1 hbit
  obtain rfl : bit = bit' := by revert hnat; cases bit <;> cases bit' <;> decide
  rfl

/-- On the side of `bit` the record of merge `k` has the node the merge took there (R136). -/
theorem execBuild_child (h : exec .build s = .next t) (hk : k + 1 < leafCount s.freq) {bit : Bool} {i : Idx} :
    (∃ n, readNode t (mergeIdx k) = some n ∧ childOf n bit = i) ↔
      ∃ x, ((collection s.freq k).take 2)[bit.toNat]? = some x ∧ x.1 = i := by
  obtain ⟨a, b, q, hq, hread⟩ := execBuild_merge h hk
  rw [hread, hq, ← childOf_mergeNode]
  simp

/-- The two nodes a merge takes stand in order, and their weights do not overflow (R136, R139). -/
theorem collection_two_lowest {a b : Item} {q : List Item} (hk : k + 1 < leafCount s.freq) (hq : collection s.freq k = a :: b :: q) :
    comesBefore a.2 b.2 = true ∧ a.2.w.toNat + b.2.w.toNat < 2 ^ 40 := by
  have hsorted := collection_sorted (f := s.freq) (j := k) (by omega)
  have hweight := collection_weight (s := s) (j := k) (by omega)
  have hlt := countSum_lt s
  rw [hq] at hsorted hweight
  rw [totalWeight_cons, totalWeight_cons] at hweight
  exact ⟨List.rel_of_pairwise_cons hsorted (by simp), by omega⟩

/-- A node of the collection stands below the index of the merge to come (R23). -/
theorem collection_idx_lt (hj : j < leafCount f) {x : Item} (hx : x ∈ collection f j) : x.1.toNat < 256 + j := by
  rcases List.mem_append.1 (collection_subset hj hx) with hx | hx
  · exact Nat.lt_add_right j (idxKey_of_mem_builtLeaves hx)
  · obtain ⟨-, hlt, -⟩ := idxKey_of_mem_madeBefore hj hx
    exact hlt

end Sys2Proof.Machine

namespace Sys2Proof.Proofs
open Sys2Proof.Machine

/-- Settles O23: the root is the one node left, a record is made of the two lowest nodes of its collection, and the index tells a leaf. -/
theorem builtRootAndInternalNodes : Obligations.BuiltRootAndInternalNodes := by
  intro s t h hn
  rw [presentCount_eq] at *
  obtain ⟨hfreq, hroot, hreads⟩ := execBuild_reads h hn
  have halloc : ∀ x ∈ builtItems s.freq, Allocated t x.1 := fun x hx => (allocated_iff (hfreq ▸ hn)).2 ⟨x, hfreq ▸ hx, rfl⟩
  have hle := leafCount_le s.freq
  refine ⟨fun h1 => ?_, fun h2 => ?_, fun k hk => ?_, fun i hi => ?_⟩
  · obtain ⟨x, hx, hxroot⟩ := collection_last hn
    rw [h1] at hx
    obtain ⟨sym, hc, hsym⟩ := mem_builtLeaves_iff.1 ((collection_zero_perm s.freq).mem_iff.1 (hx ▸ List.mem_singleton_self x))
    exact ⟨sym, hc, by rw [Option.some.inj (hroot.symm.trans hxroot), hsym]⟩
  · have hidx := idxKey_mergeIdx (k := leafCount s.freq - 2) (by omega)
    rw [← Option.some.inj (hroot.symm.trans (builtRoot_of_two_le h2))] at hidx
    rw [← idxKey, hidx]
    omega
  · obtain ⟨a, b, q, hq, hread⟩ := execBuild_merge h hk
    obtain ⟨hbefore, hlt⟩ := collection_two_lowest hk hq
    have ha : a ∈ collection s.freq k := by simp [hq]
    have hb : b ∈ collection s.freq k := by simp [hq]
    have hbuilt := fun {x} => mem_builtItems_of_collection (x := x) (f := s.freq) (j := k) (by omega)
    have hidx := fun {x} => collection_idx_lt (x := x) (f := s.freq) (j := k) (by omega)
    exact ⟨_, a.2, b.2, hread, rfl, rfl, halloc a (hbuilt ha), halloc b (hbuilt hb), hidx ha, hidx hb, hreads a (hbuilt ha),
      hreads b (hbuilt hb), toNat_mergeNode_w hlt, toNat_minSym _ _, hbefore⟩
  · obtain ⟨x, hx, rfl⟩ := (allocated_iff (hfreq ▸ hn)).1 hi
    rw [hfreq] at hx
    exact ⟨x.2, hreads x hx, (builtItems_leaf_iff hx).1⟩

/-- Settles O24: each node but the root has been taken out of the collection by one merge, on one side. -/
theorem builtTreeHasNoSharing : Obligations.BuiltTreeHasNoSharing := by
  intro s t h hn
  rw [presentCount_eq] at *
  obtain ⟨hfreq, hroot, -⟩ := execBuild_reads h hn
  refine ⟨fun i hi hne => ?_, fun k n bit hk hread hchild => ?_⟩
  · obtain ⟨y, hy, rfl⟩ := (allocated_iff (hfreq ▸ hn)).1 hi
    obtain ⟨x, hx, hperm⟩ := taken_perm_builtItems hn
    rw [hfreq, ← hperm.mem_iff, List.mem_append, List.mem_singleton] at hy
    have htaken : y ∈ takenBefore s.freq (leafCount s.freq - 1) :=
      hy.resolve_right fun he => hne (by rw [he, Option.some.inj (hx.symm.trans hroot)])
    obtain ⟨k, hk, bit, hbit⟩ := mem_takenBefore.1 htaken
    have hk : k + 1 < leafCount s.freq := by omega
    refine ⟨(k, bit), ⟨hk, (execBuild_child h hk).2 ⟨y, hbit, rfl⟩⟩, ?_⟩
    rintro ⟨k', bit'⟩ ⟨hk', hchild⟩
    obtain ⟨x', hx', he⟩ := (execBuild_child h hk').1 hchild
    exact taken_unique hn hk' hk hx' hbit he
  · obtain ⟨x, hx, he⟩ := (execBuild_child h hk).1 ⟨n, hread, hchild⟩
    have hd := taken_indices_nodup hn hroot
    rw [List.nodup_append] at hd
    obtain ⟨-, -, hdisj⟩ := hd
    have hmem : x ∈ takenBefore s.freq (leafCount s.freq - 1) := mem_takenBefore.2 ⟨k, by omega, bit, hx⟩
    exact hdisj x.1 (List.mem_map_of_mem hmem) t.root (by simp) he

/-- Settles O25: the collection keeps its weight and its lowest symbol from the leaves down to the root. -/
theorem rootWeighsTheSumOfTheCounts : Obligations.RootWeighsTheSumOfTheCounts := by
  intro s t h hn
  rw [presentCount_eq] at *
  obtain ⟨-, hroot, hreads⟩ := execBuild_reads h hn
  obtain ⟨x, hx, hxroot⟩ := collection_last hn
  have hlast : leafCount s.freq - 1 < leafCount s.freq := by omega
  have hmem : x ∈ collection s.freq (leafCount s.freq - 1) := hx ▸ List.mem_singleton_self x
  have hweight := collection_weight (s := s) hlast
  rw [hx] at hweight
  refine ⟨countSum_lt s, x.2, ?_, hweight, ?_, fun sym hc => ?_⟩
  · rw [Option.some.inj (hroot.symm.trans hxroot)]
    exact hreads x (mem_builtItems_of_collection hlast hmem)
  · obtain ⟨y, hy, hrs⟩ := collection_symbol_of_leaf hlast hmem
    obtain ⟨sym, hc, rfl⟩ := mem_builtLeaves_iff.1 hy
    exact hrs ▸ hc
  · obtain ⟨z, hz, hle⟩ := collection_symbol_le hlast (mem_builtLeaves_iff.2 ⟨sym, hc, rfl⟩)
    rw [hx, List.mem_singleton] at hz
    exact hz ▸ hle

end Sys2Proof.Proofs
end

section
/-! The reading commands RDF, RDS and LKUP (R66): what they answer depends on the memories and the status fields alone, and they write
neither. -/

namespace Sys2Proof.Machine

variable {s t : State} {i : Instr}

theorem sameMemories_refl (s : State) : SameMemories s s := ⟨fun _ => rfl, fun _ => rfl, fun _ => rfl, fun _ => rfl⟩

theorem sameStatus_refl (s : State) : SameStatus s s := ⟨rfl, rfl, rfl, rfl, rfl⟩

/-- A response changes no memory entry. -/
theorem sameMemories_respond (r : Resp) (s : State) : SameMemories s (respond r s) := sameMemories_refl s

/-- A response changes no status field. -/
theorem sameStatus_respond (r : Resp) (s : State) : SameStatus s (respond r s) := sameStatus_refl s

/-- `STATUS` is made of the status fields (R34). -/
theorem statusWord_congr (h : SameStatus s t) : statusWord t = statusWord s := by
  obtain ⟨hts, hcs, hdst, hderr, hnleaf⟩ := h
  rw [statusWord, statusWord, hts, hcs, hdst, hderr, hnleaf]

/-- The entry of the symbol and `CS` decide the one response of LKUP, and it writes nothing else (R163). -/
theorem execLkup_answer (sym : Sym8) (s : State) :
    ∃ r, ∀ t, readCode t sym = readCode s sym → t.cs = s.cs → execLkup sym t = answer r t := by
  cases hcs : s.cs with
  | false => exact ⟨{ rc := .badSequence }, fun t _ htcs => by simp [execLkup, htcs, raise]⟩
  | true =>
    cases hv : (readCode s sym).v with
    | false => exact ⟨{ rc := .unknownSymbol }, fun t hread htcs => by simp [execLkup, htcs, hread, hv, raise]⟩
    | true =>
      exact ⟨{ len := (readCode s sym).len, code := (readCode s sym).bits }, fun t hread htcs => by simp [execLkup, htcs, hread, hv]⟩

/-- A reading command answers one response, in every state with the same memories and status fields, and writes nothing else. -/
theorem exec_reading_answer (hi : i = .rds ∨ (∃ sym, i = .rdf sym) ∨ ∃ sym, i = .lkup sym) (s : State) :
    ∃ r, ∀ t, SameMemories s t → SameStatus s t → exec i t = answer r t := by
  obtain rfl | ⟨sym, rfl⟩ | ⟨sym, rfl⟩ := hi
  · exact ⟨{ n := statusWord s }, fun t _ hstatus => congrArg (fun n => answer { n := n } t) (statusWord_congr hstatus)⟩
  · exact ⟨{ n := readFreq s sym }, fun t ⟨hfreq, _⟩ _ => congrArg (fun n => answer { n := n } t) (hfreq sym)⟩
  · obtain ⟨r, hr⟩ := execLkup_answer sym s
    exact ⟨r, fun t ⟨_, _, _, hcode⟩ ⟨_, hcs, _⟩ => hr t (hcode sym) hcs⟩

end Sys2Proof.Machine

namespace Sys2Proof.Proofs
open Sys2Proof.Machine

/-- Settles O17: a reading command leaves all that its response depends on, so the same command reads the same. -/
theorem readingCommandsChangeNothingAndRepeat : Obligations.ReadingCommandsChangeNothingAndRepeat := by
  intro i s t hi h
  obtain ⟨r, hr⟩ := exec_reading_answer hi s
  rw [hr s (sameMemories_refl s) (sameStatus_refl s), answer_next] at h
  subst h
  have hmem := sameMemories_respond r s
  have hstatus := sameStatus_respond r s
  exact ⟨hmem, ⟨rfl, rfl, rfl⟩, hstatus, r, respond r (respond r s), ⟨rfl, rfl, rfl⟩, hr _ hmem hstatus, ⟨rfl, rfl, rfl⟩⟩

/-- Settles O51: each command's update keeps the form of the memories, and the reset input establishes it with the whole invariant. -/
theorem memoriesKeepTheirCanonicalForm : Obligations.MemoriesKeepTheirCanonicalForm := fun _ _ hs h =>
  step_keeps (P := MemoriesOk) (fun _ _ hs => hs) (fun s _ => (engineOk_assertReset s).1) (fun _ _ hs => hs)
    (fun _ _ _ hs ht => MemoriesOk.exec hs ht) hs h

end Sys2Proof.Proofs
end

section
/-! The command word and its written line, each an iff: which words decode to a command, which rows a word matches, which lines assemble
(R81 to R88, R94). -/

namespace Sys2Proof

variable {w : CmdWord} {i : Instr} {o : Op}

/-! ### The rows of the opcode map -/

/-- With the opcode of a row the must-be-zero fields of its format decide (R85, R88). -/
theorem decode_of_opcode (h : opcOf w = o.opcode) :
    decode w = if unusedZero o.format (a8Of w) (a32Of w) then .ok (mkInstr o (a8Of w) (a32Of w))
      else .error (.nonzeroUnusedField o) := by
  simp [decode, h, opOfOpcode_opcode]

/-- A row whose must-be-zero fields are zero keeps both fields as operands (R82, R83). -/
theorem fields_mkInstr {a : BitVec 8} {c : BitVec 32} (h : unusedZero o.format a c = true) :
    a8Field (mkInstr o a c) = a ∧ a32Field (mkInstr o a c) = c := by
  cases o <;> simp_all [unusedZero, Op.format, mkInstr, a8Field, a32Field]

/-- A word decodes to a command exactly when it is the word of that command (R81, R85, R88). -/
theorem decode_eq_ok_iff : decode w = .ok i ↔ encode i = w := by
  refine ⟨fun h => ?_, fun h => h ▸ decode_encode i⟩
  obtain ⟨-, hd⟩ | ⟨o, -, -, hd⟩ | ⟨o, hop, hzero, hd⟩ := decode_cases w <;> rw [hd] at h
  · cases h
  · cases h
  · injection h with h
    obtain ⟨ha, hc⟩ := fields_mkInstr hzero
    rw [← h, encode, op_mkInstr, ha, hc, hop, packWord_fields]

/-- The word of a row's mask and match: the opcode is kept whole, and no operand bit is matched (R84). -/
theorem row_fields (o : Op) :
    opcOf o.maskBits = BitVec.allOnes 8 ∧ opcOf o.matchBits = o.opcode ∧ a8Of o.matchBits = 0 ∧ a32Of o.matchBits = 0 := by
  cases o <;> decide

/-- The mask of a row keeps exactly the bits its format says must be zero (R82, R84, R85). -/
theorem unusedZero_iff_masked {a : BitVec 8} {c : BitVec 32} :
    unusedZero o.format a c = true ↔ a &&& a8Of o.maskBits = 0 ∧ c &&& a32Of o.maskBits = 0 := by
  have ha : a &&& 0xFF#8 = a := BitVec.and_allOnes
  have hc : c &&& 0xFFFFFFFF#32 = c := BitVec.and_allOnes
  obtain ⟨hmask8, hmask32⟩ : a8Of o.maskBits = (if o.format = .z then 0xFF else 0) ∧
      a32Of o.maskBits = (if o.format = .sc then 0 else 0xFFFFFFFF) := by cases o <;> decide
  rw [hmask8, hmask32]
  cases o.format <;> simp [unusedZero, ha, hc]

/-- A word matches a row exactly when it has the row's opcode and zero in the fields the row's format does not use (R84). -/
theorem row_match_iff : w &&& o.maskBits = o.matchBits ↔ opcOf w = o.opcode ∧ unusedZero o.format (a8Of w) (a32Of w) = true := by
  obtain ⟨hmask, hopc, ha, hc⟩ := row_fields o
  rw [unusedZero_iff_masked]
  constructor
  · intro h
    have h1 := opcOf_and w o.maskBits
    have h2 := a8Of_and w o.maskBits
    have h3 := a32Of_and w o.maskBits
    rw [h] at h1 h2 h3
    rw [hmask, BitVec.and_allOnes] at h1
    exact ⟨h1.symm.trans hopc, h2.symm.trans ha, h3.symm.trans hc⟩
  · rintro ⟨h1, h2, h3⟩
    exact masked_eq (by rw [hmask, BitVec.and_allOnes, hopc, h1]) (h2.trans ha.symm) (h3.trans hc.symm)

/-- A word decodes to a command of a row exactly when it matches the row (R84, R87). -/
theorem decode_row_iff : (∃ i, decode w = .ok i ∧ i.op = o) ↔ w &&& o.maskBits = o.matchBits := by
  rw [row_match_iff]
  constructor
  · rintro ⟨i, hd, rfl⟩
    obtain rfl := decode_eq_ok_iff.1 hd
    simp
  · rintro ⟨hop, hzero⟩
    exact ⟨_, (decode_of_opcode hop).trans (if_pos hzero), op_mkInstr _ _ _⟩

/-- No word matches two rows (R87). -/
theorem row_match_unique {p : Op} (ho : w &&& o.maskBits = o.matchBits) (hp : w &&& p.maskBits = p.matchBits) : o = p := by
  obtain ⟨hopo, -⟩ := row_match_iff.1 ho
  obtain ⟨hopp, -⟩ := row_match_iff.1 hp
  exact opcode_inj (hopo.symm.trans hopp)

/-! ### Illegal words -/

/-- The opcode of a word is refused exactly when no row has it (R86). -/
theorem decode_reserved_iff : decode w = .error (.reservedOpcode (opcOf w)) ↔ ∀ o : Op, o.opcode ≠ opcOf w := by
  rw [← opOfOpcode_eq_none]
  unfold decode
  cases opOfOpcode (opcOf w) with
  | none => simp
  | some o => by_cases hzero : unusedZero o.format (a8Of w) (a32Of w) = true <;> simp [hzero]

/-- The opcodes no row has, as numbers (R86). -/
theorem reserved_opcode_iff (b : BitVec 8) :
    (∀ o : Op, o.opcode ≠ b) ↔ b.toNat = 0 ∨ (0x05 ≤ b.toNat ∧ b.toNat ≤ 0x0F) ∨ (0x11 ≤ b.toNat ∧ b.toNat ≤ 0x1F) ∨
      (0x22 ≤ b.toNat ∧ b.toNat ≤ 0x2F) ∨ 0x33 ≤ b.toNat := by
  rw [← opOfOpcode_eq_none]
  simp only [opOfOpcode, List.find?_eq_none, opcodeMap, List.forall_mem_cons, Op.opcode, beq_iff_eq, List.not_mem_nil,
    false_implies, implies_true, and_true]
  bv_omega

/-- A row's opcode with a nonzero bit in a must-be-zero field is refused by name (R85). -/
theorem decode_of_nonzero (h : opcOf w = o.opcode) (hzero : unusedZero o.format (a8Of w) (a32Of w) ≠ true) :
    decode w = .error (.nonzeroUnusedField o) := (decode_of_opcode h).trans (if_neg hzero)

/-- Bits [39:0] are the two operand fields (R81). -/
theorem extractLsb'_operands (w : CmdWord) : w.extractLsb' 0 40 = a8Of w ++ a32Of w := by
  rw [a8Of, a32Of, BitVec.extractLsb'_append_extractLsb'_eq_extractLsb' (by rfl)]

/-! ### The printed word (R96) -/

/-- The hexadecimal digit of weight 16^j of a number is its four bits from 4j up. -/
theorem hexDigit_eq (w : CmdWord) (j : Nat) : w.toNat / 16 ^ j % 16 = (w.extractLsb' (4 * j) 4).toNat := by
  rw [BitVec.extractLsb'_toNat, Nat.shiftRight_eq_div_pow, Nat.pow_mul]

/-! ### The written line (R94) -/

/-- The lines that are well-formed: as many operands as the format has, each in its range (R82, R83). -/
theorem wellFormed_iff {l : Line} : l.wellFormed = true ↔
    (l.op.format = .z ∧ l.args = []) ∨
    ((l.op.format = .s ∨ l.op.format = .t) ∧ ∃ x, l.args = [x] ∧ x < 256) ∨
    (l.op.format = .sc ∧ ∃ x c, l.args = [x, c] ∧ x < 256 ∧ c < 2 ^ 32) := by
  obtain ⟨o, args⟩ := l
  unfold Line.wellFormed
  cases o.format <;> match args with
    | [] => simp
    | [x] => simp
    | [x, c] => simp
    | x :: c :: y :: args => simp

/-- The command made of a well-formed line writes that line. -/
theorem toLine_mkInstr {l : Line} (h : l.wellFormed = true) :
    (mkInstr l.op (BitVec.ofNat 8 (l.args.headD 0)) (BitVec.ofNat 32 (l.args.tail.headD 0))).toLine = l := by
  obtain ⟨o, args⟩ := l
  obtain ⟨hf, rfl⟩ | ⟨hf, x, rfl, hx⟩ | ⟨hf, x, c, rfl, hx, hc⟩ := wellFormed_iff.1 h
  · cases o <;> simp [Op.format] at hf <;> rfl
  · cases o <;> simp [Op.format] at hf <;> simp [mkInstr, Instr.toLine, Nat.mod_eq_of_lt hx]
  · obtain rfl : o = .ldf := by cases o <;> simp [Op.format] at hf; rfl
    simpa [mkInstr, Instr.toLine, Nat.mod_eq_of_lt hx] using hc

/-- The line that writes a command assembles to it (R94). -/
theorem assemble_toLine (i : Instr) : assemble i.toLine = some i := by
  rw [assemble, if_pos (show i.toLine.wellFormed = true from wellFormed_all i)]
  cases i <;> simp [Instr.toLine, mkInstr]

/-- A line assembles exactly when it is well-formed. -/
theorem assemble_isSome_iff {l : Line} : (∃ i, assemble l = some i) ↔ l.wellFormed = true := by
  unfold assemble
  cases l.wellFormed <;> simp

end Sys2Proof

namespace Sys2Proof.Proofs
open Sys2Proof.Machine

/-- Settles O1: the fields of the word are the operands, and every operand is in its range. -/
theorem decodeOfEncodeIsTheCommand : Obligations.DecodeOfEncodeIsTheCommand := fun i => ⟨wellFormed_all i, decode_encode i⟩

/-- Settles O2: the fields that hold no operand are zero in a legal word. -/
theorem encodeOfDecodeIsTheWord : Obligations.EncodeOfDecodeIsTheWord := fun _ _ => decode_eq_ok_iff.1

/-- Settles O3: the mask of a row keeps its opcode and its must-be-zero fields. -/
theorem legalWordsAreTheRowsOfTheOpcodeMap : Obligations.LegalWordsAreTheRowsOfTheOpcodeMap :=
  ⟨fun _ _ => decode_row_iff, fun _ _ _ => row_match_unique⟩

/-- Settles O4: the opcodes of the ten rows, and the fields each format leaves unused. -/
theorem reservedOpcodesAndNonzeroFieldsAreIllegal : Obligations.ReservedOpcodesAndNonzeroFieldsAreIllegal := by
  refine fun w => ⟨(reserved_opcode_iff (opcOf w)).symm.trans decode_reserved_iff.symm, fun o hop hf hne => ?_, fun o hop hf hne => ?_⟩
  · refine decode_of_nonzero hop fun hzero => hne ?_
    obtain ⟨ha, hc⟩ : a8Of w = 0 ∧ a32Of w = 0 := by simpa [hf, unusedZero] using hzero
    rw [extractLsb'_operands, ha, hc]
    rfl
  · refine decode_of_nonzero hop fun hzero => hne ?_
    rcases hf with hf | hf <;> rw [hf] at hzero <;> exact beq_iff_eq.1 hzero

/-- Settles O6: the digits of a word are its groups of four bits, and a word decodes to the command it encodes. -/
theorem workedEncodingsDecodeAndPrint : Obligations.WorkedEncodingsDecodeAndPrint := by
  refine ⟨fun w => ⟨by simp [printWord], fun k hk => ?_⟩, by decide, ?_, by decide, by decide⟩
  · rw [printWord, List.getElem?_map, List.getElem?_range hk, Option.map_some, hexDigit_eq, show 4 * (11 - k) = 44 - 4 * k by omega]
  · simp only [decode_eq_ok_iff]
    decide

/-- Settles O7: a line assembles when it is well-formed, and the command it assembles to writes it. -/
theorem writtenLinesAssemble : Obligations.WrittenLinesAssemble := by
  refine ⟨assemble_toLine, fun l i h => ?_, fun l => assemble_isSome_iff.trans wellFormed_iff, fun l h => ?_⟩
  · have hwf := assemble_isSome_iff.1 ⟨i, h⟩
    rw [assemble, if_pos hwf, Option.some.injEq] at h
    rw [← h, toLine_mkInstr hwf]
  · simp [assemble, h]

end Sys2Proof.Proofs
end

section
/-! The response of a command word (R87, R90, R92): a step that takes a word gives one response, and each command fills only the fields that are
its own. -/

namespace Sys2Proof.Machine

variable {s t : State} {w : CmdWord} {rest : List HostInput} {i : Instr}

/-- The fields a response fills, by command (R92): the result code in any, the others only where the command sets them. -/
inductive ResponseForm : Instr → Resp → Prop
  | plain (i : Instr) (rc : ResultCode) : ResponseForm i { rc := rc }
  | rdf (sym : Sym8) (n : BitVec 32) : ResponseForm (.rdf sym) { n := n }
  | rds (n : BitVec 32) : ResponseForm .rds { n := n }
  | lkup (sym : Sym8) (len : BitVec 8) (code : CodeBits) : ResponseForm (.lkup sym) { len := len, code := code }
  | dstart (sym : Sym8) (n : BitVec 32) : ResponseForm .dstart { emit := true, sym := sym, n := n }
  | dbit (tok : BitVec 8) (sym : Sym8) (n : BitVec 32) : ResponseForm (.dbit tok) { emit := true, sym := sym, n := n }

/-- A command that goes on answers once, with a response of its form (R90, R92). -/
theorem exec_answered (h : exec i s = .next t) : ∃ r, ResponseForm i r ∧ Answered s t r := by
  cases i with
  | clr => rw [execClr_cases h]; exact ⟨_, .plain _ _, rfl, rfl, rfl⟩
  | ldf sym cnt => rw [execLdf_cases h]; exact ⟨_, .plain _ _, rfl, rfl, rfl⟩
  | rdf sym => rw [execRdf_cases h]; exact ⟨_, .rdf sym _, rfl, rfl, rfl⟩
  | rds => rw [execRds_cases h]; exact ⟨_, .rds _, rfl, rfl, rfl⟩
  | build => obtain ⟨-, rfl⟩ | ⟨root, -, rfl⟩ := execBuild_cases h <;> exact ⟨_, .plain _ _, rfl, rfl, rfl⟩
  | gen => obtain ⟨-, rfl⟩ | ⟨cs, -, -, rfl⟩ := execGen_cases h <;> exact ⟨_, .plain _ _, rfl, rfl, rfl⟩
  | lkup sym =>
    obtain ⟨-, rfl⟩ | ⟨-, -, rfl⟩ | ⟨-, -, rfl⟩ := execLkup_cases h
    · exact ⟨_, .plain _ _, rfl, rfl, rfl⟩
    · exact ⟨_, .plain _ _, rfl, rfl, rfl⟩
    · exact ⟨_, .lkup sym _ _, rfl, rfl, rfl⟩
  | dstart =>
    obtain ⟨-, rfl⟩ | ⟨-, rfl⟩ | ⟨n, -, -, rfl⟩ | ⟨-, rfl⟩ := execDstart_cases h
    · exact ⟨_, .plain _ _, rfl, rfl, rfl⟩
    · exact ⟨_, .plain _ _, rfl, rfl, rfl⟩
    · exact ⟨_, .dstart _ _, rfl, rfl, rfl⟩
    · exact ⟨_, .plain _ _, rfl, rfl, rfl⟩
  | dbit tok =>
    obtain ⟨-, rfl⟩ | ⟨-, -, rfl⟩ | ⟨bit, -, -, hw⟩ := execDbit_cases h
    · exact ⟨_, .plain _ _, rfl, rfl, rfl⟩
    · exact ⟨_, .plain _ _, rfl, rfl, rfl⟩
    · obtain ⟨n, c, -, -, ⟨-, rfl⟩ | ⟨-, rfl⟩⟩ := walkBit_cases hw
      · exact ⟨_, .dbit tok _ _, rfl, rfl, rfl⟩
      · exact ⟨_, .plain _ _, rfl, rfl, rfl⟩
  | dend => obtain ⟨-, rfl⟩ | ⟨-, rfl⟩ | ⟨-, -, rfl⟩ | ⟨-, -, rfl⟩ := execDend_cases h <;> exact ⟨_, .plain _ _, rfl, rfl, rfl⟩

/-- A pending word that does not decode is taken and answered `IllegalCommand` (R87). -/
theorem step_of_pending_illegal {e : DecodeError} (hp : s.pending = .command w :: rest) (hd : decode w = .error e) :
    step s = .next (respond { rc := .illegalCommand } { s with pending := rest }) := by
  simp [step, takeInput, hp, hd, illegalCommand, raise, answer]

/-- A step that takes a word and goes on has run its command, or answered `IllegalCommand` (R87, R88). -/
theorem step_command_cases (hp : s.pending = .command w :: rest) (h : step s = .next t) :
    (∃ i, decode w = .ok i ∧ exec i { s with pending := rest } = .next t) ∨
    (∃ e, decode w = .error e ∧ t = respond { rc := .illegalCommand } { s with pending := rest }) := by
  cases hd : decode w with
  | ok i => exact .inl ⟨i, rfl, (step_of_pending_command hp hd).symm.trans h⟩
  | error e =>
    rw [step_of_pending_illegal hp hd] at h
    injection h with h
    exact .inr ⟨e, rfl, h.symm⟩

/-- A step that takes a word and goes on answers once: `IllegalCommand`, or a response of the command's form (R90, R92). -/
theorem step_command_answered (hp : s.pending = .command w :: rest) (h : step s = .next t) :
    ∃ r, Answered { s with pending := rest } t r ∧ (r = { rc := .illegalCommand } ∨ ∃ i, decode w = .ok i ∧ ResponseForm i r) := by
  obtain ⟨i, hd, hexec⟩ | ⟨e, -, rfl⟩ := step_command_cases hp h
  · obtain ⟨r, hform, hans⟩ := exec_answered hexec
    exact ⟨r, hans, .inr ⟨i, hd, hform⟩⟩
  · exact ⟨_, ⟨rfl, rfl, rfl⟩, .inl rfl⟩

end Sys2Proof.Machine

namespace Sys2Proof.Proofs
open Sys2Proof.Machine

/-- Settles O5: a legal word matches the row of its command and no other, an illegal word no row. -/
theorem illegalWordIsAnsweredAndChangesNothing : Obligations.IllegalWordIsAnsweredAndChangesNothing := by
  intro s w rest hp
  cases hd : decode w with
  | ok i =>
    have hrow := decode_row_iff.1 ⟨i, hd, rfl⟩
    exact .inl ⟨⟨i.op, hrow, fun p hmatch => row_match_unique hmatch hrow⟩, i, rfl⟩
  | error e =>
    refine .inr ⟨fun o hmatch => ?_, step_of_pending_illegal hp hd⟩
    obtain ⟨i, hok, -⟩ := decode_row_iff.2 hmatch
    rw [hd] at hok
    cases hok

/-- Settles O10: the response of the word taken is the one response given. -/
theorem everyCommandReturnsExactlyOneResponse : Obligations.EveryCommandReturnsExactlyOneResponse := by
  intro s t w rest hp h
  obtain ⟨r, hans, -⟩ := step_command_answered hp h
  exact ⟨r, hans⟩

/-- Settles O46: each form of a response leaves the fields it does not fill zero. -/
theorem responsesAreZeroFilled : Obligations.ResponsesAreZeroFilled := by
  intro s t w rest r hp h hr
  obtain ⟨r', ⟨hresps, -, -⟩, hform⟩ := step_command_answered hp h
  obtain rfl : r = r' := List.singleton_inj.1 (List.append_cancel_left (hr.symm.trans hresps))
  obtain rfl | ⟨i, hd, hform⟩ := hform
  · simp
  · rw [hd]
    cases hform <;> simp

end Sys2Proof.Proofs
end

section
/-! The tree of a build can be read (R29, R166): a child stands below its parent, so no path is longer than there are merges, and GEN answers
wherever there is a tree state. -/

namespace Sys2Proof.Machine

variable {s : State}

/-- A leaf is read as a leaf. -/
theorem treeFrom_leaf {era fuel : Nat} {m : Memory Node} {i : Idx} {n : Node} (hn : nodeEntry era m i = some n)
    (hleaf : isLeaf n = true) : treeFrom era m fuel i = .ok (.leaf n.rs n.w) := by
  cases fuel <;> simp [treeFrom, hn, hleaf]

/-- A node with children is read as the trees of its children. -/
theorem treeFrom_internal {era fuel : Nat} {m : Memory Node} {i : Idx} {n : Node} {left right : CodeTree}
    (hn : nodeEntry era m i = some n) (hleaf : isLeaf n = false) (hl : treeFrom era m fuel n.l = .ok left)
    (hr : treeFrom era m fuel n.r = .ok right) : treeFrom era m (fuel + 1) i = .ok (.internal n.w left right) := by
  simp [treeFrom, hn, hleaf, hl, hr]

/-- An entry of the build that is no leaf was made by a merge of two nodes of its collection (R136). -/
theorem internal_of_mem_builtItems {f : Memory Count} {x : Item} (hx : x ∈ builtItems f) (hleaf : isLeaf x.2 = false) :
    ∃ k a b q, k + 1 < leafCount f ∧ collection f k = a :: b :: q ∧ x = (mergeIdx k, mergeNode a b) := by
  rw [builtItems_eq, List.mem_append] at hx
  rcases hx with hx | hx
  · rw [isLeaf_of_mem_builtLeaves hx] at hleaf
    cases hleaf
  · have hn : leafCount f ≠ 0 := fun h0 => by rw [h0] at hx; simp at hx
    obtain ⟨k, a, b, q, hk, hq, hmade⟩ := (mem_madeBefore (by omega)).1 hx
    exact ⟨k, a, b, q, by omega, hq, hmade⟩

/-- Where `NODE` reads the entries of the build, the tree at an index below 256 + fuel can be read (R37 item 3). -/
theorem treeFrom_built (hreads : ∀ x ∈ builtItems s.freq, readNode s x.1 = some x.2) {fuel : Nat} {x : Item}
    (hx : x ∈ builtItems s.freq) (hfuel : idxKey x.1 < 256 + fuel) : ∃ tree, treeFrom s.era s.node fuel x.1 = .ok tree := by
  induction fuel generalizing x with
  | zero =>
    obtain ⟨hiff, -⟩ := builtItems_leaf_iff hx
    exact ⟨_, treeFrom_leaf (hreads x hx) (hiff.trans (decide_eq_true hfuel))⟩
  | succ fuel ih =>
    cases hleaf : isLeaf x.2 with
    | true => exact ⟨_, treeFrom_leaf (hreads x hx) hleaf⟩
    | false =>
      obtain ⟨k, a, b, q, hk, hq, rfl⟩ := internal_of_mem_builtItems hx hleaf
      have hle := leafCount_le s.freq
      have hchild : ∀ y ∈ collection s.freq k, ∃ tree, treeFrom s.era s.node fuel y.1 = .ok tree := by
        intro y hy
        have hlt : idxKey y.1 < 256 + k := collection_idx_lt (by omega) hy
        rw [idxKey_mergeIdx (by omega)] at hfuel
        exact ih (mem_builtItems_of_collection (by omega) hy) (by omega)
      obtain ⟨left, hl⟩ := hchild a (by simp [hq])
      obtain ⟨right, hr⟩ := hchild b (by simp [hq])
      exact ⟨_, treeFrom_internal (hreads _ hx) hleaf hl hr⟩

/-- Under the invariant the tree at `ROOT` can be read, if there is one (R29, R37). -/
theorem TreeOk.treeAt_root (h : TreeOk s) (hn : s.ts ≠ .none) (he : s.ts ≠ .empty) : ∃ tree, treeAt s s.root = .ok tree := by
  obtain ⟨hroot, hreads⟩ := h.reads hn he
  have hcount : leafCount s.freq ≠ 0 := fun h0 => by simp [builtRoot_eq_none.2 h0] at hroot
  obtain ⟨x, hx, hxroot⟩ := collection_last hcount
  have hidx : x.1 = s.root := Option.some.inj (hxroot.symm.trans hroot)
  have hmem := mem_builtItems_of_collection (by omega) (hx ▸ List.mem_singleton_self x)
  exact hidx ▸ treeFrom_built hreads hmem (builtItems_lt hmem)

/-- Under the invariant the codes GEN is to write can be read wherever there is a tree state (R160, R161). -/
theorem TreeOk.currentCodes_ok (h : TreeOk s) (hn : s.ts ≠ .none) : ∃ cs, currentCodes s = .ok cs := by
  unfold currentCodes
  cases hts : s.ts with
  | none => exact absurd hts hn
  | empty => exact ⟨[], rfl⟩
  | single | multi =>
    obtain ⟨tree, htree⟩ := h.treeAt_root hn (by simp [hts])
    exact ⟨deriveCodes tree, by simp [htree]⟩

end Sys2Proof.Machine
end

section
/-! The expansions of a pseudo-command (R95): commands whose one response is known are issued one after the other. -/

namespace Sys2Proof.Machine

variable {past : ResultCode → Bool} {s u : State} {i : Instr} {is : List Instr} {r : Resp}

/-- A command that answers is issued with that response (R70). -/
theorem issue_of_answer (h : exec i s = answer r u) : issue i s = some (r, respond r u) := by
  simp [issue, h, answer]

/-- An expansion goes on past a command that answers `OK`, or a code it passes over. -/
theorem runExpansion_cons (h : exec i s = answer r u) (hr : r.rc = .ok ∨ past r.rc = true) :
    runExpansion past (i :: is) s = (runExpansion past is (respond r u)).map fun x => (r :: x.1, x.2.1, x.2.2) :=
  runExpansion_goesOn (issue_of_answer h) hr

/-- An expansion ends at a command that answers another code. -/
theorem runExpansion_error (h : exec i s = answer r u) (hok : r.rc ≠ .ok) (hpast : past r.rc = false) :
    runExpansion past (i :: is) s = some ([r], r.rc, respond r u) :=
  runExpansion_ends (issue_of_answer h) hok hpast

/-- Commands that answer the same way in every state with the property `P`, and keep it, run to the end. -/
theorem runExpansion_map {α : Type} {P : State → Prop} {command : α → Instr} {response : α → Resp} {xs : List α}
    (hexec : ∀ x ∈ xs, ∀ t, P t → exec (command x) t = answer (response x) t) (hkeep : ∀ t r, P t → P (respond r t))
    (hpast : ∀ x ∈ xs, (response x).rc = .ok ∨ past (response x).rc = true) (hs : P s) :
    ∃ t, runExpansion past (xs.map command) s = some (xs.map response, .ok, t) ∧ P t := by
  induction xs generalizing s with
  | nil => exact ⟨s, rfl, hs⟩
  | cons x xs ih =>
    rw [List.forall_mem_cons] at hexec hpast
    obtain ⟨hx, hexec⟩ := hexec
    obtain ⟨hgo, hpast⟩ := hpast
    obtain ⟨t, hrun, ht⟩ := ih hexec hpast (hkeep s (response x) hs)
    exact ⟨t, by rw [List.map_cons, runExpansion_cons (hx s hs) hgo, hrun]; rfl, ht⟩

/-- GEN without a tree state is out of sequence (R161). -/
theorem execGen_of_none (hn : s.ts = .none) : execGen s = raise .badSequence s := by simp [execGen, hn]

/-- DSTART on an empty tree answers `EmptyTree` (R211). -/
theorem execDstart_of_empty (he : s.ts = .empty) : execDstart s = raise .emptyTree (setDecoder .idle s) := by simp [execDstart, he]

/-! ### LOADHDR (R190, R194) -/

/-- The table `f` with the counts of a list of pairs written over it, in order (R183). -/
def overwrite (f : Sym8 → Nat) (h : List (Sym8 × Nat)) : Sym8 → Nat :=
  h.foldl (fun f p => fun sym => if sym = p.1 then p.2 else f sym) f

theorem tableOf_eq_overwrite (h : List (Sym8 × Nat)) : tableOf h = overwrite (fun _ => 0) h := rfl

theorem overwrite_cons (f : Sym8 → Nat) (p : Sym8 × Nat) (h : List (Sym8 × Nat)) :
    overwrite f (p :: h) = overwrite (fun sym => if sym = p.1 then p.2 else f sym) h := rfl

/-- The counts as numbers after LDF of a count that fits (R112, R190). -/
theorem readFreq_loaded {n : Nat} (hn : n < 2 ^ 32) (sym x : Sym8) (s : State) :
    (readFreq (respond {} (invalidate (writeFreq sym (BitVec.ofNat 32 n) s))) x).toNat =
      if x = sym then n else (readFreq s x).toNat := by
  show (readFreq (writeFreq sym (BitVec.ofNat 32 n) s) x).toNat = _
  rw [readFreq_writeFreq]
  split
  · rw [BitVec.toNat_ofNat, Nat.mod_eq_of_lt hn]
  · rfl

/-- The `LDF` commands of a header write its counts over those the engine holds (R112, R190). -/
theorem runUntilError_loads {h : List (Sym8 × Nat)} (hlt : ∀ p ∈ h, p.2 < 2 ^ 32) (s : State) :
    ∃ rs t, runUntilError (h.map fun p => .ldf p.1 (BitVec.ofNat 32 p.2)) s = some (rs, .ok, t) ∧
      ∀ sym, (readFreq t sym).toNat = overwrite (fun sym => (readFreq s sym).toNat) h sym := by
  induction h generalizing s with
  | nil => exact ⟨[], s, rfl, fun _ => rfl⟩
  | cons p h ih =>
    rw [List.forall_mem_cons] at hlt
    obtain ⟨hp, hlt⟩ := hlt
    obtain ⟨rs, t, hrun, hread⟩ := ih hlt (respond {} (invalidate (writeFreq p.1 (BitVec.ofNat 32 p.2) s)))
    refine ⟨{} :: rs, t, ?_, fun sym => ?_⟩
    · rw [List.map_cons, runUntilError, runExpansion_cons rfl (.inl rfl), ← runUntilError, hrun]
      rfl
    · simp only [hread, readFreq_loaded hp, overwrite_cons]

/-- After LOADHDR the engine holds the table of the pairs, whatever it held before (R190, R194). -/
theorem runUntilError_loadHeader {h : List (Sym8 × Nat)} (hlt : ∀ p ∈ h, p.2 < 2 ^ 32) :
    ∃ load, loadHeader h = .ok load ∧ ∀ s, ∃ rs t, runUntilError load s = some (rs, .ok, t) ∧
      ∀ sym, (readFreq t sym).toNat = tableOf h sym := by
  refine ⟨_, if_pos (by simpa using hlt), fun s => ?_⟩
  obtain ⟨rs, t, hrun, hread⟩ := runUntilError_loads hlt (respond {} (invalidate (clearFreq s)))
  refine ⟨{} :: rs, t, ?_, tableOf_eq_overwrite h ▸ hread⟩
  rw [runUntilError, runExpansion_cons rfl (.inl rfl), ← runUntilError, hrun]
  rfl

/-- The host refuses a header with a count the engine cannot hold (R190). -/
theorem loadHeader_tooLarge {h : List (Sym8 × Nat)} (hbig : ∃ p ∈ h, 2 ^ 32 ≤ p.2) : loadHeader h = .error .countTooLarge :=
  if_neg (by simpa using hbig)

/-! ### CODEBOOK (R95, R163) -/

/-- What LKUP answers where the code table is valid (R163). -/
def lookupResponse (s : State) (sym : Sym8) : Resp :=
  if (readCode s sym).v then { len := (readCode s sym).len, code := (readCode s sym).bits } else { rc := .unknownSymbol }

theorem execLkup_of_cs (hcs : s.cs = true) (sym : Sym8) : execLkup sym s = answer (lookupResponse s sym) s := by
  cases hv : (readCode s sym).v <;> simp [execLkup, lookupResponse, hcs, hv, raise]

theorem lookupResponse_rc (s : State) (sym : Sym8) :
    (lookupResponse s sym).rc = .ok ∨ (lookupResponse s sym).rc = .unknownSymbol := by
  cases hv : (readCode s sym).v <;> simp [lookupResponse, hv]

/-- With a valid code table lookups answer an entry or `UnknownSymbol` for each symbol, as the table reads in the end too (R66, R163). -/
theorem runExpansion_lookups (hpast : past .unknownSymbol = true) (hcs : s.cs = true) (ks : List Nat) :
    ∃ t, runExpansion past (ks.map fun k => .lkup (BitVec.ofNat 8 k)) s =
      some (ks.map fun k => lookupResponse t (BitVec.ofNat 8 k), .ok, t) := by
  have hexec : ∀ sym t, (t.cs = true ∧ ∀ sym, lookupResponse t sym = lookupResponse s sym) →
      exec (.lkup sym) t = answer (lookupResponse s sym) t := fun sym _ ⟨htcs, hsame⟩ => hsame sym ▸ execLkup_of_cs htcs sym
  have hgo : ∀ sym, (lookupResponse s sym).rc = .ok ∨ past (lookupResponse s sym).rc = true :=
    fun sym => (lookupResponse_rc s sym).imp_right fun hrc => (congrArg past hrc).trans hpast
  obtain ⟨t, hrun, -, hsame⟩ := runExpansion_map (xs := ks) (command := fun k => .lkup (BitVec.ofNat 8 k))
    (fun k _ => hexec (BitVec.ofNat 8 k)) (fun _ _ ht => ht) (fun k _ => hgo (BitVec.ofNat 8 k)) ⟨hcs, fun _ => rfl⟩
  exact ⟨t, by simp only [hsame]; exact hrun⟩

/-- Where the codes of the tree can be read CODEBOOK runs to its end: `OK` for GEN and a response for each symbol (R95). -/
theorem runCodebook_of_codes {cs : List (Sym8 × List Bool)} (hn : s.ts ≠ .none) (hcodes : currentCodes s = .ok cs) :
    ∃ t, runCodebook s = some ({} :: (List.range Config.nsym).map fun k => lookupResponse t (BitVec.ofNat 8 k), .ok, t) := by
  obtain ⟨t, hrun⟩ := runExpansion_lookups (past := fun rc => decide (rc = .unknownSymbol)) (by rfl)
    (s := respond {} { s with code := codeTable cs, cs := true }) rfl (List.range Config.nsym)
  have hgen : exec .gen s = answer {} { s with code := codeTable cs, cs := true } := execGen_of_codes hn hcodes
  refine ⟨t, ?_⟩
  rw [runCodebook, codebook, runExpansion_cons hgen (.inl rfl), hrun]
  rfl

end Sys2Proof.Machine

namespace Sys2Proof.Proofs
open Sys2Proof.Machine

/-- Settles O58: LOADHDR is a clear and the writes of the pairs over zeros; CODEBOOK is a GEN that answers, since the tree can be read, and
lookups in the table it leaves; a GEN or a DSTART out of place ends its expansion at once. -/
theorem loadHeaderLoadsAndCodebookReadsTheTable : Obligations.LoadHeaderLoadsAndCodebookReadsTheTable := by
  refine ⟨fun h => ⟨loadHeader_tooLarge, runUntilError_loadHeader⟩, fun s hs hn => ?_, fun s hn => ?_, fun s toks he => ?_⟩
  · obtain ⟨-, -, htree, -⟩ := hs
    obtain ⟨cs, hcs⟩ := htree.currentCodes_ok hn
    obtain ⟨t, hrun⟩ := runCodebook_of_codes hn hcs
    refine ⟨_, t, hrun, by simp, rfl, fun sym => ?_⟩
    rw [List.getElem?_cons_succ, List.getElem?_map, List.getElem?_range sym.isLt, Option.map_some, BitVec.ofNat_toNat, BitVec.setWidth_eq]
    rfl
  · exact ⟨_, runExpansion_error (i := .gen) (execGen_of_none hn) nofun rfl⟩
  · exact ⟨_, _, runExpansion_error (i := .dstart) (execDstart_of_empty he) nofun rfl, rfl, rfl⟩

end Sys2Proof.Proofs
end

section
/-! The table and status commands CLR, LDF, RDF and RDS (R111 to R114). The first two write the counts and invalidate what was built from
them, the other two write nothing. -/

namespace Sys2Proof.Machine

/-! ### The status word -/

/-- The fields of `STATUS`, from bit 0 up, and the zero bits between them and above the last (R114). -/
theorem statusWord_fields (s : State) :
    (statusWord s).extractLsb' 0 2 = tsCode s.ts ∧ (statusWord s).getLsbD 2 = s.cs ∧ (statusWord s).getLsbD 3 = false ∧
      (statusWord s).extractLsb' 4 2 = dstCode s.dst ∧ (statusWord s).extractLsb' 6 2 = 0 ∧
      (statusWord s).extractLsb' 8 4 = s.derr ∧ (statusWord s).extractLsb' 12 4 = 0 ∧
      (statusWord s).extractLsb' 16 9 = s.nleaf ∧ (statusWord s).extractLsb' 25 7 = 0 := by
  -- The outermost append has the width of `STATUS` written as one number, where `simp` looks for a sum.
  have hfield : ∀ k n, 2 ≤ k → (statusWord s).extractLsb' k n =
      (0#7 ++ s.nleaf ++ 0#4 ++ s.derr ++ 0#2 ++ dstCode s.dst ++ 0#1 ++ BitVec.ofBool s.cs).extractLsb' (k - 2) n :=
    fun _ _ => BitVec.extractLsb'_append_eq_of_le
  refine ⟨BitVec.extractLsb'_append_eq_right, BitVec.getLsbD_append.trans ?_, BitVec.getLsbD_append.trans ?_, ?_⟩
  all_goals
    simp (disch := decide) only [hfield, BitVec.extractLsb'_append_eq_of_le, BitVec.extractLsb'_append_eq_right,
      BitVec.extractLsb'_eq_self, BitVec.getLsbD_append, BitVec.getLsbD_ofBool, BitVec.getLsbD_zero, Nat.reduceSub, Nat.reduceLT,
      reduceIte, decide_true, Bool.true_and, BitVec.ofNat_eq_ofNat, and_self]

/-! ### What the commands leave unchanged -/

/-- A command that only answers gives its response and changes nothing else (R90). -/
theorem answer_only_responds (r : Resp) (s : State) :
    ∃ t, answer r s = .next t ∧ Answered s t r ∧ SameMemories s t ∧ SameRegisters s t ∧ SameStatus s t :=
  ⟨respond r s, rfl, ⟨rfl, rfl, rfl⟩, sameMemories_respond r s, ⟨rfl, rfl, rfl⟩, sameStatus_respond r s⟩

/-- A command that writes the counts and invalidates zeroes the status fields, and leaves the other memories and the registers (R38). -/
theorem invalidate_freq_frame {s t : State} {f : Memory Count} {r : Resp} (h : t = respond r (invalidate { s with freq := f })) :
    t.ts = .none ∧ t.cs = false ∧ t.dst = .idle ∧ t.derr = 0 ∧ t.nleaf = 0 ∧
      (∀ i, readNode t i = readNode s i) ∧ (∀ p, readPq t p = readPq s p) ∧ (∀ sym, readCode t sym = readCode s sym) ∧
      SameRegisters s t := by
  subst h
  exact ⟨rfl, rfl, rfl, rfl, rfl, fun _ => rfl, fun _ => rfl, fun _ => rfl, rfl, rfl, rfl⟩

end Sys2Proof.Machine

namespace Sys2Proof.Proofs
open Sys2Proof.Machine

/-- Settles O16: RDS only answers, and the word it answers is taken apart into its fields and the zero bits between them. -/
theorem readStatusAnswersTheStatusWord : Obligations.ReadStatusAnswersTheStatusWord :=
  ⟨decode_eq_ok_iff.2 (by decide), by decide, by decide, fun s => ⟨answer_only_responds _ s, statusWord_fields s⟩⟩

/-- Settles O13: in an empty table every symbol reads 0, and the rest is the frame of a command that invalidates. -/
theorem clearZeroesTheTableAndInvalidates : Obligations.ClearZeroesTheTableAndInvalidates :=
  ⟨decode_eq_ok_iff.2 (by decide), fun s => ⟨respond {} (invalidate (clearFreq s)), rfl, ⟨rfl, rfl, rfl⟩,
    fun sym => readFreq_clearFreq sym s, invalidate_freq_frame rfl⟩⟩

/-- Settles O14: a read after the write of one count, zero or not, and the frame of a command that invalidates. -/
theorem loadWritesOneCountAndInvalidates : Obligations.LoadWritesOneCountAndInvalidates := by
  refine ⟨fun sym cnt => decode_encode (.ldf sym cnt), fun s sym cnt => ⟨respond {} (invalidate (writeFreq sym cnt s)), rfl,
    ⟨rfl, rfl, rfl⟩, ?_, fun x hx => ?_, invalidate_freq_frame rfl⟩⟩
  · exact (readFreq_writeFreq sym sym cnt s).trans (if_pos rfl)
  · exact (readFreq_writeFreq sym x cnt s).trans (if_neg hx)

/-- Settles O15: RDF only answers. -/
theorem readCountAnswersTheEntry : Obligations.ReadCountAnswersTheEntry :=
  ⟨fun sym => decode_encode (.rdf sym), fun s sym => answer_only_responds { n := readFreq s sym } s⟩

end Sys2Proof.Proofs
end

section
/-! The order of the working collection (R132, R135): what `comesBefore` decides, and when it does not. -/

namespace Sys2Proof.Machine

/-- A node that comes before another does not come after it (R132). -/
theorem comesBefore_asymm {a b : Node} (h : comesBefore a b = true) : comesBefore b a = false := by
  rw [← Bool.not_eq_true]
  rw [comesBefore_iff, ← BitVec.toNat_inj] at *
  omega

/-- Undecided are only nodes of equal weight and symbol (R132). -/
theorem comesBefore_undecided_iff {a b : Node} :
    (comesBefore a b = false ∧ comesBefore b a = false) ↔ (a.w = b.w ∧ a.rs = b.rs) := by
  rw [← Bool.not_eq_true, ← Bool.not_eq_true, comesBefore_iff, comesBefore_iff, ← BitVec.toNat_inj, ← BitVec.toNat_inj,
    ← BitVec.toNat_inj]
  omega

end Sys2Proof.Machine

namespace Sys2Proof.Proofs
open Sys2Proof.Machine

/-- Settles O18: the rules of the order on weights and symbols as numbers, and the two example pairs evaluated. -/
theorem comesBeforeIsAStrictOrder : Obligations.ComesBeforeIsAStrictOrder :=
  ⟨fun _ => (comesBefore_undecided_iff.2 ⟨rfl, rfl⟩).1, fun _ _ => comesBefore_asymm, fun _ _ _ => comesBefore_trans,
    fun _ _ => comesBefore_undecided_iff, by decide, by decide⟩

/-- Settles O19: insertion keeps the order, and permutes the new node into the collection. -/
theorem insertingKeepsTheCollectionSorted : Obligations.InsertingKeepsTheCollectionSorted :=
  fun x q hq hx => ⟨insertItem_sorted hq hx, insertItem_perm x q⟩

end Sys2Proof.Proofs
end

section
/-! What BUILD leaves of the state (R134, R138, R140): the status it sets, the entries of `NODE` it writes, and those it does not. -/

namespace Sys2Proof.Machine

variable {s t : State} {i : Idx}

/-- Of a table of zeros nothing is allocated (R138). -/
theorem leafCount_ne_zero_of_allocated (hi : Allocated s i) : leafCount s.freq ≠ 0 := by
  rcases hi with ⟨sym, hc, -⟩ | ⟨j, hj, -⟩
  · exact (List.length_pos_of_mem (mem_builtLeaves_iff.2 ⟨sym, hc, rfl⟩)).ne'
  · rw [presentCount_eq] at hj; omega

/-- A root is left of a table with leaves only (R138). -/
theorem leafCount_ne_zero_of_builtRoot {f : Memory Count} {root : Idx} (h : builtRoot f = some root) : leafCount f ≠ 0 :=
  fun h0 => by simp [builtRoot_eq_none.2 h0] at h

/-- `NODE` reads an entry it has no write for as it did (R23). -/
theorem readNode_writeItems_other {xs : List Item} (h : ∀ x ∈ xs, x.1 ≠ i) :
    readNode { s with node := writeItems xs s.node } i = readNode s i := by
  have hkey : ∀ x ∈ xs, idxKey x.1 ≠ idxKey i := fun x hx he => h x hx (idxKey_inj.1 he)
  simp only [readNode, nodeEntry, memLookup_writeItems_other hkey]

/-- BUILD keeps every entry of `NODE` it does not allocate (R23). -/
theorem execBuild_readNode_other (h : exec .build s = .next t) (hi : ¬ Allocated s i) : readNode t i = readNode s i := by
  obtain ⟨-, rfl⟩ | ⟨root, hroot, rfl⟩ := execBuild_cases h
  · rfl
  · have hn := leafCount_ne_zero_of_builtRoot hroot
    exact readNode_writeItems_other (s := s) fun x hx he => hi ((allocated_iff hn).2 ⟨x, hx, he⟩)

/-- BUILD answers `OK` and leaves no code table, an idle decoder, and the number of leaves with the tree state of it (R138, R140). -/
theorem execBuild_status (h : exec .build s = .next t) :
    Answered s t {} ∧ t.cs = false ∧ t.dst = .idle ∧ t.derr = 0 ∧
      t.nleaf = BitVec.ofNat 9 (leafCount s.freq) ∧ t.ts = builtTs (leafCount s.freq) := by
  obtain ⟨-, rfl⟩ | ⟨root, -, rfl⟩ := execBuild_cases h <;> exact ⟨⟨rfl, rfl, rfl⟩, rfl, rfl, rfl, rfl, rfl⟩

/-- Of a table of zeros BUILD makes no tree: the memories and the root stay (R138). -/
theorem execBuild_of_zeros (h : exec .build s = .next t) (hn : leafCount s.freq = 0) :
    t.pqn = 0 ∧ t.root = s.root ∧ (∀ i, readNode t i = readNode s i) ∧ ∀ p, readPq t p = readPq s p := by
  obtain ⟨-, rfl⟩ | ⟨root, hroot, -⟩ := execBuild_cases h
  · exact ⟨rfl, rfl, fun _ => rfl, fun _ => rfl⟩
  · exact absurd hn (leafCount_ne_zero_of_builtRoot hroot)

/-- Of any other table the root alone is left in the working collection (R24, R137). -/
theorem execBuild_queue (h : exec .build s = .next t) (hn : leafCount s.freq ≠ 0) : t.pqn = 1 ∧ readPq t 0 = t.root := by
  obtain ⟨hroot, -⟩ | ⟨root, -, rfl⟩ := execBuild_cases h
  · exact absurd (builtRoot_eq_none.1 hroot) hn
  · exact ⟨rfl, rfl⟩

theorem leafIdx_inj {a b : Sym8} : leafIdx a = leafIdx b ↔ a = b := by
  simp only [leafIdx, ← BitVec.toNat_inj, BitVec.toNat_setWidth]
  omega

/-- The index of a symbol with count 0 is not allocated: internal nodes stand above all symbols (R23). -/
theorem not_allocated_leafIdx {sym : Sym8} (hc : readFreq s sym = 0) : ¬ Allocated s (leafIdx sym) := by
  rintro (⟨sym', hc', he⟩ | ⟨j, hj, he⟩)
  · exact hc' (leafIdx_inj.1 he ▸ hc)
  · have hle := leafCount_le s.freq
    rw [presentCount_eq] at hj
    have hkey := congrArg idxKey he
    rw [idxKey_mergeIdx (by omega)] at hkey
    simp only [leafIdx, idxKey, BitVec.toNat_setWidth] at hkey
    omega

end Sys2Proof.Machine

namespace Sys2Proof.Proofs
open Sys2Proof.Machine

/-- Settles O20: BUILD answers, and each clause is the status it sets or the frame of its one update. -/
theorem buildCompletesAndSetsTheStatus : Obligations.BuildCompletesAndSetsTheStatus := by
  intro s
  obtain ⟨t, h⟩ := execBuild_answers s
  have h : exec .build s = .next t := h
  obtain ⟨hans, hcs, hdst, hderr, hnleaf, hts⟩ := execBuild_status h
  obtain ⟨r, u, he, rfl⟩ := exec_effect h
  have hle := leafCount_le s.freq
  rw [presentCount_eq]
  refine ⟨_, h, hans, hcs, hdst, hderr, ?_, hts, execBuild_of_zeros h, execBuild_queue h, fun i => execBuild_readNode_other h,
    readFreq_congr (he.freq nofun nofun), readCode_congr (he.code nofun) he.era, he.cur nofun nofun⟩
  rw [hnleaf, BitVec.toNat_ofNat]
  omega

/-- Settles O21: the leaf of a present symbol is among the entries BUILD writes, the index of an absent one is not allocated. -/
theorem buildMakesOneLeafPerPresentSymbol : Obligations.BuildMakesOneLeafPerPresentSymbol := by
  intro s t sym h
  refine ⟨fun hc => ?_, fun hc => execBuild_readNode_other h (not_allocated_leafIdx hc)⟩
  have hleaf := mem_builtLeaves_iff.2 ⟨sym, hc, rfl⟩
  obtain ⟨-, -, hreads⟩ := execBuild_reads h (List.length_pos_of_mem hleaf).ne'
  exact hreads _ (List.mem_append_left _ hleaf)

end Sys2Proof.Proofs
end

section
/-! The two nodes each merge of BUILD takes (R136, R137), told from the node memory it leaves: the collection at a merge is what was
allocated before and is no child of an earlier merge. -/

namespace Sys2Proof.Machine

variable {f : Memory Count} {s t : State} {j k : Nat} {i : Idx}

/-- The entries a build allocates stand at different indices (R23). -/
theorem builtItems_indices_nodup (f : Memory Count) : ((builtItems f).map Prod.fst).Nodup := by
  refine List.Nodup.of_map idxKey ?_
  rw [List.map_map]
  exact builtItems_nodup f

/-- No two of the nodes taken before merge `j`, and those still in the collection, stand at one index (R23). -/
theorem taken_collection_indices_nodup (hj : j < leafCount f) : ((takenBefore f j ++ collection f j).map Prod.fst).Nodup := by
  have hsub : List.Sublist (builtLeaves f ++ madeBefore f j) (builtItems f) := by
    rw [builtItems_eq]
    exact (madeBefore_prefix (by omega)).sublist.append_left _
  exact ((takenBefore_perm hj).map _).nodup_iff.2 ((builtItems_indices_nodup f).sublist (hsub.map _))

/-- The nodes taken before merge `k` are the children of the earlier merges (R136). -/
theorem execBuild_taken_iff (h : exec .build s = .next t) (hk : k < leafCount s.freq) :
    (∃ x ∈ takenBefore s.freq k, x.1 = i) ↔ ∃ j < k, ∃ n, readNode t (mergeIdx j) = some n ∧ (n.l = i ∨ n.r = i) := by
  have hchild : ∀ n : Node, (n.l = i ∨ n.r = i) ↔ ∃ bit, childOf n bit = i := fun n => by simp [childOf]
  constructor
  · rintro ⟨x, hx, hxi⟩
    obtain ⟨j, hj, bit, hbit⟩ := mem_takenBefore.1 hx
    obtain ⟨n, hn, hni⟩ := (execBuild_child h (by omega)).2 ⟨x, hbit, hxi⟩
    exact ⟨j, hj, n, hn, (hchild n).2 ⟨bit, hni⟩⟩
  · rintro ⟨j, hj, n, hn, hside⟩
    obtain ⟨bit, hni⟩ := (hchild n).1 hside
    obtain ⟨x, hx, hxi⟩ := (execBuild_child h (by omega)).1 ⟨n, hn, hni⟩
    exact ⟨x, mem_takenBefore.2 ⟨j, hj, bit, hx⟩, hxi⟩

/-- What is in the working collection at merge `k`, by the node memory, is what the build's collection holds (R24, R136). -/
theorem execBuild_unmerged_iff (h : exec .build s = .next t) (hk : k < leafCount s.freq) :
    Unmerged t k i ↔ ∃ x ∈ collection s.freq k, x.1 = i := by
  obtain ⟨hfreq, -, -⟩ := execBuild_reads h (by omega)
  have halloc : AllocatedBefore t k i ↔ ∃ x ∈ takenBefore s.freq k ++ collection s.freq k, x.1 = i := by
    rw [allocatedBefore_iff (hfreq ▸ hk), hfreq]
    simp only [(takenBefore_perm hk).mem_iff]
  have hchild : (∀ j, j < k → ∀ n, readNode t (mergeIdx j) = some n → n.l ≠ i ∧ n.r ≠ i) ↔
      ¬ ∃ x ∈ takenBefore s.freq k, x.1 = i := by
    rw [execBuild_taken_iff h hk]
    push Not
    rfl
  have hd := taken_collection_indices_nodup hk
  rw [List.map_append, List.nodup_append] at hd
  obtain ⟨-, -, hdisj⟩ := hd
  rw [Unmerged, halloc, hchild]
  constructor
  · rintro ⟨⟨x, hx, hxi⟩, hnot⟩
    exact ⟨x, (List.mem_append.1 hx).resolve_left fun htaken => hnot ⟨x, htaken, hxi⟩, hxi⟩
  · rintro ⟨x, hx, rfl⟩
    refine ⟨⟨x, List.mem_append_right _ hx, rfl⟩, ?_⟩
    rintro ⟨y, hy, he⟩
    exact hdisj _ (List.mem_map_of_mem hy) _ (List.mem_map_of_mem hx) he

end Sys2Proof.Machine

namespace Sys2Proof.Proofs
open Sys2Proof.Machine

/-- Settles O22: the collection at a merge is sorted, and its first two nodes become the children. -/
theorem greedyMergeTakesTheTwoLowest : Obligations.GreedyMergeTakesTheTwoLowest := by
  intro s t k h hk
  rw [presentCount_eq] at hk
  have hk' : k < leafCount s.freq := by omega
  obtain ⟨-, -, hreads⟩ := execBuild_reads h (by omega)
  obtain ⟨a, b, q, hq, hread⟩ := execBuild_merge h hk
  have hin := fun {i} => execBuild_unmerged_iff (i := i) h hk'
  have hheld := fun {x} hx => hreads x (mem_builtItems_of_collection hk' hx)
  have hd := (taken_collection_indices_nodup hk').sublist ((List.sublist_append_right _ _).map _)
  have hsorted := collection_sorted hk'
  rw [hq] at hin hheld hd hsorted
  obtain ⟨hab, hsorted⟩ := List.pairwise_cons.1 hsorted
  obtain ⟨hbq, -⟩ := List.pairwise_cons.1 hsorted
  have ha : a ∈ a :: b :: q := by simp
  have hb : b ∈ a :: b :: q := by simp
  refine ⟨a.1, b.1, a.2, b.2, hread, fun he => ?_, hin.2 ⟨a, ha, rfl⟩, hin.2 ⟨b, hb, rfl⟩, hheld ha, hheld hb,
    hab b (by simp), fun i c hi hia hib hc => ?_⟩
  · simp [he] at hd
  · obtain ⟨x, hx, rfl⟩ := hin.1 hi
    have hxq : x ∈ q := by
      rcases List.mem_cons.1 hx with rfl | hx'
      · exact absurd rfl hia
      · exact (List.mem_cons.1 hx').resolve_left fun he => hib (he ▸ rfl)
    obtain rfl : x.2 = c := Option.some.inj ((hheld hx).symm.trans hc)
    exact hbq x hxq

end Sys2Proof.Proofs
end

section
/-! The abstract tree of a build (R29, R130), merge by merge and apart from any state: every state whose `NODE` holds the entries of the
build reads it. Its leaves are those of the table in another order, and a record is labelled by the leaves below it. -/

namespace Sys2Proof.Machine

variable {f : Memory Count} {s t : State} {j : Nat}

/-- The tree below an entry of a build (R29): a leaf, or the trees of the two nodes the merge took (R136). -/
inductive BuiltTree (f : Memory Count) : Item → CodeTree → Prop
  | leaf {x : Item} (hx : x ∈ builtLeaves f) : BuiltTree f x (.leaf x.2.rs x.2.w)
  | merge {k : Nat} {a b : Item} {q : List Item} {left right : CodeTree} (hk : k + 1 < leafCount f)
      (hq : collection f k = a :: b :: q) (ha : BuiltTree f a left) (hb : BuiltTree f b right) :
      BuiltTree f (mergeIdx k, mergeNode a b) (.internal (mergeNode a b).w left right)

theorem BuiltTree.mem_builtItems {x : Item} {tree : CodeTree} (h : BuiltTree f x tree) : x ∈ builtItems f := by
  cases h with
  | leaf hx => exact List.mem_append_left _ hx
  | merge hk hq =>
    rw [builtItems_eq]
    exact List.mem_append_right _ ((mem_madeBefore (by omega)).2 ⟨_, _, _, _, by omega, hq, rfl⟩)

/-- `Tree(i)` is the tree of the build wherever `NODE` reads the entries of the build: a child stands below its parent, so the
fuel lasts (R29, R37 item 3). -/
theorem BuiltTree.treeFrom {x : Item} {tree : CodeTree} {fuel : Nat} (h : BuiltTree f x tree)
    (hreads : ∀ x ∈ builtItems f, readNode s x.1 = some x.2) (hfuel : idxKey x.1 < 256 + fuel) :
    treeFrom s.era s.node fuel x.1 = .ok tree := by
  have hread := hreads x h.mem_builtItems
  induction h generalizing fuel with
  | leaf hx => exact treeFrom_leaf hread (isLeaf_of_mem_builtLeaves hx)
  | @merge k a b q left right hk hq ha hb iha ihb =>
    have hle := leafCount_le f
    rw [idxKey_mergeIdx (by omega)] at hfuel
    have hlow : ∀ y ∈ collection f k, idxKey y.1 < 256 + k := fun y hy => collection_idx_lt (by omega) hy
    rw [hq] at hlow
    have hka := hlow a (by simp)
    have hkb := hlow b (by simp)
    obtain ⟨fuel, rfl⟩ := Nat.exists_eq_succ_of_ne_zero (n := fuel) (by omega)
    exact treeFrom_internal hread rfl (iha (by omega) (hreads a ha.mem_builtItems)) (ihb (by omega) (hreads b hb.mem_builtItems))

theorem BuiltTree.treeAt {x : Item} {tree : CodeTree} (h : BuiltTree f x tree)
    (hreads : ∀ x ∈ builtItems f, readNode s x.1 = some x.2) : treeAt s x.1 = .ok tree :=
  h.treeFrom hreads (builtItems_lt h.mem_builtItems)

/-- Before each merge the nodes of the collection have trees, and the leaves of these are the leaves of the table (R130). -/
theorem collection_trees (hj : j < leafCount f) : ∃ trees, List.Forall₂ (BuiltTree f) (collection f j) trees ∧
    (trees.flatMap treeLeaves).Perm ((builtLeaves f).map fun x => (x.2.rs, x.2.w)) := by
  induction j with
  | zero =>
    have hleaves : List.Forall₂ (BuiltTree f) (builtLeaves f) ((builtLeaves f).map fun x => .leaf x.2.rs x.2.w) :=
      List.forall₂_map_right_iff.2 (List.forall₂_same.2 fun _ hx => .leaf hx)
    obtain ⟨trees, htrees, hperm⟩ := List.perm_comp_forall₂ (collection_zero_perm f) hleaves
    refine ⟨trees, htrees, (hperm.flatMap_right _).trans ?_⟩
    simp [List.flatMap_map, treeLeaves, ← List.map_eq_flatMap]
  | succ j ih =>
    obtain ⟨a, b, q, hq, hnext, -⟩ := collection_succ hj
    obtain ⟨trees, htrees, hleaves⟩ := ih (by omega)
    rw [hq] at htrees
    obtain _ | ⟨ha, _ | ⟨hb, hrest⟩⟩ := htrees
    obtain ⟨trees, htrees, hperm⟩ := List.perm_comp_forall₂ (insertItem_perm _ q) (.cons (.merge hj hq ha hb) hrest)
    refine ⟨trees, hnext ▸ htrees, (hperm.flatMap_right _).trans ?_⟩
    simpa [treeLeaves] using hleaves

/-- Each entry of a build is in the working collection before some merge: a leaf before the first, a merged node before the next. -/
theorem mem_collection_of_mem_builtItems {x : Item} (hx : x ∈ builtItems f) : ∃ j < leafCount f, x ∈ collection f j := by
  rw [builtItems_eq, List.mem_append] at hx
  rcases hx with hx | hx
  · exact ⟨0, List.length_pos_of_mem hx, (collection_zero_perm f).mem_iff.2 hx⟩
  · have hn : leafCount f ≠ 0 := fun h0 => by rw [h0] at hx; simp at hx
    obtain ⟨k, a, b, q, hk, hq, rfl⟩ := (mem_madeBefore (by omega)).1 hx
    exact ⟨k + 1, by omega, by simp [(collection_step hq).1]⟩

theorem exists_builtTree {x : Item} (hx : x ∈ builtItems f) : ∃ tree, BuiltTree f x tree := by
  obtain ⟨j, hj, hmem⟩ := mem_collection_of_mem_builtItems hx
  obtain ⟨trees, htrees, -⟩ := collection_trees hj
  obtain ⟨i, hi, rfl⟩ := List.mem_iff_getElem.1 hmem
  exact ⟨_, htrees.get hi (htrees.length_eq ▸ hi)⟩

/-- The root of a build has a tree, whose leaves are the leaves of the table (R130). -/
theorem exists_rootTree {root : Idx} (hroot : builtRoot f = some root) : ∃ n tree, BuiltTree f (root, n) tree ∧
    (treeLeaves tree).Perm ((builtLeaves f).map fun x => (x.2.rs, x.2.w)) := by
  have hn := leafCount_ne_zero_of_builtRoot hroot
  obtain ⟨x, hx, hxroot⟩ := collection_last hn
  obtain rfl : x.1 = root := Option.some.inj (hxroot.symm.trans hroot)
  obtain ⟨trees, htrees, hleaves⟩ := collection_trees (f := f) (j := leafCount f - 1) (by omega)
  rw [hx] at htrees
  obtain _ | ⟨htree, _ | _⟩ := htrees
  exact ⟨x.2, _, htree, by simpa using hleaves⟩

/-- A record is labelled by a list of leaves: its symbol is the smallest of theirs, its weight their integer sum (R37 item 7). -/
def LabelledBy (n : Node) (leaves : List (Sym8 × Weight)) : Prop :=
  n.rs ∈ leaves.map Prod.fst ∧ (∀ p ∈ leaves, n.rs.toNat ≤ p.1.toNat) ∧ n.w.toNat = (leaves.map fun p => p.2.toNat).sum

theorem labelledBy_leaf (n : Node) : LabelledBy n (treeLeaves (.leaf n.rs n.w)) := by
  simp [LabelledBy, treeLeaves]

/-- A merge that does not overflow is labelled by the leaves of both its children (R136, R139). -/
theorem LabelledBy.merge {a b : Item} {la lb : List (Sym8 × Weight)} (ha : LabelledBy a.2 la) (hb : LabelledBy b.2 lb)
    (hw : a.2.w.toNat + b.2.w.toNat < 2 ^ 40) : LabelledBy (mergeNode a b) (la ++ lb) := by
  obtain ⟨hamem, hamin, hasum⟩ := ha
  obtain ⟨hbmem, hbmin, hbsum⟩ := hb
  have hrs : (mergeNode a b).rs.toNat = min a.2.rs.toNat b.2.rs.toNat := toNat_minSym _ _
  refine ⟨?_, fun p hp => ?_, ?_⟩
  · rw [List.map_append, List.mem_append]
    rcases minSym_eq_or a.2.rs b.2.rs with hmin | hmin <;> simp only [mergeNode, hmin]
    · exact .inl hamem
    · exact .inr hbmem
  · rcases List.mem_append.1 hp with hp | hp
    · have := hamin p hp; omega
    · have := hbmin p hp; omega
  · rw [toNat_mergeNode_w hw, hasum, hbsum, List.map_append, List.sum_append]

theorem BuiltTree.labelledBy {x : Item} {tree : CodeTree} (h : BuiltTree s.freq x tree) : LabelledBy x.2 (treeLeaves tree) := by
  induction h with
  | leaf => exact labelledBy_leaf _
  | merge hk hq _ _ iha ihb =>
    obtain ⟨-, hw⟩ := collection_two_lowest hk hq
    exact iha.merge ihb hw

end Sys2Proof.Machine

namespace Sys2Proof.Proofs
open Sys2Proof.Machine

/-- Settles O26: the root's tree has the leaves of the table, and every entry has a tree whose leaves label it. -/
theorem builtTreeHasExactlyThePresentLeaves : Obligations.BuiltTreeHasExactlyThePresentLeaves := by
  intro s t h hn
  rw [presentCount_eq] at hn
  obtain ⟨hfreq, hroot, hreads⟩ := execBuild_reads h hn
  refine ⟨?_, fun i hi => ?_⟩
  · obtain ⟨n, tree, htree, hleaves⟩ := exists_rootTree hroot
    refine ⟨tree, htree.treeAt hreads, (hleaves.map Prod.fst).nodup_iff.2 ?_, fun sym w => ?_⟩
    · rw [List.map_map]
      exact builtLeaves_symbols_nodup s.freq
    · simp only [hleaves.mem_iff, List.mem_map, mem_builtLeaves_iff]
      constructor
      · rintro ⟨_, ⟨sym', hc, rfl⟩, he⟩
        cases he
        exact ⟨hc, rfl⟩
      · rintro ⟨hc, rfl⟩
        exact ⟨_, ⟨sym, hc, rfl⟩, rfl⟩
  · obtain ⟨x, hx, rfl⟩ := (allocated_iff (hfreq ▸ hn)).1 hi
    rw [hfreq] at hx
    obtain ⟨tree, htree⟩ := exists_builtTree hx
    exact ⟨x.2, tree, hreads x hx, htree.treeAt hreads, htree.labelledBy⟩

end Sys2Proof.Proofs
end

section
/-! A build is a function of the counts (R141): two states whose counts read the same are left with the same tree. -/

namespace Sys2Proof.Machine

variable {s s' t t' : State}

/-- Tables that read the same have the same leaves (R141). -/
theorem builtLeaves_of_reads (h : ∀ sym, readFreq s sym = readFreq s' sym) :
    builtLeaves s.freq = builtLeaves s'.freq := by
  refine builtLeaves_congr fun k hk => ?_
  have hkey : symKey (BitVec.ofNat 8 k) = k := by simp only [symKey, BitVec.toNat_ofNat]; omega
  simpa only [readFreq, hkey] using h (BitVec.ofNat 8 k)

/-- The size, the entries and the root of a build are made of its leaves alone (R141). -/
theorem built_of_leaves {f g : Memory Count} (h : builtLeaves f = builtLeaves g) :
    leafCount f = leafCount g ∧ builtItems f = builtItems g ∧ builtRoot f = builtRoot g := by
  simp only [leafCount, builtItems, builtRoot, mergeRun, h, and_self]

/-- Builds of equal leaves leave the same root, the same tree and the same entries, in whatever else the states differ (R141). -/
theorem execBuild_congr (h : exec .build s = .next t) (h' : exec .build s' = .next t')
    (hleaves : builtLeaves s.freq = builtLeaves s'.freq) (hn : leafCount s.freq ≠ 0) :
    t.root = t'.root ∧ treeAt t t.root = treeAt t' t'.root ∧ ∀ i, Allocated s i → readNode t i = readNode t' i := by
  obtain ⟨hcount, hitems, hroots⟩ := built_of_leaves hleaves
  obtain ⟨-, hroot, hreads⟩ := execBuild_reads h hn
  obtain ⟨-, hroot', hreads'⟩ := execBuild_reads h' (hcount ▸ hn)
  rw [← hitems] at hreads'
  have he : t.root = t'.root := Option.some.inj (hroot.symm.trans (hroots.trans hroot'))
  obtain ⟨n, tree, htree, -⟩ := exists_rootTree hroot
  refine ⟨he, (htree.treeAt hreads).trans (he ▸ (htree.treeAt hreads').symm), fun i hi => ?_⟩
  obtain ⟨x, hx, rfl⟩ := (allocated_iff hn).1 hi
  exact (hreads x hx).trans (hreads' x hx).symm

/-- The codes of two trees that read the same are the same (R160). -/
theorem currentCodes_congr (hts : t.ts = s.ts) (htree : t.ts ≠ .empty → treeAt t t.root = treeAt s s.root) :
    currentCodes t = currentCodes s := by
  unfold currentCodes
  cases h : s.ts with
  | none | empty => simp only [hts, h]
  | single | multi => simp only [hts, h, htree (by simp [hts, h])]

end Sys2Proof.Machine

namespace Sys2Proof.Proofs
open Sys2Proof.Machine

/-- Settles O27: equal counts have equal leaves, and these alone make the status, the entries, the root and the tree. -/
theorem buildDependsOnTheCountsAlone : Obligations.BuildDependsOnTheCountsAlone := by
  intro s s' t t' hcounts h h'
  have hleaves := builtLeaves_of_reads hcounts
  obtain ⟨hcount, -, -⟩ := built_of_leaves hleaves
  obtain ⟨-, -, -, -, hnleaf, hts⟩ := execBuild_status h
  obtain ⟨-, -, -, -, hnleaf', hts'⟩ := execBuild_status h'
  have hteq : t.ts = t'.ts := by rw [hts, hts', hcount]
  have hbuilt := execBuild_congr h h' hleaves
  refine ⟨hteq, by rw [hnleaf, hnleaf', hcount], fun i hi => ?_, currentCodes_congr hteq fun hne => ?_, fun hn => ?_⟩
  · obtain ⟨-, -, hreads⟩ := hbuilt (leafCount_ne_zero_of_allocated hi)
    exact hreads i hi
  · obtain ⟨-, htree, -⟩ := hbuilt fun h0 => hne (hts.trans (builtTs_eq_empty.2 h0))
    exact htree
  · obtain ⟨hroot, htree, -⟩ := hbuilt (presentCount_eq s ▸ hn)
    exact ⟨hroot, htree⟩

end Sys2Proof.Proofs
end

section
/-! The codes of a tree (R160). A code is the path to a leaf; so it has fewer branches than the tree has leaves (R166), and no path to a leaf
goes on from the end of another (R164). -/

namespace Sys2Proof.Machine

variable {tree : CodeTree} {sym sym' : Sym8} {w w' : Weight} {p q : List Bool}

/-! ### Following a bit string -/

@[simp] theorem follow_nil (tree : CodeTree) : follow tree [] = some tree := by cases tree <;> rfl

@[simp] theorem follow_internal_cons (left right : CodeTree) (bit : Bool) :
    follow (.internal w left right) (bit :: p) = follow (if bit then right else left) p := rfl

/-- From a leaf only the empty string leads anywhere: to that leaf. -/
@[simp] theorem follow_leaf : follow (.leaf sym w) p = some (.leaf sym' w') ↔ p = [] ∧ sym = sym' ∧ w = w' := by
  cases p <;> simp [follow]

theorem follow_append (tree : CodeTree) (p q : List Bool) :
    follow tree (p ++ q) = (follow tree p).bind fun subtree => follow subtree q := by
  induction p generalizing tree with
  | nil => simp
  | cons bit p ih =>
    cases tree with
    | leaf => rfl
    | internal w left right => exact ih _

/-- The codes below a path are that path with each path to a leaf after it (R160). -/
theorem mem_codes_iff : (sym, q) ∈ codes tree p ↔ ∃ r w, q = p ++ r ∧ follow tree r = some (.leaf sym w) := by
  induction tree generalizing p with
  | leaf =>
    simp only [codes, List.mem_singleton, Prod.mk.injEq, follow_leaf]
    constructor
    · rintro ⟨rfl, rfl⟩
      exact ⟨[], _, by simp, rfl, rfl, rfl⟩
    · rintro ⟨_, _, rfl, rfl, rfl, -⟩
      simp
  | internal w left right ihl ihr =>
    simp only [codes, List.mem_append, ihl, ihr, List.append_assoc]
    constructor
    · rintro (⟨r, w, rfl, h⟩ | ⟨r, w, rfl, h⟩)
      · exact ⟨false :: r, w, rfl, h⟩
      · exact ⟨true :: r, w, rfl, h⟩
    · rintro ⟨_ | ⟨_ | _, r⟩, w, rfl, h⟩
      · simp at h
      · exact .inl ⟨r, w, rfl, h⟩
      · exact .inr ⟨r, w, rfl, h⟩

theorem mem_deriveCodes_iff : (sym, p) ∈ deriveCodes tree ↔ ∃ w, follow tree p = some (.leaf sym w) := by
  simp [deriveCodes, mem_codes_iff]

/-! ### The lengths of the codes (R166) -/

theorem treeLeaves_length_pos (tree : CodeTree) : 0 < (treeLeaves tree).length := by
  induction tree with
  | leaf => exact Nat.one_pos
  | internal w left right ihl _ => rw [treeLeaves, List.length_append]; omega

/-- Each branch of a path leaves behind the leaves of the other child. -/
theorem length_lt_of_follow_leaf (h : follow tree p = some (.leaf sym w)) : p.length < (treeLeaves tree).length := by
  induction tree generalizing p with
  | leaf => obtain ⟨rfl, -⟩ := follow_leaf.1 h; exact Nat.one_pos
  | internal _ left right ihl ihr =>
    have hl := treeLeaves_length_pos left
    have hr := treeLeaves_length_pos right
    rw [treeLeaves, List.length_append]
    match p with
    | [] => rw [List.length_nil]; omega
    | false :: p => have := ihl h; rw [List.length_cons]; omega
    | true :: p => have := ihr h; rw [List.length_cons]; omega

/-- The root of a tree of several leaves is no leaf, so it has no code. -/
theorem length_pos_of_follow_leaf (h : follow tree p = some (.leaf sym w)) (htwo : 2 ≤ (treeLeaves tree).length) : 0 < p.length := by
  cases p with
  | nil =>
    rw [follow_nil, Option.some.injEq] at h
    subst h
    simp [treeLeaves] at htwo
  | cons => exact Nat.succ_pos _

/-! ### Prefix-freedom (R164) -/

/-- A path that goes on from a leaf goes nowhere, so it is the path to that leaf. -/
theorem symbol_eq_of_follow_prefix (hp : follow tree p = some (.leaf sym w)) (hq : follow tree q = some (.leaf sym' w'))
    (hprefix : p <+: q) : sym = sym' := by
  obtain ⟨r, rfl⟩ := hprefix
  rw [follow_append, hp, Option.bind_some, follow_leaf] at hq
  obtain ⟨-, hsym, -⟩ := hq
  exact hsym

end Sys2Proof.Machine

namespace Sys2Proof.Proofs
open Sys2Proof.Machine

/-- Settles O28, from the codes below a path: `deriveCodes` starts at the empty one. -/
theorem derivedCodeIsThePathToTheLeaf : Obligations.DerivedCodeIsThePathToTheLeaf := fun _ _ _ => mem_deriveCodes_iff

end Sys2Proof.Proofs
end

section
/-! The codes of a table of counts (R160, R168): those of the tree the build of the table leaves. Under the invariant GEN derives them, and a
valid code table holds one entry for each. -/

namespace Sys2Proof.Machine

variable {f : Memory Count} {s s' t : State} {cs : List (Sym8 × List Bool)} {sym sym' : Sym8} {p q : List Bool}

/-! ### The code of each symbol -/

/-- The lists of codes a table of counts can have: no code for a table of zeros (R165), else the codes of a tree with the leaves of the
table. -/
inductive TableCodes (f : Memory Count) : List (Sym8 × List Bool) → Prop
  | empty (hn : leafCount f = 0) : TableCodes f []
  | tree {tree : CodeTree} (hleaves : (treeLeaves tree).Perm ((builtLeaves f).map fun x => (x.2.rs, x.2.w))) :
      TableCodes f (deriveCodes tree)

/-- The symbols with a code are those with a leaf (R160). -/
theorem TableCodes.symbols (h : TableCodes f cs) : (cs.map Prod.fst).Perm ((builtLeaves f).map fun x => x.2.rs) := by
  cases h with
  | empty hn => rw [List.eq_nil_of_length_eq_zero hn]; exact .nil
  | @tree tree hleaves =>
    have hsymbols := hleaves.map Prod.fst
    rw [List.map_map] at hsymbols
    rw [deriveCodes, codes_symbols]
    exact hsymbols

/-- No symbol has two codes (R160). -/
theorem TableCodes.symbols_nodup (h : TableCodes f cs) : (cs.map Prod.fst).Nodup :=
  h.symbols.nodup_iff.2 (builtLeaves_symbols_nodup f)

/-- A symbol has a code exactly when its count is nonzero (R168). -/
theorem TableCodes.exists_code_iff (h : TableCodes s.freq cs) : (∃ p, (sym, p) ∈ cs) ↔ readFreq s sym ≠ 0 := by
  calc (∃ p, (sym, p) ∈ cs)
    _ ↔ sym ∈ cs.map Prod.fst := by simp
    _ ↔ sym ∈ (builtLeaves s.freq).map fun x => x.2.rs := h.symbols.mem_iff
    _ ↔ readFreq s sym ≠ 0 := by
      simp only [List.mem_map, mem_builtLeaves_iff]
      constructor
      · rintro ⟨_, ⟨sym, hc, rfl⟩, rfl⟩
        exact hc
      · exact fun hc => ⟨_, ⟨sym, hc, rfl⟩, rfl⟩

/-- A code has fewer bits than there are present symbols (R166). -/
theorem TableCodes.length_lt (h : TableCodes f cs) (hp : (sym, p) ∈ cs) : p.length < leafCount f := by
  cases h with
  | empty => simp at hp
  | tree hleaves =>
    obtain ⟨w, hfollow⟩ := mem_deriveCodes_iff.1 hp
    simpa [hleaves.length_eq] using length_lt_of_follow_leaf hfollow

/-- With several present symbols a code has a bit at least (R166). -/
theorem TableCodes.length_pos (h : TableCodes f cs) (hp : (sym, p) ∈ cs) (htwo : 2 ≤ leafCount f) : 0 < p.length := by
  cases h with
  | empty => simp at hp
  | tree hleaves =>
    obtain ⟨w, hfollow⟩ := mem_deriveCodes_iff.1 hp
    exact length_pos_of_follow_leaf hfollow (by simpa [hleaves.length_eq] using htwo)

/-- A code fits the field `bits` (R25, R166). -/
theorem TableCodes.length_le (h : TableCodes f cs) (hp : (sym, p) ∈ cs) : p.length ≤ 255 := by
  have hlt := h.length_lt hp
  have hle := leafCount_le f
  omega

/-- A code begins no code but that of its own symbol (R164). -/
theorem TableCodes.symbol_eq_of_prefix (h : TableCodes f cs) (hp : (sym, p) ∈ cs) (hq : (sym', q) ∈ cs) (hprefix : p <+: q) :
    sym = sym' := by
  cases h with
  | empty => simp at hp
  | tree =>
    obtain ⟨w, hp⟩ := mem_deriveCodes_iff.1 hp
    obtain ⟨w', hq⟩ := mem_deriveCodes_iff.1 hq
    exact symbol_eq_of_follow_prefix hp hq hprefix

/-! ### The codes of the tree the engine holds -/

/-- The codes read with a tree state: none of an empty tree, else those derived from the tree at `ROOT` (R161). -/
theorem currentCodes_cases (h : currentCodes s = .ok cs) (hn : s.ts ≠ .none) :
    (s.ts = .empty ∧ cs = []) ∨ (s.ts ≠ .empty ∧ ∃ tree, treeAt s s.root = .ok tree ∧ cs = deriveCodes tree) := by
  unfold currentCodes at h
  cases hts : s.ts with
  | none => exact absurd hts hn
  | empty =>
    rw [hts] at h
    cases h
    exact .inl ⟨rfl, rfl⟩
  | single | multi =>
    cases htree : treeAt s s.root with
    | error => simp [hts, htree] at h
    | ok tree => exact .inr ⟨nofun, tree, rfl, by simpa [hts, htree, eq_comm] using h⟩

/-- Under the invariant the tree at `ROOT` is the one of the build of the counts, with the leaves of the table (R37, R71). -/
theorem TreeOk.builtTree (h : TreeOk s) (hn : s.ts ≠ .none) (he : s.ts ≠ .empty) :
    ∃ n tree, BuiltTree s.freq (s.root, n) tree ∧ treeAt s s.root = .ok tree ∧
      (treeLeaves tree).Perm ((builtLeaves s.freq).map fun x => (x.2.rs, x.2.w)) := by
  obtain ⟨hroot, hreads⟩ := h.reads hn he
  obtain ⟨n, tree, htree, hleaves⟩ := exists_rootTree hroot
  exact ⟨n, tree, htree, htree.treeAt hreads, hleaves⟩

/-- Under the invariant the codes of the tree are codes of the counts (R71, R168). -/
theorem TreeOk.tableCodes (h : TreeOk s) (hn : s.ts ≠ .none) (hcs : currentCodes s = .ok cs) : TableCodes s.freq cs := by
  obtain ⟨he, rfl⟩ | ⟨he, tree, htree, rfl⟩ := currentCodes_cases hcs hn
  · obtain ⟨hts, -⟩ := h hn
    exact .empty (builtTs_eq_empty.1 (hts.symm.trans he))
  · obtain ⟨n, tree', -, htree', hleaves⟩ := h.builtTree hn he
    cases htree.symm.trans htree'
    exact .tree hleaves

/-- Under the invariant equal leaves have equal codes (R168). -/
theorem TreeOk.currentCodes_eq (h : TreeOk s) (h' : TreeOk s') (hn : s.ts ≠ .none) (hn' : s'.ts ≠ .none)
    (hleaves : builtLeaves s.freq = builtLeaves s'.freq) : currentCodes s = currentCodes s' := by
  obtain ⟨hcount, hitems, hroots⟩ := built_of_leaves hleaves
  obtain ⟨hts, -⟩ := h hn
  obtain ⟨hts', -⟩ := h' hn'
  have hteq : s.ts = s'.ts := by rw [hts, hts', hcount]
  refine currentCodes_congr hteq fun he => ?_
  obtain ⟨hroot, -⟩ := h.reads hn he
  obtain ⟨hroot', hreads'⟩ := h'.reads hn' (hteq ▸ he)
  obtain ⟨n, tree, hbuilt, htree, -⟩ := h.builtTree hn he
  have hsame : s.root = s'.root := Option.some.inj (hroot.symm.trans (hroots.trans hroot'))
  rw [htree, ← hsame]
  exact (hbuilt.treeAt (hitems ▸ hreads')).symm

/-! ### The entries of the code table -/

theorem readCode_of_lookup {e : CodeEntry} (h : memLookup s.code (symKey sym) = some e) : readCode s sym = e := by
  simp [readCode, h]

theorem readCode_of_mem (h : TableCodes f cs) (hcode : s.code = codeTable cs) (hp : (sym, p) ∈ cs) :
    readCode s sym = presentEntry p :=
  readCode_of_lookup (hcode ▸ codeTable_present h.symbols_nodup hp)

theorem readCode_of_notMem (hcode : s.code = codeTable cs) (hnot : ∀ p, (sym, p) ∉ cs) : readCode s sym = absentEntry := by
  refine readCode_of_lookup (hcode ▸ codeTable_absent ?_)
  rintro ⟨sym', p⟩ hp rfl
  exact hnot p hp

/-- The present entries are those of the codes (R161). -/
theorem exists_code_of_present (h : TableCodes f cs) (hcode : s.code = codeTable cs) (hv : (readCode s sym).v = true) :
    ∃ p, (sym, p) ∈ cs ∧ readCode s sym = presentEntry p := by
  by_cases hp : ∃ p, (sym, p) ∈ cs
  · obtain ⟨p, hp⟩ := hp
    exact ⟨p, hp, readCode_of_mem h hcode hp⟩
  · rw [readCode_of_notMem hcode (not_exists.1 hp)] at hv
    exact absurd hv (by decide)

theorem present_iff_exists_code (h : TableCodes f cs) (hcode : s.code = codeTable cs) :
    (readCode s sym).v = true ↔ ∃ p, (sym, p) ∈ cs := by
  constructor
  · intro hv
    obtain ⟨p, hp, -⟩ := exists_code_of_present h hcode hv
    exact ⟨p, hp⟩
  · rintro ⟨p, hp⟩
    rw [readCode_of_mem h hcode hp]
    rfl

/-- The table of a list of codes lists every entry, so it reads the same in every state (R161, log 8). -/
theorem readCode_eq_of_codeTable (h : TableCodes f cs) (hcode : s.code = codeTable cs) (hcode' : s'.code = codeTable cs) :
    readCode s sym = readCode s' sym := by
  by_cases hp : ∃ p, (sym, p) ∈ cs
  · obtain ⟨p, hp⟩ := hp
    rw [readCode_of_mem h hcode hp, readCode_of_mem h hcode' hp]
  · rw [not_exists] at hp
    rw [readCode_of_notMem hcode hp, readCode_of_notMem hcode' hp]

theorem presentEntry_len (hp : p.length ≤ 255) : (presentEntry p).len.toNat = p.length := by
  simp only [presentEntry, BitVec.toNat_ofNat]
  omega

/-- The code string of a code's entry is the code (R25, R161). -/
theorem entryString_presentEntry (hp : p.length ≤ 255) : entryString (presentEntry p) = p := by
  rw [entryString, presentEntry_len hp]
  refine List.ext_getElem (by simp) fun i _ hi => ?_
  rw [List.getElem_map, List.getElem_range, presentEntry, getLsbD_packBits hp, List.getD_eq_getElem _ _ hi]

/-- A valid code table is the table of the codes of the counts (R31, R71). -/
theorem EngineOk.codes (h : EngineOk s) (hcs : s.cs = true) :
    ∃ cs, currentCodes s = .ok cs ∧ s.code = codeTable cs ∧ TableCodes s.freq cs := by
  obtain ⟨-, ⟨hn, -⟩, htree, hcode, -⟩ := h
  obtain ⟨cs, hcur, htable⟩ := hcode hcs
  exact ⟨cs, hcur, htable, htree.tableCodes (hn hcs) hcur⟩

/-- An empty tree has a table without entries (R165). -/
theorem EngineOk.absent_of_empty (h : EngineOk s) (hcs : s.cs = true) (he : s.ts = .empty) (sym : Sym8) :
    readCode s sym = absentEntry := by
  obtain ⟨cs, hcur, htable, -⟩ := h.codes hcs
  obtain ⟨-, rfl⟩ | ⟨hne, -⟩ := currentCodes_cases hcur (by simp [he])
  · exact readCode_of_notMem htable (by simp)
  · exact absurd he hne

/-! ### LKUP (R163) -/

theorem execLkup_of_not_cs (hcs : s.cs = false) (sym : Sym8) : execLkup sym s = .next (respond { rc := .badSequence } s) := by
  simp [execLkup, hcs, raise, answer]

theorem execLkup_of_absent (hcs : s.cs = true) (hv : (readCode s sym).v = false) :
    execLkup sym s = .next (respond { rc := .unknownSymbol } s) := by
  rw [execLkup_of_cs hcs, lookupResponse, hv]
  rfl

theorem execLkup_of_present (hcs : s.cs = true) (hv : (readCode s sym).v = true) :
    execLkup sym s = .next (respond { len := (readCode s sym).len, code := (readCode s sym).bits } s) := by
  rw [execLkup_of_cs hcs, lookupResponse, if_pos hv]
  rfl

end Sys2Proof.Machine

namespace Sys2Proof.Proofs
open Sys2Proof.Machine

/-- Settles O29: the codes of the tree can be read, they are codes of the counts, and GEN writes their table and `CS` alone. -/
theorem generateWritesTheDerivedCodes : Obligations.GenerateWritesTheDerivedCodes := by
  refine ⟨by decide, fun s hn => execGen_of_none hn, fun s hs hn => ?_⟩
  obtain ⟨-, -, htree, -⟩ := hs
  obtain ⟨cs, hcs⟩ := htree.currentCodes_ok hn
  have hcodes := htree.tableCodes hn hcs
  have hcases := currentCodes_cases hcs hn
  refine ⟨cs, _, execGen_of_codes hn hcs, ⟨rfl, rfl, rfl⟩, rfl, fun he => ?_, fun he => ?_, fun sym c hc => ?_, fun sym hnot => ?_,
    fun _ => rfl, fun _ => rfl, fun _ => rfl, ⟨rfl, rfl, rfl⟩, rfl, rfl, rfl, rfl⟩
  · exact (hcases.resolve_right fun ⟨hne, _⟩ => hne he).2
  · exact (hcases.resolve_left fun ⟨he', _⟩ => he he').2
  · have hlen := hcodes.length_le hc
    exact ⟨hlen, readCode_of_mem hcodes rfl hc, getLsbD_packBits hlen⟩
  · exact readCode_of_notMem rfl hnot

/-- Settles O32: the entries hold codes of the counts, and of these none begins the code of another symbol. -/
theorem codesArePrefixFree : Obligations.CodesArePrefixFree := by
  intro s hs hcs a b hab hva hvb hprefix
  obtain ⟨cs, -, htable, hcodes⟩ := hs.codes hcs
  obtain ⟨p, hp, hpa⟩ := exists_code_of_present hcodes htable hva
  obtain ⟨q, hq, hqb⟩ := exists_code_of_present hcodes htable hvb
  rw [hpa, hqb, entryString_presentEntry (hcodes.length_le hp), entryString_presentEntry (hcodes.length_le hq)] at hprefix
  exact hab (hcodes.symbol_eq_of_prefix hp hq hprefix)

/-- Settles O33: the entries are those of the codes of the counts, and equal counts have equal leaves and so equal codes. -/
theorem codeTableMatchesTheCounts : Obligations.CodeTableMatchesTheCounts := by
  refine ⟨fun s hs hcs sym => ?_, fun s s' hs hs' hcs hcs' hcounts sym => ?_⟩
  · obtain ⟨cs, -, htable, hcodes⟩ := hs.codes hcs
    exact (present_iff_exists_code hcodes htable).trans hcodes.exists_code_iff
  · obtain ⟨cs, hcur, htable, hcodes⟩ := hs.codes hcs
    obtain ⟨cs', hcur', htable', -⟩ := hs'.codes hcs'
    obtain ⟨-, ⟨hn, -⟩, htree, -⟩ := hs
    obtain ⟨-, ⟨hn', -⟩, htree', -⟩ := hs'
    have heq := htree.currentCodes_eq htree' (hn hcs) (hn' hcs') (builtLeaves_of_reads hcounts)
    cases hcur.symm.trans (heq.trans hcur')
    exact readCode_eq_of_codeTable hcodes htable htable'

/-- Settles O34: `NLEAF` is the number of leaves, and a code has fewer bits than there are leaves. -/
theorem codeLengthsAreBounded : Obligations.CodeLengthsAreBounded := by
  intro s hs hcs
  obtain ⟨cs, -, htable, hcodes⟩ := hs.codes hcs
  refine ⟨fun hm sym hv => ?_, fun hone => ?_, fun he sym => ?_⟩
  · obtain ⟨-, -, htree, -⟩ := hs
    obtain ⟨htwo, hnleaf, -⟩ := htree.multi hm
    obtain ⟨p, hp, hread⟩ := exists_code_of_present hcodes htable hv
    rw [hread, presentEntry_len (hcodes.length_le hp), hnleaf]
    exact ⟨hcodes.length_pos hp htwo, hcodes.length_lt hp⟩
  · obtain ⟨-, ⟨-, -, -, -, -, -, -, -, hsingle, -⟩, htree, -⟩ := hs
    obtain ⟨-, hnleaf, -⟩ := htree (by simp [hone])
    have hcount : leafCount s.freq = 1 := by rw [← hnleaf, hsingle hone]; rfl
    have hlength : cs.length = 1 := by simpa [hcount] using hcodes.symbols.length_eq
    obtain ⟨⟨sym, p⟩, rfl⟩ := List.length_eq_one_iff.1 hlength
    have hlt := hcodes.length_lt (List.mem_singleton_self _)
    obtain rfl : p = [] := List.eq_nil_of_length_eq_zero (by omega)
    refine ⟨sym, readCode_of_mem hcodes htable (List.mem_singleton_self _), fun x hx => ?_⟩
    rw [readCode_of_notMem htable (by simp [hx])]
    rfl
  · rw [hs.absent_of_empty hcs he]
    rfl

/-- Settles O31: the entry decides the one response, which is all LKUP writes; under the invariant a present entry is that of a code. -/
theorem lookupAnswersTheCodeOrTheError : Obligations.LookupAnswersTheCodeOrTheError := by
  refine ⟨fun sym => decode_encode (.lkup sym), fun s sym => ⟨fun hcs => ?_, fun hcs hv => ?_, fun hcs hv => ?_, fun hs hcs hv k hk => ?_,
    fun hs hcs he => ?_⟩⟩
  · exact execLkup_of_not_cs hcs sym
  · exact execLkup_of_absent hcs hv
  · exact ⟨_, execLkup_of_present hcs hv, ⟨rfl, rfl, rfl⟩, sameMemories_respond _ s, ⟨rfl, rfl, rfl⟩, sameStatus_respond _ s⟩
  · obtain ⟨cs, -, htable, hcodes⟩ := hs.codes hcs
    obtain ⟨p, hp, hread⟩ := exists_code_of_present hcodes htable hv
    have hlen := hcodes.length_le hp
    rw [hread, presentEntry_len hlen] at hk
    rw [hread, presentEntry, getLsbD_packBits hlen, List.getD_eq_default _ _ hk]
  · exact execLkup_of_absent hcs (by rw [hs.absent_of_empty hcs he]; rfl)

end Sys2Proof.Proofs
end

section
/-! The traversal with an explicit stack (R162): it pops the nodes of the tree on top of the stack, one fewer than twice its leaves, and goes on
with the rest of the stack. -/

namespace Sys2Proof.Machine

variable {f : Memory Count} {s : State} {i : Idx} {n : Node} {p : List Bool} {fuel : Nat} {stack : List (Idx × List Bool)}

@[simp] theorem stackCodes_nil (s : State) (fuel : Nat) : stackCodes s fuel [] = some [] := by cases fuel <;> rfl

/-- A leaf that is popped has the path as its code. -/
theorem stackCodes_leaf (hn : readNode s i = some n) (hleaf : isLeaf n = true) :
    stackCodes s (fuel + 1) ((i, p) :: stack) = (stackCodes s fuel stack).map fun cs => (n.rs, p) :: cs := by
  simp [stackCodes, hn, hleaf]

/-- A node with children that is popped leaves its children on the stack, the left one on top. -/
theorem stackCodes_internal (hn : readNode s i = some n) (hleaf : isLeaf n = false) :
    stackCodes s (fuel + 1) ((i, p) :: stack) = stackCodes s fuel ((n.l, p ++ [false]) :: (n.r, p ++ [true]) :: stack) := by
  simp [stackCodes, hn, hleaf]

/-- A tree of the build on top of the stack is popped node by node, one pop fewer than twice its leaves, and yields its codes. -/
theorem BuiltTree.stackCodes {x : Item} {tree : CodeTree} {rest : Nat} (h : BuiltTree f x tree)
    (hreads : ∀ x ∈ builtItems f, readNode s x.1 = some x.2) (hfuel : fuel + 1 = rest + 2 * (treeLeaves tree).length) :
    stackCodes s fuel ((x.1, p) :: stack) = (stackCodes s rest stack).map fun cs => codes tree p ++ cs := by
  have hread := hreads x h.mem_builtItems
  induction h generalizing fuel rest p stack with
  | leaf hx =>
    obtain rfl : fuel = rest + 1 := by simpa [treeLeaves] using hfuel
    exact stackCodes_leaf hread (isLeaf_of_mem_builtLeaves hx)
  | @merge k a b q left right hk hq ha hb iha ihb =>
    have hl := treeLeaves_length_pos left
    have hr := treeLeaves_length_pos right
    rw [treeLeaves, List.length_append] at hfuel
    obtain ⟨fuel, rfl⟩ := Nat.exists_eq_succ_of_ne_zero (n := fuel) (by omega)
    calc stackCodes s (fuel + 1) ((mergeIdx k, p) :: stack)
      _ = stackCodes s fuel ((a.1, p ++ [false]) :: (b.1, p ++ [true]) :: stack) := stackCodes_internal hread rfl
      _ = (stackCodes s (rest + 2 * (treeLeaves right).length - 1) ((b.1, p ++ [true]) :: stack)).map
          fun cs => codes left (p ++ [false]) ++ cs := iha (by omega) (hreads a ha.mem_builtItems)
      _ = (stackCodes s rest stack).map fun cs => codes (.internal (mergeNode a b).w left right) p ++ cs := by
        rw [ihb (rest := rest) (by omega) (hreads b hb.mem_builtItems), Option.map_map]
        simp [Function.comp_def, codes]

end Sys2Proof.Machine

namespace Sys2Proof.Proofs
open Sys2Proof.Machine

/-- Settles O30: the tree at `ROOT` is one of the build, with 256 leaves at most, and it is all there is on the stack. -/
theorem stackTraversalGivesTheSameCodes : Obligations.StackTraversalGivesTheSameCodes := by
  rintro s ⟨-, -, htree, -⟩ hts
  have hn : s.ts ≠ .none := by rcases hts with hts | hts <;> simp [hts]
  have he : s.ts ≠ .empty := by rcases hts with hts | hts <;> simp [hts]
  obtain ⟨n, tree, hbuilt, hat, hleaves⟩ := htree.builtTree hn he
  obtain ⟨-, hreads⟩ := htree.reads hn he
  have hcount : (treeLeaves tree).length ≤ 256 := by simpa [hleaves.length_eq] using leafCount_le s.freq
  refine ⟨tree, hat, ?_⟩
  rw [hbuilt.stackCodes (rest := 512 - 2 * (treeLeaves tree).length) hreads (by omega)]
  simp [deriveCodes]

end Sys2Proof.Proofs
end

section
/-! The header text (R181 to R184, C4): what is read back of a written number, of the tokens of a text and of the pairs of a table. -/

namespace Sys2Proof.Machine

/-! ### Decimal numbers -/

theorem toNat_digitChar {d : Nat} (hd : d < 10) : (digitChar d).toNat = 48 + d := by
  interval_cases d <;> rfl

theorem digitValue_digitChar {d : Nat} (hd : d < 10) : digitValue (digitChar d) = some d := by
  rw [digitValue, toNat_digitChar hd, if_pos (by omega), Nat.add_sub_cancel_left]

/-- Writing a number puts decimal digits, one at least where there is fuel, before what stands there. -/
theorem decimalAux_eq_append (fuel n : Nat) (acc : List Char) :
    ∃ ds, decimalAux fuel n acc = ds ++ acc ∧ (∀ c ∈ ds, 48 ≤ c.toNat ∧ c.toNat ≤ 57) ∧ (fuel ≠ 0 → ds ≠ []) := by
  induction fuel generalizing n acc with
  | zero => exact ⟨[], rfl, by simp, by simp⟩
  | succ fuel ih =>
    rw [decimalAux]
    split
    · exact ⟨[digitChar n], rfl, by simp [toNat_digitChar ‹_›]; omega, by simp⟩
    · obtain ⟨ds, hds, hdigits, -⟩ := ih (n / 10) (digitChar (n % 10) :: acc)
      have hlast := toNat_digitChar (d := n % 10) (by omega)
      refine ⟨ds ++ [digitChar (n % 10)], by simp [hds], fun c hc => ?_, by simp⟩
      rcases List.mem_append.1 hc with hc | hc
      · exact hdigits c hc
      · rw [List.mem_singleton.1 hc]; omega

/-- A written number is one or more decimal digits (R182). -/
theorem decimal_digits (n : Nat) : decimal n ≠ [] ∧ ∀ c ∈ decimal n, 48 ≤ c.toNat ∧ c.toNat ≤ 57 := by
  obtain ⟨ds, hds, hdigits, hne⟩ := decimalAux_eq_append (n + 1) n []
  rw [decimal, hds, List.append_nil]
  exact ⟨hne (by omega), hdigits⟩

/-- The digits written for `n` are read as `n`, and reading goes on with what follows them. -/
theorem parseDigits_decimalAux {fuel n : Nat} (hn : n < fuel) (acc : List Char) :
    parseDigits 0 (decimalAux fuel n acc) = parseDigits n acc := by
  induction fuel generalizing n acc with
  | zero => omega
  | succ fuel ih =>
    rw [decimalAux]
    split
    · simp [parseDigits, digitValue_digitChar ‹_›]
    · rw [ih (by omega), parseDigits, digitValue_digitChar (by omega)]
      simp only [Nat.div_add_mod]

/-- A written number is read as that number (R183). -/
theorem parseNumber_decimal (n : Nat) : parseNumber (decimal n) = some n := by
  obtain ⟨hne, -⟩ := decimal_digits n
  rw [parseNumber, if_neg (by simpa using hne), decimal, parseDigits_decimalAux (by omega), parseDigits]

theorem parseNumbers_decimals (ns : List Nat) : parseNumbers (ns.map decimal) = some ns := by
  induction ns with
  | nil => rfl
  | cons n ns ih => simp [parseNumbers, parseNumber_decimal, ih]

/-! ### Tokens -/

/-- A text without a space is one piece. -/
theorem splitSpaces_of_notMem {t : List Char} (ht : ' ' ∉ t) : splitSpaces t = [t] := by
  induction t with
  | nil => rfl
  | cons c t ih =>
    rw [List.mem_cons, not_or] at ht
    obtain ⟨hc, ht⟩ := ht
    simp [splitSpaces, Ne.symm hc, ih ht]

/-- The text before the first space is a piece, and the rest is cut up after it. -/
theorem splitSpaces_append {t : List Char} (ht : ' ' ∉ t) (rest : List Char) :
    splitSpaces (t ++ ' ' :: rest) = t :: splitSpaces rest := by
  induction t with
  | nil => simp [splitSpaces]
  | cons c t ih =>
    rw [List.mem_cons, not_or] at ht
    obtain ⟨hc, ht⟩ := ht
    simp [splitSpaces, Ne.symm hc, ih ht]

/-- Tokens separated by single spaces are the tokens of the text (R182, R183). -/
theorem headerTokens_intercalate {ts : List (List Char)} (hts : ∀ t ∈ ts, t ≠ [] ∧ ' ' ∉ t) :
    headerTokens (List.intercalate [' '] ts) = ts := by
  have hkeep : ts.filter (fun t => !t.isEmpty) = ts := List.filter_eq_self.2 fun t ht => by simp [(hts t ht).1]
  cases ts with
  | nil => rfl
  | cons t ts =>
    suffices hsplit : splitSpaces (List.intercalate [' '] (t :: ts)) = t :: ts by rw [headerTokens, hsplit, hkeep]
    clear hkeep
    induction ts generalizing t with
    | nil => rw [List.intercalate_singleton]; exact splitSpaces_of_notMem (hts t (by simp)).2
    | cons u ts ih =>
      rw [List.forall_mem_cons] at hts
      obtain ⟨⟨-, ht⟩, hts⟩ := hts
      rw [List.intercalate_cons_cons, List.append_assoc]
      exact (splitSpaces_append ht _).trans (congrArg _ (ih u hts))

/-! ### Pairs -/

/-- The numbers of a header, in the order of its text (R182). -/
def headerNumbers (h : List (Sym8 × Nat)) : List Nat := h.flatMap fun p => [p.1.toNat, p.2]

theorem headerText_eq (h : List (Sym8 × Nat)) : headerText h = List.intercalate [' '] ((headerNumbers h).map decimal) := by
  simp [headerText, headerNumbers, List.map_flatMap]

theorem headerTokens_headerText (h : List (Sym8 × Nat)) : headerTokens (headerText h) = (headerNumbers h).map decimal := by
  rw [headerText_eq]
  refine headerTokens_intercalate fun t ht => ?_
  obtain ⟨n, -, rfl⟩ := List.mem_map.1 ht
  obtain ⟨hne, hdigits⟩ := decimal_digits n
  exact ⟨hne, fun hspace => absurd (hdigits ' ' hspace) (by decide)⟩

theorem pairUp_headerNumbers (h : List (Sym8 × Nat)) : pairUp (headerNumbers h) = .ok h := by
  induction h with
  | nil => rfl
  | cons p h ih =>
    show pairUp (p.1.toNat :: p.2 :: headerNumbers h) = _
    rw [pairUp, if_pos p.1.isLt, ih]
    simp

/-- The text of any list of pairs is parsed as these pairs (R182, R183). -/
theorem parseHeader_headerText (h : List (Sym8 × Nat)) : parseHeader (headerText h) = .ok h := by
  rw [parseHeader, headerTokens_headerText, parseNumbers_decimals]
  exact pairUp_headerNumbers h

theorem mem_headerOf {f : Sym8 → Nat} {p : Sym8 × Nat} : p ∈ headerOf f ↔ p.2 = f p.1 ∧ p.2 ≠ 0 := by
  simp only [headerOf, List.mem_filterMap, List.mem_range]
  constructor
  · rintro ⟨k, -, hk⟩
    split at hk
    · cases hk
    · cases hk; exact ⟨rfl, ‹_›⟩
  · rintro ⟨hcount, hne⟩
    refine ⟨p.1.toNat, p.1.isLt, ?_⟩
    rw [BitVec.ofNat_toNat, BitVec.setWidth_eq, if_neg (hcount ▸ hne), ← hcount]

/-- Pairs with the counts of the table `f` leave the count of `f` at a symbol they mention, or that had it before. -/
theorem overwrite_of_counts {f g : Sym8 → Nat} {h : List (Sym8 × Nat)} {sym : Sym8} (hf : ∀ p ∈ h, p.2 = f p.1)
    (hsym : sym ∈ h.map Prod.fst ∨ g sym = f sym) : overwrite g h sym = f sym := by
  induction h generalizing g with
  | nil => simpa [overwrite] using hsym
  | cons p h ih =>
    rw [List.forall_mem_cons] at hf
    obtain ⟨hp, hf⟩ := hf
    rw [overwrite_cons]
    refine ih hf ?_
    by_cases he : sym = p.1
    · exact .inr (by simp [he, hp])
    · simpa [he] using hsym

/-- The pairs of a table stand for the table (R181, R183). -/
theorem tableOf_headerOf (f : Sym8 → Nat) (sym : Sym8) : tableOf (headerOf f) sym = f sym := by
  refine overwrite_of_counts (fun p hp => (mem_headerOf.1 hp).1) ?_
  by_cases hzero : f sym = 0
  · exact .inr hzero.symm
  · exact .inl (List.mem_map.2 ⟨(sym, f sym), mem_headerOf.2 ⟨rfl, hzero⟩, rfl⟩)

/-! ### The header line -/

theorem mem_intercalate {α : Type} {c : α} {sep : List α} {ts : List (List α)} (hc : c ∈ List.intercalate sep ts) :
    c ∈ sep ∨ ∃ t ∈ ts, c ∈ t := by
  induction ts with
  | nil => simp at hc
  | cons t ts ih =>
    cases ts with
    | nil => exact .inr ⟨t, by simp, by simpa using hc⟩
    | cons u ts =>
      rw [List.intercalate_cons_cons, List.append_assoc, List.mem_append, List.mem_append] at hc
      rcases hc with hc | hc | hc
      · exact .inr ⟨t, by simp, hc⟩
      · exact .inl hc
      · exact (ih hc).imp_right fun ⟨v, hv, hmem⟩ => ⟨v, List.mem_cons_of_mem _ hv, hmem⟩

/-- The characters of a header text are bytes and no newline: spaces and decimal digits (R182). -/
theorem headerText_bytes {h : List (Sym8 × Nat)} {c : Char} (hc : c ∈ headerText h) : c.toNat < 256 ∧ c.toNat ≠ 10 := by
  rw [headerText_eq] at hc
  rcases mem_intercalate hc with hc | ⟨t, ht, hc⟩
  · rw [List.mem_singleton.1 hc]
    decide
  · obtain ⟨n, -, rfl⟩ := List.mem_map.1 ht
    obtain ⟨-, hdigits⟩ := decimal_digits n
    have := hdigits c hc
    omega

theorem bytesText_textBytes {text : List Char} (ht : ∀ c ∈ text, c.toNat < 256) : bytesText (textBytes text) = text := by
  rw [bytesText, textBytes, List.map_map]
  refine List.map_congr_left (g := id) (fun c hc => ?_) |>.trans (List.map_id _)
  simp only [Function.comp, BitVec.toNat_ofNat, Nat.mod_eq_of_lt (ht c hc), Char.ofNat_toNat, id]

theorem newlineByte_notMem_textBytes {text : List Char} (ht : ∀ c ∈ text, c.toNat < 256 ∧ c.toNat ≠ 10) :
    newlineByte ∉ textBytes text := by
  intro hmem
  obtain ⟨c, hc, hbyte⟩ := List.mem_map.1 hmem
  obtain ⟨hlt, hne⟩ := ht c hc
  have hnat := congrArg BitVec.toNat hbyte
  rw [BitVec.toNat_ofNat, Nat.mod_eq_of_lt hlt] at hnat
  exact hne hnat

/-- A header line is cut off again at its newline, and its bytes are the text (C4). -/
theorem splitLine_headerLine (h : List (Sym8 × Nat)) (rest : List Sym8) :
    splitLine (headerLine (headerText h) ++ rest) = (textBytes (headerText h), rest) ∧
      bytesText (textBytes (headerText h)) = headerText h := by
  refine ⟨?_, bytesText_textBytes fun c hc => (headerText_bytes hc).1⟩
  rw [headerLine, List.append_assoc]
  exact splitLine_append rest (newlineByte_notMem_textBytes fun c hc => headerText_bytes hc)

end Sys2Proof.Machine

namespace Sys2Proof.Proofs
open Sys2Proof.Machine

/-- Settles O56: the text of any pairs is parsed as these pairs, the pairs of a table stand for it, and no character of the text is a
newline. -/
theorem headerTextParsesBack : Obligations.HeaderTextParsesBack := fun f =>
  ⟨parseHeader_headerText _, tableOf_headerOf f, splitLine_headerLine _⟩

end Sys2Proof.Proofs
end

section
/-! Which header texts are malformed (R184), and which result codes the responses of the engine carry (R241, R252). -/

namespace Sys2Proof.Machine

/-! ### Malformed headers -/

theorem parseNumbers_eq_none {ts : List (List Char)} : parseNumbers ts = none ↔ ∃ t ∈ ts, parseNumber t = none := by
  induction ts with
  | nil => simp [parseNumbers]
  | cons t ts ih =>
    rw [List.exists_mem_cons_iff, ← ih, parseNumbers]
    cases parseNumber t <;> cases parseNumbers ts <;> simp

theorem parseNumbers_cons_eq_some {t : List Char} {ts : List (List Char)} {ns : List Nat} :
    parseNumbers (t :: ts) = some ns ↔ ∃ n ms, parseNumber t = some n ∧ parseNumbers ts = some ms ∧ n :: ms = ns := by
  rw [parseNumbers]
  cases parseNumber t <;> cases parseNumbers ts <;> simp

theorem parseNumbers_eq_some {ts : List (List Char)} {ns : List Nat} (h : parseNumbers ts = some ns) :
    ts.map parseNumber = ns.map some := by
  induction ts generalizing ns with
  | nil => cases h; rfl
  | cons t ts ih =>
    obtain ⟨n, ms, hn, hms, rfl⟩ := parseNumbers_cons_eq_some.1 h
    rw [List.map_cons, List.map_cons, hn, ih hms]

/-- A number in a symbol's place is no symbol (R183, R184). -/
def SymbolTooLarge (ns : List Nat) : Prop := ∃ k n, ns[2 * k]? = some n ∧ 256 ≤ n

theorem symbolTooLarge_cons_cons {sym cnt : Nat} {ns : List Nat} :
    SymbolTooLarge (sym :: cnt :: ns) ↔ 256 ≤ sym ∨ SymbolTooLarge ns := by
  constructor
  · rintro ⟨_ | k, n, hn, hle⟩
    · cases hn; exact .inl hle
    · exact .inr ⟨k, n, hn, hle⟩
  · rintro (hle | ⟨k, n, hn, hle⟩)
    · exact ⟨0, sym, rfl, hle⟩
    · exact ⟨k + 1, n, hn, hle⟩

theorem pairUp_of_symbol {sym cnt : Nat} {ns : List Nat} {e : HostError} (hsym : sym < 256) :
    pairUp (sym :: cnt :: ns) = .error e ↔ pairUp ns = .error e := by
  rw [pairUp, if_pos hsym]
  cases pairUp ns <;> simp

theorem pairUp_of_tooLarge {sym cnt : Nat} {ns : List Nat} (hsym : 256 ≤ sym) :
    pairUp (sym :: cnt :: ns) = .error .malformedHeader := by
  rw [pairUp, if_neg (Nat.not_lt.2 hsym)]

/-- Numbers make no pairs exactly when they are odd in number or one of the symbols is too large (R184). -/
theorem pairUp_eq_error {ns : List Nat} {e : HostError} :
    pairUp ns = .error e ↔ e = .malformedHeader ∧ (ns.length % 2 = 1 ∨ SymbolTooLarge ns) := by
  induction ns using List.twoStepInduction with
  | nil => simp [pairUp, SymbolTooLarge]
  | singleton n => simp [pairUp, eq_comm]
  | cons_cons sym cnt rest ih _ =>
    have hlen : (sym :: cnt :: rest).length % 2 = rest.length % 2 := by simp only [List.length_cons]; omega
    rw [symbolTooLarge_cons_cons, hlen]
    rcases Nat.lt_or_ge sym 256 with hsym | hsym
    · rw [pairUp_of_symbol hsym, ih]
      simp [Nat.not_le.2 hsym]
    · simp [pairUp_of_tooLarge hsym, hsym, eq_comm]

/-- A header text has no pairs exactly when a token is no number, or the numbers make no pairs (R184). -/
theorem parseHeader_eq_error {text : List Char} {e : HostError} :
    parseHeader text = .error e ↔ e = .malformedHeader ∧
      ((headerTokens text).length % 2 = 1 ∨ (∃ tok ∈ headerTokens text, parseNumber tok = none) ∨
        ∃ k tok n, (headerTokens text)[2 * k]? = some tok ∧ parseNumber tok = some n ∧ 256 ≤ n) := by
  rw [parseHeader, ← parseNumbers_eq_none]
  cases hns : parseNumbers (headerTokens text) with
  | none => simp [eq_comm]
  | some ns =>
    have hmap := parseNumbers_eq_some hns
    have hlen : (headerTokens text).length = ns.length := by simpa using congrArg List.length hmap
    have hlarge : SymbolTooLarge ns ↔
        ∃ k tok n, (headerTokens text)[2 * k]? = some tok ∧ parseNumber tok = some n ∧ 256 ≤ n := by
      refine exists_congr fun k => ?_
      have hget : (headerTokens text)[2 * k]?.map parseNumber = ns[2 * k]?.map some := by
        rw [← List.getElem?_map, hmap, List.getElem?_map]
      cases htok : (headerTokens text)[2 * k]? <;> cases hn : ns[2 * k]? <;> simp [htok, hn] at hget ⊢
      simp [hget]
    simp only [pairUp_eq_error, hlen, hlarge, reduceCtorEq, false_or]

/-! ### The result codes of the commands -/

/-- The result code of a command that goes on (R241, R247): `BadSequence` where the command is not legal, else `OK` or its own error. -/
theorem exec_result {i : Instr} {s t : State} (h : exec i s = .next t) : ∃ r, Answered s t r ∧
    (legalWhen i s = false ∧ r.rc = .badSequence ∨ legalWhen i s = true ∧ (r.rc = .ok ∨ some r.rc = ownError i)) := by
  cases i with
  | clr => rw [execClr_cases h]; exact ⟨_, ⟨rfl, rfl, rfl⟩, .inr ⟨rfl, .inl rfl⟩⟩
  | ldf sym cnt => rw [execLdf_cases h]; exact ⟨_, ⟨rfl, rfl, rfl⟩, .inr ⟨rfl, .inl rfl⟩⟩
  | rdf sym => rw [execRdf_cases h]; exact ⟨_, ⟨rfl, rfl, rfl⟩, .inr ⟨rfl, .inl rfl⟩⟩
  | rds => rw [execRds_cases h]; exact ⟨_, ⟨rfl, rfl, rfl⟩, .inr ⟨rfl, .inl rfl⟩⟩
  | build => exact ⟨_, (execBuild_status h).1, .inr ⟨rfl, .inl rfl⟩⟩
  | gen =>
    obtain ⟨hn, rfl⟩ | ⟨cs, hn, -, rfl⟩ := execGen_cases h
    · exact ⟨_, ⟨rfl, rfl, rfl⟩, .inl ⟨by simp [legalWhen, hn], rfl⟩⟩
    · exact ⟨_, ⟨rfl, rfl, rfl⟩, .inr ⟨by simp [legalWhen, hn], .inl rfl⟩⟩
  | lkup sym =>
    obtain ⟨hcs, rfl⟩ | ⟨hcs, -, rfl⟩ | ⟨hcs, -, rfl⟩ := execLkup_cases h
    · exact ⟨_, ⟨rfl, rfl, rfl⟩, .inl ⟨hcs, rfl⟩⟩
    · exact ⟨_, ⟨rfl, rfl, rfl⟩, .inr ⟨hcs, .inr rfl⟩⟩
    · exact ⟨_, ⟨rfl, rfl, rfl⟩, .inr ⟨hcs, .inl rfl⟩⟩
  | dstart =>
    obtain ⟨hn, rfl⟩ | ⟨he, rfl⟩ | ⟨n, hone, -, rfl⟩ | ⟨hm, rfl⟩ := execDstart_cases h
    · exact ⟨_, ⟨rfl, rfl, rfl⟩, .inl ⟨by simp [legalWhen, hn], rfl⟩⟩
    · exact ⟨_, ⟨rfl, rfl, rfl⟩, .inr ⟨by simp [legalWhen, he], .inr rfl⟩⟩
    · exact ⟨_, ⟨rfl, rfl, rfl⟩, .inr ⟨by simp [legalWhen, hone], .inl rfl⟩⟩
    · exact ⟨_, ⟨rfl, rfl, rfl⟩, .inr ⟨by simp [legalWhen, hm], .inl rfl⟩⟩
  | dbit tok =>
    obtain ⟨hd, rfl⟩ | ⟨hd, -, rfl⟩ | ⟨bit, hd, -, hw⟩ := execDbit_cases h
    · exact ⟨_, ⟨rfl, rfl, rfl⟩, .inl ⟨by simp [legalWhen, hd], rfl⟩⟩
    · exact ⟨_, ⟨rfl, rfl, rfl⟩, .inr ⟨by simp [legalWhen, hd], .inr rfl⟩⟩
    · obtain ⟨n, c, -, -, ⟨-, rfl⟩ | ⟨-, rfl⟩⟩ := walkBit_cases hw <;>
        exact ⟨_, ⟨rfl, rfl, rfl⟩, .inr ⟨by simp [legalWhen, hd], .inl rfl⟩⟩
  | dend =>
    obtain ⟨hd | hd, rfl⟩ | ⟨hd, rfl⟩ | ⟨hd, -, rfl⟩ | ⟨hd, -, rfl⟩ := execDend_cases h
    · exact ⟨_, ⟨rfl, rfl, rfl⟩, .inl ⟨by simp [legalWhen, hd], rfl⟩⟩
    · exact ⟨_, ⟨rfl, rfl, rfl⟩, .inl ⟨by simp [legalWhen, hd], rfl⟩⟩
    · exact ⟨_, ⟨rfl, rfl, rfl⟩, .inr ⟨by simp [legalWhen, hd], .inl rfl⟩⟩
    · exact ⟨_, ⟨rfl, rfl, rfl⟩, .inr ⟨by simp [legalWhen, hd], .inl rfl⟩⟩
    · exact ⟨_, ⟨rfl, rfl, rfl⟩, .inr ⟨by simp [legalWhen, hd], .inr rfl⟩⟩

/-- The result code of the response to a word (R252): `IllegalCommand` where it does not decode, else that of its command. -/
theorem step_command_result {s t : State} {w : CmdWord} {rest : List HostInput} {r : Resp} (hp : s.pending = .command w :: rest)
    (h : step s = .next t) (hr : t.resps = s.resps ++ [r]) :
    (∃ e, decode w = .error e ∧ r.rc = .illegalCommand) ∨
    ∃ i, decode w = .ok i ∧ (legalWhen i s = false ∧ r.rc = .badSequence ∨
      legalWhen i s = true ∧ (r.rc = .ok ∨ some r.rc = ownError i)) := by
  have hone : ∀ {r'}, t.resps = s.resps ++ [r'] → r' = r := fun hr' =>
    List.singleton_inj.1 (List.append_cancel_left (hr'.symm.trans hr))
  obtain ⟨i, hd, hexec⟩ | ⟨e, hd, rfl⟩ := step_command_cases hp h
  · obtain ⟨r', ⟨hresps, -⟩, hrc⟩ := exec_result hexec
    obtain rfl := hone hresps
    have hlegal : legalWhen i { s with pending := rest } = legalWhen i s := by cases i <;> rfl
    exact .inr ⟨i, hd, hlegal ▸ hrc⟩
  · obtain rfl := hone rfl
    exact .inl ⟨e, hd, rfl⟩

theorem ownError_ne_malformedHeader (i : Instr) : ownError i ≠ some .malformedHeader := by cases i <;> simp [ownError]

end Sys2Proof.Machine

namespace Sys2Proof.Proofs
open Sys2Proof.Machine

/-- Settles O57: the numbers of the tokens decide, the decoding job starts with the parse, and no command has `MalformedHeader` as its own
error. -/
theorem malformedHeaderExactly : Obligations.MalformedHeaderExactly := by
  refine fun text => ⟨parseHeader_eq_error.trans (and_iff_right rfl), fun e he => ?_, fun s t w rest r hp h hr hrc => ?_⟩
  · obtain ⟨rfl, -⟩ := parseHeader_eq_error.1 he
    exact ⟨rfl, fun toks s => by rw [decodeFile, he]⟩
  · obtain ⟨e, -, hill⟩ | ⟨i, -, ⟨-, hbad⟩ | ⟨-, hok | hown⟩⟩ := step_command_result hp h hr
    · cases hrc.symm.trans hill
    · cases hrc.symm.trans hbad
    · cases hrc.symm.trans hok
    · exact ownError_ne_malformedHeader i (hrc ▸ hown.symm)

end Sys2Proof.Proofs
end

section
/-! What a host gathers from a run (R9, R181): runs one after the other, the responses that emit nothing, and the counts read by RDF. -/

namespace Sys2Proof.Machine

variable {past : ResultCode → Bool} {s t : State} {i : Instr} {is js : List Instr} {r : Resp} {rs : List Resp} {rc : ResultCode}

/-- What a run does first (R95): it stops at the response of its first command, or keeps it and goes on. -/
theorem runExpansion_cons_cases (h : runExpansion past (i :: is) s = some (rs, rc, t)) : ∃ r u, issue i s = some (r, u) ∧
    (rs = [r] ∧ rc = r.rc ∧ r.rc ≠ .ok ∨
      ∃ rs', rs = r :: rs' ∧ (r.rc = .ok ∨ past r.rc = true) ∧ runExpansion past is u = some (rs', rc, t)) := by
  cases hi : issue i s with
  | none => rw [runExpansion_stopped hi] at h; cases h
  | some x =>
    obtain ⟨r, u⟩ := x
    refine ⟨r, u, rfl, ?_⟩
    by_cases hgo : r.rc = .ok ∨ past r.rc = true
    · rw [runExpansion_goesOn hi hgo, Option.map_eq_some_iff] at h
      obtain ⟨⟨rs', rc', t'⟩, hrun, he⟩ := h
      cases he
      exact .inr ⟨rs', rfl, hgo, hrun⟩
    · rw [not_or, Bool.not_eq_true] at hgo
      obtain ⟨hok, hpast⟩ := hgo
      rw [runExpansion_ends hi hok hpast] at h
      cases h
      exact .inl ⟨rfl, rfl, hok⟩

/-- Commands after a run that came to its end go on from its last state. -/
theorem runExpansion_append (h : runExpansion past is s = some (rs, .ok, t)) :
    runExpansion past (is ++ js) s = (runExpansion past js t).map fun x => (rs ++ x.1, x.2.1, x.2.2) := by
  induction is generalizing s rs with
  | nil => cases h; simp
  | cons i is ih =>
    obtain ⟨r, u, hi, ⟨-, hrc, hok⟩ | ⟨rs', rfl, hgo, hrun⟩⟩ := runExpansion_cons_cases h
    · exact absurd hrc.symm hok
    · rw [List.cons_append, runExpansion_goesOn hi hgo, ih hrun, Option.map_map]
      rfl

/-! ### The decoded output -/

@[simp] theorem decodedOutput_nil : decodedOutput [] = [] := rfl

@[simp] theorem decodedOutput_cons (r : Resp) (rs : List Resp) :
    decodedOutput (r :: rs) = (if r.emit then List.replicate r.n.toNat r.sym else []) ++ decodedOutput rs := rfl

theorem decodedOutput_append (rs rs' : List Resp) : decodedOutput (rs ++ rs') = decodedOutput rs ++ decodedOutput rs' :=
  List.flatMap_append

/-- A command that is issued answers with a response of its form (R70, R92). -/
theorem issue_form (h : issue i s = some (r, t)) : ResponseForm i r := by
  rw [issue, step_pushInput_encode] at h
  cases hexec : exec i s with
  | fault e => simp [hexec] at h
  | refused q => simp [hexec] at h
  | next u =>
    obtain ⟨r', hform, hresps, -⟩ := exec_answered hexec
    simp only [hexec, hresps, List.getLast?_concat, Option.map_some, Option.some.injEq, Prod.mk.injEq] at h
    obtain ⟨rfl, -⟩ := h
    exact hform

/-- Only DSTART and DBIT emit (R92). -/
theorem ResponseForm.emit_eq_false (h : ResponseForm i r) (hstart : i.op ≠ .dstart) (hbit : i.op ≠ .dbit) : r.emit = false := by
  cases h with
  | plain | rdf | rds | lkup => rfl
  | dstart => exact absurd rfl hstart
  | dbit => exact absurd rfl hbit

/-- A run without DSTART and DBIT has no output. -/
theorem decodedOutput_eq_nil (hi : ∀ i ∈ is, i.op ≠ .dstart ∧ i.op ≠ .dbit) (h : runExpansion past is s = some (rs, rc, t)) :
    decodedOutput rs = [] := by
  induction is generalizing s rs with
  | nil => cases h; rfl
  | cons i is ih =>
    rw [List.forall_mem_cons] at hi
    obtain ⟨⟨hstart, hbit⟩, hi⟩ := hi
    obtain ⟨r, u, hissue, ⟨rfl, -⟩ | ⟨rs', rfl, -, hrun⟩⟩ := runExpansion_cons_cases h
    · simp [(issue_form hissue).emit_eq_false hstart hbit]
    · simp [(issue_form hissue).emit_eq_false hstart hbit, ih hi hrun]

/-! ### Reading the counts -/

/-- RDF of each of a list of symbols answers with their counts (R113). -/
theorem runUntilError_rdf (s : State) (ks : List Nat) : ∃ t, runUntilError (ks.map fun k => .rdf (BitVec.ofNat 8 k)) s =
    some (ks.map fun k => { n := readFreq s (BitVec.ofNat 8 k) }, .ok, t) := by
  obtain ⟨t, hrun, -⟩ := runExpansion_map (P := fun t => t.freq = s.freq) (xs := ks) (past := fun _ => false)
    (command := fun k => .rdf (BitVec.ofNat 8 k)) (response := fun k => { n := readFreq s (BitVec.ofNat 8 k) })
    (fun k _ t ht => by rw [← readFreq_congr ht]; rfl) (fun _ _ ht => ht) (fun _ _ => .inl rfl) rfl
  exact ⟨t, hrun⟩

end Sys2Proof.Machine

namespace Sys2Proof.Proofs
open Sys2Proof.Machine

/-- Settles O59: response number `sym` of the 256 is that of RDF `sym`, and its `n` the count. -/
theorem engineHeaderIsTheHeaderOfTheTable : Obligations.EngineHeaderIsTheHeaderOfTheTable := by
  intro s
  obtain ⟨t, hrun⟩ := runUntilError_rdf s (List.range Config.nsym)
  rw [readHeader, hrun]
  refine congrArg (fun f => some (headerOf f)) (funext fun sym => ?_)
  rw [List.getElem?_map, List.getElem?_range sym.isLt, Option.map_some, BitVec.ofNat_toNat, BitVec.setWidth_eq]
  rfl

end Sys2Proof.Proofs
end

section
/-! The decoder and the walk of R218. A running decoder stands at a node of the tree at `ROOT`, and each token moves it as `walkTree` moves
through the tree; over the codes of the tree the walk gives back what was encoded. -/

namespace Sys2Proof.Machine

variable {f : Memory Count} {s : State} {root tree left right : CodeTree} {sym : Sym8} {w : Weight} {tok : BitVec 8} {bit : Bool}
  {toks : List (BitVec 8)}

/-! ### The walk (R218) -/

@[simp] theorem walkTree_nil (root tree : CodeTree) : walkTree root tree [] = ([], if tree = root then .ok else .truncatedStream) := by
  cases tree <;> rfl

theorem walkTree_bad (ht : tokenBit tok = none) : walkTree root (.internal w left right) (tok :: toks) = ([], .invalidBit) := by
  simp [walkTree, ht]

theorem walkTree_leaf {w' : Weight} (ht : tokenBit tok = some bit) (hchild : (if bit then right else left) = .leaf sym w') :
    walkTree root (.internal w left right) (tok :: toks) = (sym :: (walkTree root root toks).1, (walkTree root root toks).2) := by
  simp [walkTree, ht, hchild]

theorem walkTree_internal {w' : Weight} {l r : CodeTree} (ht : tokenBit tok = some bit)
    (hchild : (if bit then right else left) = .internal w' l r) :
    walkTree root (.internal w left right) (tok :: toks) = walkTree root (.internal w' l r) toks := by
  simp [walkTree, ht, hchild]

@[simp] theorem tokenBit_tokenOf (bit : Bool) : tokenBit (tokenOf bit) = some bit := by cases bit <;> rfl

/-- The tokens of a path to a leaf yield the leaf's symbol, and the walk goes on at the root (R185, R218). -/
theorem walkTree_path {p : List Bool} (h : follow (.internal w left right) p = some (.leaf sym w')) :
    walkTree root (.internal w left right) (p.map tokenOf ++ toks) =
      (sym :: (walkTree root root toks).1, (walkTree root root toks).2) := by
  induction p generalizing w left right with
  | nil => simp at h
  | cons bit p ih =>
    rw [follow_internal_cons] at h
    cases hchild : if bit then right else left with
    | leaf sym' w'' =>
      rw [hchild, follow_leaf] at h
      obtain ⟨rfl, rfl, -⟩ := h
      exact walkTree_leaf (tokenBit_tokenOf bit) hchild
    | internal w'' l r =>
      rw [hchild] at h
      exact (walkTree_internal (tokenBit_tokenOf bit) hchild).trans (ih h)

theorem mem_of_codeOf {cs : List (Sym8 × List Bool)} {p : List Bool} (h : codeOf cs sym = some p) : (sym, p) ∈ cs := by
  obtain ⟨⟨sym', p'⟩, hfind, rfl⟩ := Option.map_eq_some_iff.1 h
  have hsym := List.find?_some hfind
  obtain rfl : sym' = sym := by simpa using hsym
  exact List.mem_of_find?_eq_some hfind

/-- What is encoded is the code of each symbol, one after the other (R185). -/
theorem encodePayload_cons {code : Sym8 → Option (List Bool)} {b : List Sym8} {q : List Bool}
    (h : encodePayload code (sym :: b) = .ok q) : ∃ c p, code sym = some c ∧ encodePayload code b = .ok p ∧ q = c ++ p := by
  rw [encodePayload] at h
  cases hc : code sym with
  | none => simp [hc] at h
  | some c =>
    cases hp : encodePayload code b with
    | error e => simp [hc, hp] at h
    | ok p => exact ⟨c, p, rfl, rfl, by simpa [hc, hp, eq_comm] using h⟩

/-- The walk inverts the encoder (R218). -/
theorem decodeMulti_encodePayload {b : List Sym8} {p : List Bool} (hroot : root = .internal w left right)
    (h : encodePayload (codeOf (deriveCodes root)) b = .ok p) : decodeMulti root (p.map tokenOf) = (b, .ok) := by
  induction b generalizing p with
  | nil => cases h; simp [decodeMulti]
  | cons sym b ih =>
    obtain ⟨c, p, hc, hp, rfl⟩ := encodePayload_cons h
    obtain ⟨w', hfollow⟩ := mem_deriveCodes_iff.1 (mem_of_codeOf hc)
    rw [List.map_append, decodeMulti]
    subst hroot
    rw [walkTree_path hfollow, ← decodeMulti, ih hp]

/-! ### The tree a running decoder stands in -/

/-- A tree stands at one index, since no node is the child of two (R37 item 4). -/
theorem BuiltTree.index_eq {x y : Item} {tree' : CodeTree} (h : BuiltTree f x tree) (h' : BuiltTree f y tree') (he : tree = tree') :
    x.1 = y.1 := by
  induction h generalizing y tree' with
  | @leaf x hx =>
    cases h' with
    | merge => cases he
    | leaf hy =>
      injection he with hrs
      exact idxKey_inj.1 (by rw [← rs_of_mem_builtLeaves hx, ← rs_of_mem_builtLeaves hy, hrs])
  | @merge k a b q l r hk hq ha hb iha _ =>
    cases h' with
    | leaf => cases he
    | @merge k' a' b' q' l' r' hk' hq' ha' hb' =>
      injection he with _ hleft _
      have hside : ((collection f k).take 2)[false.toNat]? = some a := by rw [hq]; rfl
      have hside' : ((collection f k').take 2)[false.toNat]? = some a' := by rw [hq']; rfl
      have hmerge := taken_unique (by omega) hk hk' hside hside' (iha ha' hleft)
      simp only [Prod.mk.injEq, and_true] at hmerge
      rw [hmerge]

/-- On the side of a branch a node with children has the tree of that side (R29, R212). -/
theorem BuiltTree.child {x : Item} (h : BuiltTree f x (.internal w left right)) (bit : Bool) :
    ∃ y, childOf x.2 bit = y.1 ∧ BuiltTree f y (if bit then right else left) := by
  cases h with
  | @merge k a b q l r hk hq ha hb =>
    cases bit with
    | false => exact ⟨a, rfl, ha⟩
    | true => exact ⟨b, rfl, hb⟩

/-- The record of a tree that is a leaf is a leaf of its symbol, any other record has children. -/
theorem BuiltTree.leaf_record {x : Item} (h : BuiltTree f x (.leaf sym w)) : x ∈ builtLeaves f ∧ x.2.rs = sym := by
  cases h with
  | leaf hx => exact ⟨hx, rfl⟩

theorem BuiltTree.internal_record {x : Item} (h : BuiltTree f x (.internal w left right)) : isLeaf x.2 = false := by
  cases h with
  | merge => rfl

/-- A running decoder at the node with the tree `tree`, below the root with the tree `root`, in a node memory of the build of `f`. -/
structure Decoding (f : Memory Count) (root tree : CodeTree) (s : State) : Prop where
  run : s.dst = .run
  reads : ∀ x ∈ builtItems f, readNode s x.1 = some x.2
  atRoot : ∃ n, BuiltTree f (s.root, n) root
  atCur : ∃ n, BuiltTree f (s.cur, n) tree

theorem Decoding.cur_eq_root_iff (h : Decoding f root tree s) : s.cur = s.root ↔ tree = root := by
  obtain ⟨n, hroot⟩ := h.atRoot
  obtain ⟨m, hcur⟩ := h.atCur
  constructor
  · intro he
    have hread := hcur.treeAt h.reads
    rw [he, hroot.treeAt h.reads] at hread
    exact (Except.ok.inj hread).symm
  · exact hcur.index_eq hroot

/-! ### The commands of a running decoder -/

theorem execDbit_of_bad (hr : s.dst = .run) (ht : tokenBit tok = none) : execDbit tok s = raiseHalt .invalidBit s := by
  simp [execDbit, hr, ht]

/-- A branch to a leaf emits its symbol, and the decoder is back at the root (R212). -/
theorem Decoding.leaf {w' : Weight} (h : Decoding f root (.internal w left right) s) (ht : tokenBit tok = some bit)
    (hchild : (if bit then right else left) = .leaf sym w') :
    execDbit tok s = answer { emit := true, sym := sym, n := 1 } { s with cur := s.root } ∧ Decoding f root root { s with cur := s.root } := by
  obtain ⟨hr, hreads, hroot, n, hcur⟩ := h
  refine ⟨?_, hr, hreads, hroot, hroot⟩
  obtain ⟨y, hy, hleaf⟩ := hcur.child bit
  rw [hchild] at hleaf
  obtain ⟨hmem, rfl⟩ := hleaf.leaf_record
  simp [execDbit, hr, ht, walkBit, hreads _ hcur.mem_builtItems, hy, hreads y hleaf.mem_builtItems, isLeaf_of_mem_builtLeaves hmem]

/-- Any other branch leads to the child (R212). -/
theorem Decoding.internal {w' : Weight} {l r : CodeTree} (h : Decoding f root (.internal w left right) s)
    (ht : tokenBit tok = some bit) (hchild : (if bit then right else left) = .internal w' l r) :
    ∃ c, execDbit tok s = answer {} { s with cur := c } ∧ Decoding f root (.internal w' l r) { s with cur := c } := by
  obtain ⟨hr, hreads, hroot, n, hcur⟩ := h
  obtain ⟨y, hy, hbelow⟩ := hcur.child bit
  rw [hchild] at hbelow
  refine ⟨y.1, ?_, hr, hreads, hroot, y.2, hbelow⟩
  simp [execDbit, hr, ht, walkBit, hreads _ hcur.mem_builtItems, hy, hreads y hbelow.mem_builtItems, hbelow.internal_record]

/-- A response changes nothing the decoder stands on. -/
theorem Decoding.after_response (h : Decoding f root tree s) (r : Resp) : Decoding f root tree (respond r s) :=
  ⟨h.run, h.reads, h.atRoot, h.atCur⟩

/-- At the root the payload may end; at any other node it is truncated (R213). -/
theorem Decoding.dend (h : Decoding f root tree s) : ∃ u,
    execDend s = answer { rc := if tree = root then .ok else .truncatedStream } u := by
  by_cases he : tree = root
  · exact ⟨{ s with dst := .idle }, by simp only [execDend, h.run, if_pos (h.cur_eq_root_iff.2 he), if_pos he]⟩
  · exact ⟨_, by simp only [execDend, h.run, h.cur_eq_root_iff, he, if_false]; rfl⟩

/-- From a node with children the tokens and DEND, up to the first error, have the output and the end of the walk (R218). -/
theorem Decoding.runUntilError_walk {wr : Weight} {lr rr : CodeTree}
    (h : Decoding f (.internal wr lr rr) (.internal w left right) s) (toks : List (BitVec 8)) : ∃ rs rc t,
      runUntilError (feedTokens toks ++ [.dend]) s = some (rs, rc, t) ∧
        (decodedOutput rs, rc) = walkTree (.internal wr lr rr) (.internal w left right) toks := by
  induction toks generalizing s w left right with
  | nil =>
    obtain ⟨u, hend⟩ := h.dend
    rw [walkTree_nil]
    by_cases he : CodeTree.internal w left right = .internal wr lr rr
    · refine ⟨_, _, _, (runExpansion_cons (i := .dend) hend (.inl (if_pos he))).trans rfl, by simp [he]⟩
    · exact ⟨_, _, _, runExpansion_error (i := .dend) hend (by simp [he]) rfl, by simp⟩
  | cons tok toks ih =>
    cases ht : tokenBit tok with
    | none =>
      rw [walkTree_bad ht]
      exact ⟨_, _, _, runExpansion_error (i := .dbit tok) (execDbit_of_bad h.run ht) nofun rfl, rfl⟩
    | some bit =>
      cases hchild : if bit then right else left with
      | leaf sym w' =>
        obtain ⟨hexec, hnext⟩ := h.leaf ht hchild
        obtain ⟨rs, rc, t, hrun, hwalk⟩ := ih (hnext.after_response { emit := true, sym := sym, n := 1 })
        rw [walkTree_leaf ht hchild, ← hwalk]
        exact ⟨_, rc, t, (runExpansion_cons (i := .dbit tok) hexec (.inl rfl)).trans (congrArg _ hrun), rfl⟩
      | internal w' l r =>
        obtain ⟨c, hexec, hnext⟩ := h.internal ht hchild
        obtain ⟨rs, rc, t, hrun, hwalk⟩ := ih (hnext.after_response {})
        rw [walkTree_internal ht hchild, ← hwalk]
        exact ⟨_, rc, t, (runExpansion_cons (i := .dbit tok) hexec (.inl rfl)).trans (congrArg _ hrun), rfl⟩

/-! ### The whole decode of a tree of several leaves -/

theorem internal_of_two_leaves (h : 2 ≤ (treeLeaves tree).length) : ∃ w l r, tree = .internal w l r := by
  cases tree with
  | leaf => simp [treeLeaves] at h
  | internal w l r => exact ⟨w, l, r, rfl⟩

/-- With a tree of several leaves DSTART, the tokens and DEND, up to the first error, have the output and the end of the walk on
Tree(ROOT) (R218). -/
theorem TreeOk.runUntilError_decode (h : TreeOk s) (hm : s.ts = .multi) : ∃ w l r, treeAt s s.root = .ok (.internal w l r) ∧
    ∀ toks, ∃ rs rc t, runUntilError (decodeCommands toks) s = some (rs, rc, t) ∧
      (decodedOutput rs, rc) = decodeMulti (.internal w l r) toks := by
  obtain ⟨htwo, -, -⟩ := h.multi hm
  obtain ⟨n, tree, hbuilt, hat, hleaves⟩ := h.builtTree (by simp [hm]) (by simp [hm])
  obtain ⟨w, l, r, rfl⟩ := internal_of_two_leaves (tree := tree) (by simpa [hleaves.length_eq] using htwo)
  obtain ⟨-, hreads⟩ := h.reads (by simp [hm]) (by simp [hm])
  have hstart : execDstart s = answer {} (setDecoder .run { s with cur := s.root }) := by simp [execDstart, hm]
  have hdec : Decoding s.freq (.internal w l r) (.internal w l r) (respond {} (setDecoder .run { s with cur := s.root })) :=
    ⟨rfl, hreads, ⟨n, hbuilt⟩, ⟨n, hbuilt⟩⟩
  refine ⟨w, l, r, hat, fun toks => ?_⟩
  obtain ⟨rs, rc, t, hrun, hwalk⟩ := hdec.runUntilError_walk toks
  exact ⟨_, rc, t, (runExpansion_cons (i := .dstart) hstart (.inl rfl)).trans (congrArg _ hrun), hwalk⟩

end Sys2Proof.Machine
end

section
/-! The round trip (R188, R189, R191). Encoder and decoder both load the header and build, and what the engine then holds is decided by the
header alone; so the codes the encoder looks up are those of the tree the decoder walks. -/

namespace Sys2Proof.Machine

variable {g : Sym8 → Nat} {h : List (Sym8 × Nat)} {s s' t : State} {cs : List (Sym8 × List Bool)} {b : List Sym8} {p : List Bool} {sym : Sym8}

/-! ### The engine after LOADHDR and BUILD -/

/-- The engine holds the tree of a build of the counts `g`. -/
structure BuiltFrom (g : Sym8 → Nat) (s : State) : Prop where
  tree : TreeOk s
  built : s.ts ≠ .none
  counts : ∀ sym, (readFreq s sym).toNat = g sym

theorem BuiltFrom.readFreq_eq_zero (hs : BuiltFrom g s) : readFreq s sym = 0 ↔ g sym = 0 := by
  rw [← hs.counts, ← BitVec.toNat_inj]; rfl

/-- Equal counts have equal codes, whatever else the engines hold (R168). -/
theorem BuiltFrom.currentCodes_eq (hs : BuiltFrom g s) (hs' : BuiltFrom g s') : currentCodes s = currentCodes s' :=
  hs.tree.currentCodes_eq hs'.tree hs.built hs'.built
    (builtLeaves_of_reads fun sym => BitVec.toNat_inj.1 ((hs.counts sym).trans (hs'.counts sym).symm))

/-- The tree of a build is empty exactly when all counts are zero (R138). -/
theorem BuiltFrom.empty_iff (hs : BuiltFrom g s) : s.ts = .empty ↔ ∀ sym, g sym = 0 := by
  obtain ⟨hts, -⟩ := hs.tree hs.built
  rw [hts, builtTs_eq_empty, leafCount, List.length_eq_zero_iff, List.eq_nil_iff_forall_not_mem]
  constructor
  · intro hnone sym
    by_contra hne
    exact hnone _ (mem_builtLeaves_iff.2 ⟨sym, mt hs.readFreq_eq_zero.1 hne, rfl⟩)
  · intro hzero x hx
    obtain ⟨sym, hc, -⟩ := mem_builtLeaves_iff.1 hx
    exact hc (hs.readFreq_eq_zero.2 (hzero sym))

/-- BUILD answers `OK` and leaves the tree of the counts it finds (R140). -/
theorem exists_build (s : State) : ∃ u, exec .build s = answer {} u ∧ TreeOk u ∧ u.ts ≠ .none ∧ u.freq = s.freq := by
  obtain ⟨t, ht⟩ := execBuild_answers s
  obtain ⟨htree, hts, hfreq⟩ := execBuild_treeOk ht
  have hn : t.ts ≠ .none := hts ▸ builtTs_ne_none _
  obtain ⟨-, rfl⟩ | ⟨root, -, rfl⟩ := execBuild_cases ht <;> exact ⟨_, ht, htree, hn, hfreq⟩

/-- LOADHDR issues CLR and LDF only (R95). -/
theorem loadHeader_op {load : List Instr} (hload : loadHeader h = .ok load) {i : Instr} (hi : i ∈ load) :
    i.op = .clr ∨ i.op = .ldf := by
  rw [loadHeader] at hload
  split at hload
  · cases hload
    rcases List.mem_cons.1 hi with rfl | hi
    · exact .inl rfl
    · obtain ⟨p, -, rfl⟩ := List.mem_map.1 hi
      exact .inr rfl
  · cases hload

/-- LOADHDR and BUILD run to their end, without output, and leave the tree of the header's counts (R190, R194). -/
theorem runUntilError_build (hlt : ∀ p ∈ h, p.2 < 2 ^ 32) : ∃ load, loadHeader h = .ok load ∧ ∀ s, ∃ rs t,
    runUntilError (load ++ [.build]) s = some (rs, .ok, t) ∧ decodedOutput rs = [] ∧ BuiltFrom (tableOf h) t := by
  obtain ⟨load, hload, hruns⟩ := runUntilError_loadHeader hlt
  refine ⟨load, hload, fun s => ?_⟩
  obtain ⟨rs, u, hrun, hcounts⟩ := hruns s
  obtain ⟨v, hbuild, htree, hn, hfreq⟩ := exists_build u
  have hlast : runUntilError (load ++ [.build]) s = some (rs ++ [({} : Resp)], .ok, respond {} v) := by
    rw [runUntilError, runExpansion_append hrun, runExpansion_cons hbuild (.inl rfl)]
    rfl
  refine ⟨_, _, hlast, decodedOutput_eq_nil (fun i hi => ?_) hlast, htree, hn, fun sym => ?_⟩
  · rcases List.mem_append.1 hi with hi | hi
    · rcases loadHeader_op hload hi with hop | hop <;> simp [hop]
    · rw [List.mem_singleton.1 hi]; simp [Instr.op]
  · rw [← hcounts sym, ← readFreq_congr hfreq]
    rfl

/-! ### The encoder (R185, R188) -/

/-- A symbol has the code that the list gives it, if it gives it no other. -/
theorem codeOf_of_mem (hd : (cs.map Prod.fst).Nodup) (hp : (sym, p) ∈ cs) : codeOf cs sym = some p := by
  induction cs with
  | nil => simp at hp
  | cons c cs ih =>
    rw [List.map_cons, List.nodup_cons] at hd
    obtain ⟨hnew, hd⟩ := hd
    rcases List.mem_cons.1 hp with rfl | hp
    · simp [codeOf]
    · have hne : c.1 ≠ sym := fun he => hnew (List.mem_map.2 ⟨_, hp, he.symm⟩)
      rw [codeOf, List.find?_cons_of_neg (by simpa using hne)]
      exact ih hd hp

theorem lookupPayload_cons {r : Resp} (hissue : issue (.lkup sym) s = some (r, t)) (hok : r.rc = .ok)
    (hp : lookupPayload b t = .ok p) : lookupPayload (sym :: b) s = .ok (codeString r ++ p) := by
  rw [lookupPayload, hissue]
  simp only [hok, if_true, hp]

theorem encodePayload_cons_of_code {code : Sym8 → Option (List Bool)} {c : List Bool} (hc : code sym = some c)
    (hp : encodePayload code b = .ok p) : encodePayload code (sym :: b) = .ok (c ++ p) := by
  rw [encodePayload, hc]
  simp only [hp]

/-- Lookups in the table of a list of codes are the codes of the list, so the payload is that of the encoder (R185). -/
theorem lookupPayload_of_codes {f : Memory Count} (hcodes : TableCodes f cs) (hcs : s.cs = true) (hcode : s.code = codeTable cs)
    (hb : ∀ sym ∈ b, ∃ p, (sym, p) ∈ cs) : ∃ p, lookupPayload b s = .ok p ∧ encodePayload (codeOf cs) b = .ok p := by
  induction b generalizing s with
  | nil => exact ⟨[], rfl, rfl⟩
  | cons sym b ih =>
    rw [List.forall_mem_cons] at hb
    obtain ⟨⟨c, hc⟩, hb⟩ := hb
    obtain ⟨p, hlookup, hencode⟩ := ih (s := respond (lookupResponse s sym) s) hcs hcode hb
    have hresponse : lookupResponse s sym = { len := (presentEntry c).len, code := (presentEntry c).bits } := by
      rw [lookupResponse, readCode_of_mem hcodes hcode hc]
      rfl
    have hstring : codeString (lookupResponse s sym) = c := by
      rw [hresponse]
      exact entryString_presentEntry (hcodes.length_le hc)
    refine ⟨c ++ p, ?_, encodePayload_cons_of_code (codeOf_of_mem hcodes.symbols_nodup hc) hencode⟩
    rw [← hstring]
    exact lookupPayload_cons (issue_of_answer (execLkup_of_cs hcs sym)) (by rw [hresponse]) hlookup

theorem headerOf_lt {n : Nat} (hg : ∀ sym, g sym < n) : ∀ p ∈ headerOf g, p.2 < n := fun p hp => (mem_headerOf.1 hp).1 ▸ hg p.1

/-- Encoding succeeds where the engine can hold the counts, with the header of the counts and the payload of the codes that an engine
with these counts derives (R188). -/
theorem encodeFile_of_counts (hb : ∀ sym, freqScan b sym < 2 ^ 32) (s : State) : ∃ u cs p, BuiltFrom (freqScan b) u ∧
    currentCodes u = .ok cs ∧ encodePayload (codeOf cs) b = .ok p ∧ encodeFile b s = .ok (headerText (headerOf (freqScan b)), p) := by
  obtain ⟨load, hload, hruns⟩ := runUntilError_build (headerOf_lt hb)
  obtain ⟨rs, u, hrun, -, hu⟩ := hruns s
  rw [funext (tableOf_headerOf (freqScan b))] at hu
  obtain ⟨cs, hcs⟩ := hu.tree.currentCodes_ok hu.built
  have hcodes := hu.tree.tableCodes hu.built hcs
  have hpresent : ∀ sym ∈ b, ∃ p, (sym, p) ∈ cs := fun sym hsym =>
    hcodes.exists_code_iff.2 (mt hu.readFreq_eq_zero.1 (List.count_pos_iff.2 hsym).ne')
  obtain ⟨v, hgen, hvalid, htable⟩ : ∃ v, exec .gen u = answer {} v ∧ v.cs = true ∧ v.code = codeTable cs :=
    ⟨_, execGen_of_codes hu.built hcs, rfl, rfl⟩
  obtain ⟨p, hlookup, hencode⟩ := lookupPayload_of_codes (s := respond {} v) hcodes hvalid htable hpresent
  have hlast : runUntilError (load ++ [.build, .gen]) s = some (rs ++ [({} : Resp)], .ok, respond {} v) := by
    rw [runUntilError, List.append_cons, runExpansion_append hrun, runExpansion_cons hgen (.inl rfl)]
    rfl
  refine ⟨u, cs, p, hu, hcs, hencode, ?_⟩
  rw [encodeFile, hload]
  simp only [hlast, if_true, hlookup]

/-! ### The decoder (R189) -/

theorem builtTs_eq_single {n : Nat} : builtTs n = .single ↔ n = 1 := by
  match n with
  | 0 | 1 => simp
  | n + 2 => simp

/-- With one present symbol the root is its leaf (R37 item 1). -/
theorem TreeOk.single (h : TreeOk s) (hone : s.ts = .single) : ∃ sym w, treeAt s s.root = .ok (.leaf sym w) ∧
    readNode s s.root = some (leafNode sym (readFreq s sym)) := by
  obtain ⟨hts, -⟩ := h (by simp [hone])
  have hcount : leafCount s.freq = 1 := builtTs_eq_single.1 (hts.symm.trans hone)
  obtain ⟨n, tree, hbuilt, hat, hleaves⟩ := h.builtTree (by simp [hone]) (by simp [hone])
  obtain ⟨-, hreads⟩ := h.reads (by simp [hone]) (by simp [hone])
  have hlength : (treeLeaves tree).length = 1 := by simpa [hcount] using hleaves.length_eq
  cases tree with
  | internal w l r =>
    have hl := treeLeaves_length_pos l
    have hr := treeLeaves_length_pos r
    rw [treeLeaves, List.length_append] at hlength
    omega
  | leaf sym w =>
    obtain ⟨hmem, hsym⟩ := hbuilt.leaf_record
    obtain ⟨sym', -, he⟩ := mem_builtLeaves_iff.1 hmem
    obtain ⟨-, rfl⟩ := Prod.mk.inj he
    obtain rfl : sym' = sym := hsym
    exact ⟨sym', w, hat, hreads _ hbuilt.mem_builtItems⟩

/-- Over the code of a lone leaf only copies of its symbol are encoded, to no bits at all (R165, R185). -/
theorem encodePayload_leaf {w : Weight} (hp : encodePayload (codeOf (deriveCodes (.leaf sym w))) b = .ok p) :
    p = [] ∧ ∀ x ∈ b, x = sym := by
  induction b generalizing p with
  | nil => cases hp; simp
  | cons x b ih =>
    obtain ⟨c, q, hc, hq, rfl⟩ := encodePayload_cons hp
    obtain ⟨rfl, hb⟩ := ih hq
    have hmem := mem_of_codeOf hc
    simp only [deriveCodes, codes, List.mem_singleton, Prod.mk.injEq] at hmem
    obtain ⟨rfl, rfl⟩ := hmem
    exact ⟨rfl, List.forall_mem_cons.2 ⟨rfl, hb⟩⟩

/-- The 32 bits DSTART emits of a leaf's weight are its count (R83, R215). -/
theorem extractLsb'_zext40 (c : Count) : (zext40 c).extractLsb' 0 32 = c := by
  apply BitVec.eq_of_toNat_eq
  have hlt := c.isLt
  simp only [zext40, BitVec.extractLsb'_toNat, BitVec.toNat_setWidth, Nat.shiftRight_zero]
  omega

theorem execDstart_of_single {n : Node} (hone : s.ts = .single) (hn : readNode s s.root = some n) :
    execDstart s = answer { emit := true, sym := n.rs, n := n.w.extractLsb' 0 32 } (setDecoder .done s) := by
  simp [execDstart, hone, hn]

theorem execDend_of_done (hd : s.dst = .done) : execDend s = answer {} { s with dst := .idle } := by simp [execDend, hd]

/-- With one present symbol the empty payload decodes to as many copies as the symbol has (R215). -/
theorem runUntilError_single (hone : s.ts = .single) (hn : readNode s s.root = some (leafNode sym (readFreq s sym))) :
    ∃ rs t, runUntilError (decodeCommands []) s = some (rs, .ok, t) ∧
      decodedOutput rs = List.replicate (readFreq s sym).toNat sym := by
  have hrun := runExpansion_cons (past := fun _ => false) (i := .dstart) (is := [.dend]) (execDstart_of_single hone hn) (.inl rfl)
  rw [runExpansion_cons (i := .dend) (execDend_of_done rfl) (.inl rfl)] at hrun
  exact ⟨_, _, hrun, by simp [leafNode, extractLsb'_zext40]⟩

/-- Over the counts of `b` the tokens of the payload of `b` decode to `b` (R191). -/
theorem BuiltFrom.decodes (hs : BuiltFrom (freqScan b) s) (he : s.ts ≠ .empty) (hcs : currentCodes s = .ok cs)
    (hp : encodePayload (codeOf cs) b = .ok p) :
    ∃ rs t, runUntilError (decodeCommands (p.map tokenOf)) s = some (rs, .ok, t) ∧ decodedOutput rs = b := by
  obtain ⟨he', -⟩ | ⟨-, tree, htree, rfl⟩ := currentCodes_cases hcs hs.built
  · exact absurd he' he
  cases hts : s.ts with
  | none => exact absurd hts hs.built
  | empty => exact absurd hts he
  | single =>
    obtain ⟨sym, w, hat, hroot⟩ := hs.tree.single hts
    cases htree.symm.trans hat
    obtain ⟨rfl, hb⟩ := encodePayload_leaf hp
    obtain ⟨rs, t, hrun, hout⟩ := runUntilError_single hts hroot
    have hlength : freqScan b sym = b.length := List.count_eq_length.2 fun x hx => (hb x hx).symm
    rw [hs.counts, hlength, ← List.eq_replicate_of_mem hb] at hout
    exact ⟨rs, t, hrun, hout⟩
  | multi =>
    obtain ⟨w, l, r, hat, hdecode⟩ := hs.tree.runUntilError_decode hts
    cases htree.symm.trans hat
    obtain ⟨rs, rc, t, hrun, hwalk⟩ := hdecode (p.map tokenOf)
    rw [decodeMulti_encodePayload rfl hp] at hwalk
    cases hwalk
    exact ⟨rs, t, hrun, rfl⟩

/-- Decoding is the decode commands after LOADHDR and BUILD of the header's pairs (R189). -/
theorem decodeFile_of_parse {text : List Char} (hparse : parseHeader text = .ok h) (hlt : ∀ p ∈ h, p.2 < 2 ^ 32)
    (toks : List (BitVec 8)) (s : State) : ∃ u, BuiltFrom (tableOf h) u ∧
    (∀ rs t, runUntilError (decodeCommands toks) u = some (rs, .ok, t) → decodeFile text toks s = .ok (decodedOutput rs)) ∧
    (u.ts = .empty → decodeFile text toks s = if h = [] then .ok [] else .error (.engine .emptyTree)) := by
  obtain ⟨load, hload, hruns⟩ := runUntilError_build hlt
  obtain ⟨rs, u, hrun, hout, hu⟩ := hruns s
  have hlast : runUntilError (load ++ .build :: decodeCommands toks) s =
      (runUntilError (decodeCommands toks) u).map fun x => (rs ++ x.1, x.2.1, x.2.2) := by
    rw [runUntilError, List.append_cons, runExpansion_append hrun]
    rfl
  refine ⟨u, hu, fun rs' t hdecode => ?_, fun he => ?_⟩
  · rw [decodeFile, hparse]
    simp [hload, hlast, hdecode, decodedOutput_append, hout]
  · have hdecode : runUntilError (decodeCommands toks) u = _ := runExpansion_error (i := .dstart) (execDstart_of_empty he) nofun rfl
    rw [decodeFile, hparse]
    simp [hload, hlast, hdecode]

theorem headerOf_eq_nil (hzero : ∀ sym, g sym = 0) : headerOf g = [] :=
  List.eq_nil_iff_forall_not_mem.2 fun p hp => by
    obtain ⟨hcount, hne⟩ := mem_headerOf.1 hp
    exact hne (hcount.trans (hzero p.1))

theorem eq_nil_of_freqScan (hzero : ∀ sym, freqScan b sym = 0) : b = [] :=
  List.eq_nil_iff_forall_not_mem.2 fun sym => List.count_eq_zero.1 (hzero sym)

/-- The header of the counts of `b` and the payload of `b` decode to `b` with any engine (R191): the codes are those of any engine with
these counts. -/
theorem decodeFile_headerOf (hb : ∀ sym, freqScan b sym < 2 ^ 32) (hs : BuiltFrom (freqScan b) s) (hcs : currentCodes s = .ok cs)
    (hp : encodePayload (codeOf cs) b = .ok p) (s' : State) :
    decodeFile (headerText (headerOf (freqScan b))) (p.map tokenOf) s' = .ok b := by
  obtain ⟨u, hu, hrun, hempty⟩ := decodeFile_of_parse (parseHeader_headerText _) (headerOf_lt hb) (p.map tokenOf) s'
  rw [funext (tableOf_headerOf (freqScan b))] at hu
  by_cases he : u.ts = .empty
  · have hzero := hu.empty_iff.1 he
    rw [hempty he, if_pos (headerOf_eq_nil hzero), eq_nil_of_freqScan hzero]
  · obtain ⟨rs, t, hdecode, hout⟩ := hu.decodes he ((hu.currentCodes_eq hs).trans hcs) hp
    rw [hrun rs t hdecode, hout]

end Sys2Proof.Machine

namespace Sys2Proof.Proofs
open Sys2Proof.Machine

/-- Settles O60: loading the header and building leaves every engine with the tree of the counts, so the decoder walks the tree whose codes
the encoder looked up; the line of the file is the header text again; of zero counts the tree is empty. -/
theorem decodingTheEncodedFileGivesItBack : Obligations.DecodingTheEncodedFileGivesItBack := by
  refine ⟨fun b hb s => ?_, fun text h toks s hparse hlt hzero => ?_⟩
  · obtain ⟨u, cs, p, hu, hcs, hencode, hfile⟩ := encodeFile_of_counts hb s
    have hdecode := decodeFile_headerOf hb hu hcs hencode
    refine ⟨_, p, hfile, hdecode, _, by rw [encodeToFile, hfile], rfl, fun s' => ?_⟩
    obtain ⟨hline, htext⟩ := splitLine_headerLine (headerOf (freqScan b)) (p.map tokenOf)
    rw [decodeFromFile, hline, htext]
    exact hdecode s'
  · obtain ⟨u, hu, -, hempty⟩ := decodeFile_of_parse hparse hlt toks s
    exact hempty (hu.empty_iff.2 hzero)

end Sys2Proof.Proofs
end

section
/-! The commands of the decoder (R211 to R215): what each answers, case by case, and that it moves the decoder alone. Under the invariant a
running decoder has a node to move to, and a lone symbol is emitted as often as its count says. -/

namespace Sys2Proof.Machine

variable {s : State} {i : Instr} {r : Resp} {tok : BitVec 8} {bit : Bool}

/-- No token but the two bits stands for a bit (R214). -/
theorem tokenBit_eq_none (hzero : tok ≠ 0x30) (hone : tok ≠ 0x31) : tokenBit tok = none := by
  simp only [tokenBit, if_neg hzero, if_neg hone]

/-! ### What the commands answer -/

/-- A command that moves the decoder and answers leaves all else unchanged (R36). -/
theorem exec_movesDecoder {d : DecState} {e : BitVec 4} {c : Idx} (h : exec i s = answer r { s with dst := d, derr := e, cur := c }) :
    ∃ t, exec i s = .next t ∧ Answered s t r ∧ t.dst = d ∧ t.derr = e ∧ t.cur = c ∧ DecoderFrame s t :=
  ⟨_, h, ⟨rfl, rfl, rfl⟩, rfl, rfl, rfl, sameMemories_refl s, rfl, rfl, rfl, rfl, rfl⟩

theorem execDstart_of_none (hn : s.ts = .none) : execDstart s = raise .badSequence s := by simp [execDstart, hn]

theorem execDstart_of_multi (hm : s.ts = .multi) : execDstart s = answer {} (setDecoder .run { s with cur := s.root }) := by
  simp [execDstart, hm]

theorem execDbit_of_not_run (hd : s.dst ≠ .run) : execDbit tok s = raise .badSequence s := by simp [execDbit, hd]

/-- A good token of a running decoder moves one branch down, and from a leaf back to the root (R212). -/
theorem execDbit_of_bit {n c : Node} (hr : s.dst = .run) (ht : tokenBit tok = some bit) (hn : readNode s s.cur = some n)
    (hc : readNode s (childOf n bit) = some c) : execDbit tok s =
      if isLeaf c then answer { emit := true, sym := c.rs, n := 1 } { s with cur := s.root }
      else answer {} { s with cur := childOf n bit } := by
  simp only [execDbit, if_pos hr, ht, walkBit, hn, hc]

theorem execDend_of_stopped (hd : s.dst = .idle ∨ s.dst = .halt) : execDend s = raise .badSequence s := by
  rcases hd with hd | hd <;> simp [execDend, hd]

theorem execDend_of_atRoot (hr : s.dst = .run) (hc : s.cur = s.root) : execDend s = answer {} { s with dst := .idle } := by
  simp only [execDend, hr, if_pos hc]

theorem execDend_of_offRoot (hr : s.dst = .run) (hc : s.cur ≠ s.root) : execDend s = raiseHalt .truncatedStream s := by
  simp only [execDend, hr, if_neg hc]

/-! ### Under the invariant -/

/-- A leaf among the entries of a build is the leaf of a present symbol (R23, R134). -/
theorem present_of_isLeaf {x : Item} (hx : x ∈ builtItems s.freq) (hleaf : isLeaf x.2 = true) : readFreq s x.2.rs ≠ 0 := by
  rw [builtItems_eq, List.mem_append] at hx
  rcases hx with hx | hx
  · obtain ⟨sym, hc, rfl⟩ := mem_builtLeaves_iff.1 hx
    exact hc
  · have hpos : leafCount s.freq ≠ 0 := fun h0 => by rw [h0] at hx; simp at hx
    obtain ⟨-, -, hinner⟩ := idxKey_of_mem_madeBefore (by omega) hx
    exact absurd (hleaf.symm.trans hinner) nofun

/-- A running decoder stands at an entry of `NODE` (R61, R212). -/
theorem DecoderOk.exists_node (h : DecoderOk s) (ht : TreeOk s) (hr : s.dst = .run) (hm : s.ts = .multi) :
    ∃ n, readNode s s.cur = some n := by
  obtain ⟨-, hnleaf, -⟩ := ht.multi hm
  obtain ⟨-, hhigh⟩ := h hr
  have hle := leafCount_le s.freq
  refine Option.ne_none_iff_exists'.1 fun hnone => ?_
  have hkey : s.cur.toNat = 511 := congrArg BitVec.toNat (readNode_eq_none.1 hnone)
  omega

/-- A running decoder reads the child a branch leads to, an entry of the build (R37, R212). -/
theorem EngineOk.reads_child (h : EngineOk s) (hr : s.dst = .run) (bit : Bool) :
    ∃ n, readNode s s.cur = some n ∧ ∃ x ∈ builtItems s.freq, readNode s (childOf n bit) = some x.2 := by
  obtain ⟨-, hstatus, htree, -, hdec⟩ := h
  have hm := hstatus.multi_of_run hr
  obtain ⟨n, hn⟩ := hdec.exists_node htree hr hm
  obtain ⟨x, hx, hchild⟩ := hdec.child htree hr hm hn bit
  obtain ⟨-, hreads⟩ := htree.reads (by simp [hm]) (by simp [hm])
  exact ⟨n, hn, x, hx, hchild ▸ hreads x hx⟩

/-- With one present symbol the root is its leaf, and no other symbol is present (R37 item 1, R168). -/
theorem TreeOk.single_present (h : TreeOk s) (hone : s.ts = .single) : ∃ sym, (∀ x, readFreq s x ≠ 0 ↔ x = sym) ∧
    readNode s s.root = some (leafNode sym (readFreq s sym)) := by
  obtain ⟨sym, w, hat, hroot⟩ := h.single hone
  have hcs : currentCodes s = .ok [(sym, [])] := by simp [currentCodes, hone, hat, deriveCodes, codes]
  have hcodes := h.tableCodes (by simp [hone]) hcs
  exact ⟨sym, fun x => hcodes.exists_code_iff.symm.trans (by simp), hroot⟩

end Sys2Proof.Machine

namespace Sys2Proof.Proofs
open Sys2Proof.Machine

/-- Settles O36: the one code of a lone leaf tells that its symbol alone is present, and the weight DSTART emits of it is its count. -/
theorem singleSymbolRunIsEmittedByItsCount : Obligations.SingleSymbolRunIsEmittedByItsCount := by
  intro s ⟨_, _, htree, _⟩ hone
  obtain ⟨sym, hpresent, hroot⟩ := htree.single_present hone
  obtain ⟨t, hexec, hans, hdst, -⟩ := exec_movesDecoder (i := .dstart) (execDstart_of_single hone hroot)
  rw [leafNode, extractLsb'_zext40] at hans
  exact ⟨sym, t, (hpresent sym).2 rfl, fun x hx => not_not.1 fun hc => hx ((hpresent x).1 hc), hexec, hans, hdst⟩

/-- Settles O39: a running decoder reads the child a token leads to, and an entry of the build that is a leaf is that of a present symbol. -/
theorem goodTokenAlwaysMovesInRun : Obligations.GoodTokenAlwaysMovesInRun := by
  intro s tok hs hr htok
  obtain ⟨bit, ht⟩ : ∃ bit, tokenBit tok = some bit := by
    rcases htok with rfl | rfl
    · exact ⟨false, rfl⟩
    · exact ⟨true, rfl⟩
  obtain ⟨n, hn, x, hx, hc⟩ := hs.reads_child hr bit
  have hexec : exec (.dbit tok) s = _ := execDbit_of_bit hr ht hn hc
  cases hleaf : isLeaf x.2 with
  | true => exact ⟨_, _, hexec.trans (if_pos hleaf), ⟨rfl, rfl, rfl⟩, rfl, hr, fun _ => ⟨rfl, present_of_isLeaf hx hleaf⟩⟩
  | false => exact ⟨_, {}, hexec.trans (if_neg (by simp [hleaf])), ⟨rfl, rfl, rfl⟩, rfl, hr, nofun⟩

/-- Settles O41: the expansion of DECODE follows the walk on the tree of the build. -/
theorem commandSequenceEqualsTheWalk : Obligations.CommandSequenceEqualsTheWalk := by
  intro s toks ⟨_, _, htree, _⟩ hm
  obtain ⟨w, l, r, hat, hdecode⟩ := htree.runUntilError_decode hm
  obtain ⟨rs, rc, t, hrun, hwalk⟩ := hdecode toks
  exact ⟨_, rs, rc, t, hat, hrun, hwalk⟩

/-- Settles O42: the code of each byte is the path to its leaf, which the walk follows back to the root. That the symbols of the leaves
differ is not needed: the encoder writes the path to some leaf of the byte in any case. -/
theorem walkInvertsTheEncoder : Obligations.WalkInvertsTheEncoder := fun _ _ _ _ _ _ => decodeMulti_encodePayload rfl

/-- Settles O35: the answer of DSTART for each tree state, a move of the decoder alone. -/
theorem decodeStartByTreeState : Obligations.DecodeStartByTreeState := by
  refine ⟨decode_eq_ok_iff.2 (by decide), fun s => ⟨execDstart_of_none, fun he => ?_, fun hone n hn => ?_, fun hm => ?_⟩⟩
  · exact exec_movesDecoder (i := .dstart) (execDstart_of_empty he)
  · exact exec_movesDecoder (i := .dstart) (execDstart_of_single hone hn)
  · exact exec_movesDecoder (i := .dstart) (execDstart_of_multi hm)

/-- Settles O37: the table of the tokens, and the halt of a running decoder on a token that is no bit. -/
theorem tokensOtherThanTheTwoBitsAreInvalid : Obligations.TokensOtherThanTheTwoBitsAreInvalid := by
  refine ⟨rfl, rfl, fun tok hzero hone => ⟨tokenBit_eq_none hzero hone, fun s hr => ?_⟩⟩
  obtain ⟨t, hexec, hans, hdst, hderr, -⟩ :=
    exec_movesDecoder (i := .dbit tok) (execDbit_of_bad hr (tokenBit_eq_none hzero hone))
  exact ⟨t, hexec, hans, hdst, hderr⟩

/-- Settles O38: the answer of DBIT outside RUN, on a token that is no bit, and on a bit, by whether the child is a leaf. -/
theorem decodeBitMovesOneBranch : Obligations.DecodeBitMovesOneBranch := by
  refine ⟨fun tok => decode_encode (.dbit tok), fun s tok => ⟨execDbit_of_not_run, fun hr hzero hone => ?_, fun hr n i c hn htok hc => ?_⟩⟩
  · exact exec_movesDecoder (i := .dbit tok) (execDbit_of_bad hr (tokenBit_eq_none hzero hone))
  obtain ⟨bit, ht, rfl⟩ : ∃ bit, tokenBit tok = some bit ∧ i = childOf n bit := by
    rcases htok with ⟨rfl, rfl⟩ | ⟨rfl, rfl⟩
    · exact ⟨false, rfl, rfl⟩
    · exact ⟨true, rfl, rfl⟩
  have hexec : exec (.dbit tok) s = _ := execDbit_of_bit hr ht hn hc
  cases hleaf : isLeaf c with
  | true =>
    rw [if_pos hleaf] at hexec
    obtain ⟨t, hnext, hans, hdst, hderr, hcur, hframe⟩ := exec_movesDecoder hexec
    exact ⟨t, hnext, hdst.trans hr, hderr, hframe, fun _ => ⟨hans, hcur⟩, nofun⟩
  | false =>
    rw [if_neg (by simp [hleaf])] at hexec
    obtain ⟨t, hnext, hans, hdst, hderr, hcur, hframe⟩ := exec_movesDecoder hexec
    exact ⟨t, hnext, hdst.trans hr, hderr, hframe, nofun, fun _ => ⟨hans, hcur⟩⟩

/-- Settles O40: the answer of DEND for each decoder state, in RUN by whether `CUR` is `ROOT`. -/
theorem decodeEndChecksTheRoot : Obligations.DecodeEndChecksTheRoot := by
  refine ⟨decode_eq_ok_iff.2 (by decide), fun s => ⟨execDend_of_stopped, fun hend => ?_, fun hr hc => ?_⟩⟩
  · have hexec : exec .dend s = answer {} { s with dst := .idle } :=
      hend.elim execDend_of_done fun ⟨hr, hc⟩ => execDend_of_atRoot hr hc
    exact exec_movesDecoder hexec
  · exact exec_movesDecoder (i := .dend) (execDend_of_offRoot hr hc)

end Sys2Proof.Proofs
end

section
/-! What an error does (R247, R250 to R253): the answer of a command out of sequence, and the state each error leaves, which is that of before
but for the decoder. A decoder in HALT is left to a fresh start. -/

namespace Sys2Proof.Machine

variable {s t : State} {i : Instr} {r : Resp}

/-! ### Commands out of sequence (R247) -/

/-- DEND is not legal exactly where no decode is under way. -/
theorem legalWhen_dend_eq_false : legalWhen .dend s = false ↔ s.dst = .idle ∨ s.dst = .halt := by
  cases hd : s.dst <;> simp [legalWhen, hd]

/-- A command that is not legal answers `BadSequence` and does nothing else. -/
theorem exec_of_not_legal (h : legalWhen i s = false) : exec i s = raise .badSequence s := by
  cases i with
  | clr | ldf | rdf | rds | build => cases h
  | gen => exact execGen_of_none (by simpa [legalWhen] using h)
  | lkup sym => exact execLkup_of_not_cs h sym
  | dstart => exact execDstart_of_none (by simpa [legalWhen] using h)
  | dbit tok => exact execDbit_of_not_run (of_decide_eq_false h)
  | dend => exact execDend_of_stopped (legalWhen_dend_eq_false.1 h)

/-- No command has `BadSequence` as its own error (R241). -/
theorem ownError_ne_badSequence (i : Instr) : ownError i ≠ some .badSequence := by cases i <;> simp [ownError]

/-- The one response of a command is told by the list of responses (R90). -/
theorem Answered.unique {r' : Resp} (h : Answered s t r) (hr : t.resps = s.resps ++ [r']) : r = r' := by
  obtain ⟨hresps, -⟩ := h
  exact List.singleton_inj.1 (List.append_cancel_left (hresps.symm.trans hr))

/-! ### The state an error leaves (R251) -/

/-- The state an error leaves, its response apart: `EmptyTree` puts the decoder in IDLE, the two errors of a payload halt it, the others write
nothing (R243 to R248, R250). -/
def errorState (e : ResultCode) (s : State) : State :=
  match e with
  | .emptyTree => setDecoder .idle s
  | .invalidBit | .truncatedStream => haltDecoder e s
  | .ok | .malformedHeader | .unknownSymbol | .badSequence | .illegalCommand => s

/-- An error writes no memory, and of the registers and status fields `DST` and `DERR` alone. -/
theorem errorState_frame (e : ResultCode) (s : State) :
    SameMemories s (errorState e s) ∧ SameRegisters s (errorState e s) ∧
      (errorState e s).ts = s.ts ∧ (errorState e s).cs = s.cs ∧ (errorState e s).nleaf = s.nleaf := by
  cases e <;> exact ⟨sameMemories_refl s, ⟨rfl, rfl, rfl⟩, rfl, rfl, rfl⟩

/-- A command that goes on answers `OK`, or an error whose state it leaves; `EmptyTree` only where the tree is empty. -/
theorem exec_ok_or_error (h : exec i s = .next t) : ∃ r, Answered s t r ∧
    (r.rc = .ok ∨ t = respond r (errorState r.rc s) ∧ (r.rc = .emptyTree → s.ts = .empty)) := by
  cases i with
  | clr | ldf | rdf | rds | build =>
    obtain ⟨r, hans, ⟨hnot, -⟩ | ⟨-, hok | hown⟩⟩ := exec_result h
    · cases hnot
    · exact ⟨r, hans, .inl hok⟩
    · cases hown
  | gen =>
    obtain ⟨-, rfl⟩ | ⟨cs, -, -, rfl⟩ := execGen_cases h
    · exact ⟨_, ⟨rfl, rfl, rfl⟩, .inr ⟨rfl, nofun⟩⟩
    · exact ⟨_, ⟨rfl, rfl, rfl⟩, .inl rfl⟩
  | lkup sym =>
    obtain ⟨-, rfl⟩ | ⟨-, -, rfl⟩ | ⟨-, -, rfl⟩ := execLkup_cases h
    · exact ⟨_, ⟨rfl, rfl, rfl⟩, .inr ⟨rfl, nofun⟩⟩
    · exact ⟨_, ⟨rfl, rfl, rfl⟩, .inr ⟨rfl, nofun⟩⟩
    · exact ⟨_, ⟨rfl, rfl, rfl⟩, .inl rfl⟩
  | dstart =>
    obtain ⟨-, rfl⟩ | ⟨he, rfl⟩ | ⟨n, -, -, rfl⟩ | ⟨-, rfl⟩ := execDstart_cases h
    · exact ⟨_, ⟨rfl, rfl, rfl⟩, .inr ⟨rfl, nofun⟩⟩
    · exact ⟨_, ⟨rfl, rfl, rfl⟩, .inr ⟨rfl, fun _ => he⟩⟩
    · exact ⟨_, ⟨rfl, rfl, rfl⟩, .inl rfl⟩
    · exact ⟨_, ⟨rfl, rfl, rfl⟩, .inl rfl⟩
  | dbit tok =>
    obtain ⟨-, rfl⟩ | ⟨-, -, rfl⟩ | ⟨bit, -, -, hw⟩ := execDbit_cases h
    · exact ⟨_, ⟨rfl, rfl, rfl⟩, .inr ⟨rfl, nofun⟩⟩
    · exact ⟨_, ⟨rfl, rfl, rfl⟩, .inr ⟨rfl, nofun⟩⟩
    · obtain ⟨n, c, -, -, ⟨-, rfl⟩ | ⟨-, rfl⟩⟩ := walkBit_cases hw <;> exact ⟨_, ⟨rfl, rfl, rfl⟩, .inl rfl⟩
  | dend =>
    obtain ⟨-, rfl⟩ | ⟨-, rfl⟩ | ⟨-, -, rfl⟩ | ⟨-, -, rfl⟩ := execDend_cases h
    · exact ⟨_, ⟨rfl, rfl, rfl⟩, .inr ⟨rfl, nofun⟩⟩
    · exact ⟨_, ⟨rfl, rfl, rfl⟩, .inl rfl⟩
    · exact ⟨_, ⟨rfl, rfl, rfl⟩, .inl rfl⟩
    · exact ⟨_, ⟨rfl, rfl, rfl⟩, .inr ⟨rfl, nofun⟩⟩

/-- A step that takes a word and answers an error leaves the state of that error. -/
theorem step_command_error {w : CmdWord} {rest : List HostInput} (hp : s.pending = .command w :: rest) (h : step s = .next t)
    (hr : t.resps = s.resps ++ [r]) (hne : r.rc ≠ .ok) :
    t = respond r (errorState r.rc { s with pending := rest }) ∧ (r.rc = .emptyTree → s.ts = .empty) := by
  obtain ⟨i, -, hexec⟩ | ⟨e, -, rfl⟩ := step_command_cases hp h
  · obtain ⟨r', hans, hrc⟩ := exec_ok_or_error hexec
    obtain rfl := hans.unique hr
    exact hrc.resolve_left hne
  · obtain rfl : { rc := .illegalCommand } = r := List.singleton_inj.1 (List.append_cancel_left hr)
    exact ⟨rfl, nofun⟩

/-- On an empty tree the decoder is idle with no error latched (R33, R34). -/
theorem StatusOk.idle_of_empty (h : StatusOk s) (he : s.ts = .empty) : s.dst = .idle ∧ s.derr = 0 := by
  have hidle : s.dst = .idle := by
    obtain ⟨-, -, hrun, hdone, hhalt, -⟩ := h
    cases hd : s.dst with
    | idle => rfl
    | run => cases he.symm.trans (hrun hd)
    | done => cases he.symm.trans (hdone hd)
    | halt => cases he.symm.trans (hhalt hd)
  exact ⟨hidle, h.derr_eq_zero (by simp [hidle])⟩

/-- A halted decoder has a tree of several leaves (R34). -/
theorem StatusOk.multi_of_halt (h : StatusOk s) (hd : s.dst = .halt) : s.ts = .multi := by
  obtain ⟨-, -, -, -, hhalt, -⟩ := h
  exact hhalt hd

/-- CLR, LDF and BUILD leave an idle decoder with no error latched, in whatever state it was (R38, R140). -/
theorem exec_resets_decoder (hi : i = .clr ∨ i = .build ∨ ∃ sym cnt, i = .ldf sym cnt) (h : exec i s = .next t) :
    t.dst = .idle ∧ t.derr = 0 := by
  obtain rfl | rfl | ⟨sym, cnt, rfl⟩ := hi
  · rw [execClr_cases h]; exact ⟨rfl, rfl⟩
  · obtain ⟨-, -, hdst, hderr, -⟩ := execBuild_status h
    exact ⟨hdst, hderr⟩
  · rw [execLdf_cases h]; exact ⟨rfl, rfl⟩

end Sys2Proof.Machine

namespace Sys2Proof.Proofs
open Sys2Proof.Machine

/-- Settles O43: a command that is not legal raises `BadSequence` and no more, and one that is legal answers `OK` or its own error. -/
theorem badSequenceExactlyWhenNotLegal : Obligations.BadSequenceExactlyWhenNotLegal := by
  refine ⟨fun i s => exec_of_not_legal, fun i s t r hlegal h hans hrc => ?_, fun s => ?_⟩
  · obtain ⟨r', ⟨hresps, -⟩, ⟨hnot, -⟩ | ⟨-, hok | hown⟩⟩ := exec_result h <;> obtain rfl := hans.unique hresps
    · cases hlegal.symm.trans hnot
    · cases hrc.symm.trans hok
    · exact ownError_ne_badSequence i (hrc ▸ hown.symm)
  · exact ⟨by simp [legalWhen], fun _ => Iff.rfl, by simp [legalWhen], fun _ => decide_eq_false_iff_not, legalWhen_dend_eq_false,
      rfl, fun _ _ => rfl, fun _ => rfl, rfl, rfl⟩

/-- Settles O44: the decoder comes first, then the condition of the command, then the command itself. -/
theorem errorPriority : Obligations.ErrorPriority := by
  intro s t w rest r hp h hr
  obtain ⟨e, hd, hill⟩ | ⟨i, hd, ⟨hnot, hbad⟩ | ⟨hlegal, hrc⟩⟩ := step_command_result hp h hr
  · simp [hd, hill]
  · simp [hd, hnot, hbad]
  · simp [hd, hlegal, hrc]

/-- Settles O45: the state each error leaves differs from the one before in `DST` and `DERR` alone. -/
theorem errorsArePrecise : Obligations.ErrorsArePrecise := by
  intro s t w rest r hp h hr hne
  obtain ⟨rfl, hempty⟩ := step_command_error hp h hr hne
  obtain ⟨hmem, hreg, hts, hcs, hnleaf⟩ := errorState_frame r.rc { s with pending := rest }
  refine ⟨hmem, hreg, hts, hcs, hnleaf, ?_, fun he => ?_, fun he => ?_, fun he => ?_⟩
  · rintro (he | he | he) <;> simp [he, errorState]
  · simpa [he, errorState] using fun hstatus : StatusOk s => hstatus.idle_of_empty (hempty he)
  · simp [he, errorState, rcCode]
  · simp [he, errorState, rcCode]

/-- Settles O47: DBIT and DEND are not legal in HALT, the reading commands and GEN leave the decoder, the others start it afresh. -/
theorem haltIsLeftOnlyByFreshStart : Obligations.HaltIsLeftOnlyByFreshStart := by
  intro s hd
  refine ⟨fun tok => execDbit_of_not_run (by simp [hd]), execDend_of_stopped (.inr hd), fun i t hi h => ?_,
    fun i t => exec_resets_decoder, fun ⟨_, hstatus, _⟩ => ?_⟩
  · obtain ⟨r, u, he, rfl⟩ := exec_effect h
    exact he.decoder (by obtain rfl | rfl | ⟨sym, rfl⟩ | ⟨sym, rfl⟩ := hi <;> simp [Instr.op])
  · exact ⟨_, execDstart_of_multi (hstatus.multi_of_halt hd), rfl, rfl, rfl⟩

end Sys2Proof.Proofs
end

section
/-! The machine goes on (R240): in a state that meets the invariant every command answers, and so does every step. -/

namespace Sys2Proof.Machine

variable {s : State}

/-- GEN answers: the codes of the tree can be read (R160). -/
theorem EngineOk.execGen_answers (h : EngineOk s) : ∃ t, execGen s = .next t := by
  obtain ⟨-, -, htree, -⟩ := h
  by_cases hn : s.ts = .none
  · exact ⟨_, execGen_of_none hn⟩
  · obtain ⟨cs, hcs⟩ := htree.currentCodes_ok hn
    exact ⟨_, execGen_of_codes hn hcs⟩

/-- DSTART answers: a lone root can be read (R211). -/
theorem EngineOk.execDstart_answers (h : EngineOk s) : ∃ t, execDstart s = .next t := by
  obtain ⟨-, -, htree, -⟩ := h
  cases hts : s.ts with
  | none => exact ⟨_, execDstart_of_none hts⟩
  | empty => exact ⟨_, execDstart_of_empty hts⟩
  | single =>
    obtain ⟨sym, -, hroot⟩ := htree.single_present hts
    exact ⟨_, execDstart_of_single hts hroot⟩
  | multi => exact ⟨_, execDstart_of_multi hts⟩

/-- DBIT answers: a running decoder can read the child a token leads to (R212). -/
theorem EngineOk.execDbit_answers (h : EngineOk s) (tok : BitVec 8) : ∃ t, execDbit tok s = .next t := by
  by_cases hr : s.dst = .run
  · cases ht : tokenBit tok with
    | none => exact ⟨_, execDbit_of_bad hr ht⟩
    | some bit =>
      obtain ⟨n, hn, x, -, hc⟩ := h.reads_child hr bit
      rw [execDbit_of_bit hr ht hn hc]
      split <;> exact ⟨_, rfl⟩
  · exact ⟨_, execDbit_of_not_run hr⟩

/-- Under the invariant every command answers. -/
theorem EngineOk.exec_answers (h : EngineOk s) (i : Instr) : ∃ t, Machine.exec i s = .next t := by
  cases i with
  | gen => exact h.execGen_answers
  | dstart => exact h.execDstart_answers
  | dbit tok => exact h.execDbit_answers tok
  | clr | ldf | rdf | rds | build | lkup | dend => exact Machine.exec_answers s nofun nofun nofun

/-- Under the invariant every step goes on. -/
theorem EngineOk.safeStep (h : EngineOk s) : SafeStep s := by
  match hp : s.pending with
  | [] => exact ⟨_, step_of_pending_nil hp⟩
  | .reset :: rest => exact ⟨_, step_of_pending_reset hp⟩
  | .command w :: rest =>
    unfold SafeStep
    cases hd : decode w with
    | error e => exact ⟨_, step_of_pending_illegal hp hd⟩
    | ok i =>
      rw [step_of_pending_command hp hd]
      exact EngineOk.exec_answers (s := { s with pending := rest }) h i

end Sys2Proof.Machine

namespace Sys2Proof.Proofs
open Sys2Proof.Machine

/-- Settles O55: the step goes on, and so gives its one response, of which an error fills the result code alone. -/
theorem engineNeverStopsAcceptingCommands : Obligations.EngineNeverStopsAcceptingCommands := by
  refine fun s hs => ⟨hs.safeStep, fun w rest hp => ?_⟩
  obtain ⟨t, h⟩ := hs.safeStep
  obtain ⟨r, hresps, hpending, -⟩ := everyCommandReturnsExactlyOneResponse s t w rest hp h
  obtain ⟨hzero, -⟩ := responsesAreZeroFilled s t w rest r hp h hresps
  exact ⟨t, r, h, hresps, hpending, hzero⟩

end Sys2Proof.Proofs
end

section
/-! The reset input against CLR (R270). Both zero the counts and the status fields: the reset input by putting the engine into the reset
state (R39), CLR by its own meaning (R111). -/

namespace Sys2Proof.Machine

/-- The reset input leaves the status fields of the reset state (R39, R270). -/
theorem sameStatus_reset_assertReset (s : State) : SameStatus State.reset (assertReset s) := ⟨rfl, rfl, rfl, rfl, rfl⟩

end Sys2Proof.Machine

namespace Sys2Proof.Proofs
open Sys2Proof.Machine

/-- Settles O12: the counts and status fields of the reset state are zero, and those CLR leaves are zero in every state. -/
theorem resetInputActsAsClearWithoutResponse : Obligations.ResetInputActsAsClearWithoutResponse := by
  intro s rest hp
  obtain ⟨hcount, -, -, -, -, -, hword, hresps⟩ := resetStateHasTheStatedValues
  obtain ⟨-, hclr⟩ := clearZeroesTheTableAndInvalidates
  obtain ⟨u, hu, -, hucount, hts, hcs, hdst, hderr, hnleaf, -⟩ := hclr s
  have hstatus := sameStatus_reset_assertReset { s with pending := rest }
  exact ⟨assertReset { s with pending := rest }, u, step_of_pending_reset hp, hu,
    fun sym => ⟨(readFreq_congr rfl sym).trans (hcount sym), hucount sym⟩,
    ⟨hts.symm, hcs.symm, hdst.symm, hderr.symm, hnleaf.symm⟩, (statusWord_congr hstatus).trans hword, hresps, rfl⟩

end Sys2Proof.Proofs
end
